-- ==== Sys2Proof/Word.lean ====
section
/-! DEFINITION. The word types of the block: a command word is one 32-bit parallel value, a register
is 16 bits wide, and a host link that is byte-serial carries 8-bit bytes (20_memory R41, R42). -/

namespace Sys2Proof

/-- A command word on the command port (30_encoding R53). -/
abbrev Word := BitVec 32

/-- The value of one register of the register space (10_state section 2). -/
abbrev Half := BitVec 16

/-- One byte of a byte-serial host link (20_memory R41). -/
abbrev Byte := BitVec 8

end Sys2Proof
end

