-- ==== Sys2Proof/Syntax.lean ====
section
/-! DEFINITION. The commands of the block, one constructor per row of spec/opcode_table.json
(30_encoding R65), and the causes of its errors (60_exceptions R119). An operand every value of
which is legal has a type of exactly those values; an operand some values of which a command turns
away (30_encoding R68) keeps the bits of its field. -/

namespace Sys2Proof

/-- An analog channel: 0..2 the potentiometers, 3 the CV input (00_scope R5, R56). -/
abbrev Channel := Fin 4

/-- A button (00_scope R5, R57). -/
abbrev Button := Fin 2

/-- A parameter slot of a set (00_scope R5). -/
abbrev Slot := Fin 3

/-- The error causes of 60_exceptions R119 (code 0, NONE, is the absence of one). -/
inductive ErrorCause where
  | illegalOpcode
  | reservedBits
  | badIndex
  | badEnum
  | badRange
  | badAddress
deriving DecidableEq, Repr

/-- One command with its operand fields (30_encoding R54 to R65). -/
inductive Instr where
  /-- NOP (45_system R113). -/
  | nop
  /-- CH_INIT (40_analog R73). -/
  | chInit (c : Channel) (offset : BitVec 12)
  /-- CH_READ (40_analog R74). -/
  | chRead (c : Channel) (smooth : Bool)
  /-- BTN_INIT (41_button R78). -/
  | btnInit (b : Button) (hold : BitVec 16)
  /-- BTN_POLL (41_button R79). -/
  | btnPoll (b : Button)
  /-- PB_SET_RANGE (42_takeover R85). -/
  | pbSetRange (set : BitVec 5) (slot : BitVec 2) (max min : BitVec 8)
  /-- PB_SET_VALUE (42_takeover R86). -/
  | pbSetValue (set : BitVec 5) (slot : BitVec 2) (dmode : BitVec 2) (value : BitVec 8)
  /-- PB_SELECT (42_takeover R87). -/
  | pbSelect (preset : BitVec 5)
  /-- PB_REARM (42_takeover R88). -/
  | pbRearm
  /-- PB_UPDATE (42_takeover R89). -/
  | pbUpdate (settings : Bool)
  /-- CVA_WRITE (43_cv R97). -/
  | cvaWrite (depth : BitVec 7) (target mode : BitVec 2)
  /-- SCOPE_HALVE (44_scope R104). -/
  | scopeHalve
  /-- SCOPE_DOUBLE (44_scope R105). -/
  | scopeDouble
  /-- SCOPE_ACQ (44_scope R106). -/
  | scopeAcq
  /-- REG_READ (45_system R114). -/
  | regRead (addr : BitVec 16)
  /-- ERR_CLEAR (45_system R115). -/
  | errClear
deriving DecidableEq, Repr

end Sys2Proof
end

