-- ==== Sys2Proof/Config.lean ====
section
/-! DEFINITION. What an instance of the block fixes (00_scope R5, 92 section 2), and the values the
spec leaves free: the OPEN parameters and the environment's draws. A free value is an opaque
constant with no body, so nothing can be proved of it but its type. -/

namespace Sys2Proof

/-! ## Constants of 00_scope R5 that no instance varies (log 1) -/

/-- ADC_MAX, 2^ADC_BITS − 1 with ADC_BITS = 12. -/
@[simp] def adcMax : Nat := 4095
/-- N_RAW, the raw acquisitions of one read. -/
@[simp] def nRaw : Nat := 16
/-- RAW_SHIFT. -/
@[simp] def rawShift : Nat := 4
/-- HOLD_DEFAULT_MS. -/
@[simp] def holdDefaultMs : Nat := 500
/-- DEPTH_MAX, in percent. -/
@[simp] def depthMax : Nat := 100
/-- N_FAST, the entries of the scope buffer. -/
@[simp] def nFast : Nat := 200
/-- N_LONG, the length of the long-scan ring. -/
@[simp] def nLong : Nat := 100
/-- TRIG_FIRST. -/
@[simp] def trigFirst : Nat := 9
/-- TRIG_LAST. -/
@[simp] def trigLast : Nat := 109
/-- TRIG_DEFAULT. -/
@[simp] def trigDefault : Nat := 10
/-- RANGE_MARGIN, in raw units. -/
@[simp] def rangeMargin : Nat := 20
/-- RANGE_ROUND. -/
@[simp] def rangeRound : Nat := 10

/-! ## The instance record -/

/-- SCOPE_TRIG_LEVEL (00_scope R5): which level the trigger detector compares with. -/
inductive TrigLevel where
  | midrange
  | average
deriving DecidableEq, Repr

/-- The instance parameters of 92 section 2. Each type is the parameter's legal range as far as that
range is fixed; `Params.Legal` says the rest. -/
structure Params where
  /-- TOTAL_PRESETS, 1..31. -/
  totalPresets : Fin 32
  /-- PWM_MAX, 1..65535. -/
  pwmMax : Fin 65536
  /-- ALPHA_Q16, 0..65535. -/
  alphaQ16 : Fin 65536
  /-- K_Q16, 0..65535. -/
  kQ16 : Fin 65536
  /-- SCOPE_SMOOTH. -/
  scopeSmooth : Bool
  /-- SCOPE_TRIG_LEVEL. -/
  scopeTrigLevel : TrigLevel
  /-- SCAN_DELAY_MIN (OPEN). -/
  scanDelayMin : Fin 65536
  /-- SCAN_DELAY_MAX (OPEN). -/
  scanDelayMax : Fin 65536
  /-- SCAN_DELAY_THRESHOLD (OPEN), 0..65535. -/
  scanDelayThreshold : Fin 65536
  /-- SCAN_DELAY_RESET (OPEN). -/
  scanDelayReset : Fin 65536
deriving DecidableEq, Repr

/-- The legal ranges of 00_scope R5 that the types of `Params` do not carry. -/
abbrev Params.Legal (p : Params) : Prop :=
  1 ≤ p.totalPresets.val ∧ 1 ≤ p.pwmMax.val ∧ 1 ≤ p.scanDelayMin.val ∧
    p.scanDelayMin.val ≤ p.scanDelayReset.val ∧ p.scanDelayReset.val ≤ p.scanDelayMax.val

/-- N_SETS = TOTAL_PRESETS + 1: the presets and the settings set (D16). -/
def Params.nSets (p : Params) : Nat := p.totalPresets.val + 1

/-- SETTINGS_SET = TOTAL_PRESETS, the set index after the last preset (D16). -/
def Params.settingsSet (p : Params) : BitVec 5 := BitVec.ofNat 5 p.totalPresets.val

/-! ## Free values -/

/-- FREE: decides SCAN_DELAY_MIN inside its legal range (D25, log 2). -/
opaque Config.freeScanDelayMin : Nat
/-- FREE: decides SCAN_DELAY_MAX inside its legal range (D25, log 2). -/
opaque Config.freeScanDelayMax : Nat
/-- FREE: decides SCAN_DELAY_RESET inside its legal range (D25, log 2). -/
opaque Config.freeScanDelayReset : Nat
/-- FREE: SCAN_DELAY_THRESHOLD, any 16-bit value (D25, log 2). -/
opaque Config.freeScanDelayThreshold : Fin 65536

/-- FREE: the raw conversion that draw number `k` of `AdcRaw(c)` gives when no value has been
supplied for it (00_scope R6, 93 I32, log 3). -/
opaque Config.freeAdc : (c k : Nat) → BitVec 12
/-- FREE: the level that draw number `k` of `Pin(b)` gives when none has been supplied (93 I33, log 3). -/
opaque Config.freePin : (b k : Nat) → Bool
/-- FREE: the millisecond count that draw number `k` of `Now()` gives when none has been supplied
(93 I34, log 3). -/
opaque Config.freeNow : (k : Nat) → BitVec 32

/-- SCAN_DELAY_MIN of the instance at reset: any value of 1..65535. -/
def Config.scanDelayMin : Nat := 1 + Config.freeScanDelayMin % 65535
/-- SCAN_DELAY_MAX of the instance at reset: any value of SCAN_DELAY_MIN..65535. -/
def Config.scanDelayMax : Nat :=
  Config.scanDelayMin + Config.freeScanDelayMax % (65536 - Config.scanDelayMin)
/-- SCAN_DELAY_RESET of the instance at reset: any value of SCAN_DELAY_MIN..SCAN_DELAY_MAX. -/
def Config.scanDelayReset : Nat :=
  Config.scanDelayMin +
    Config.freeScanDelayReset % (Config.scanDelayMax - Config.scanDelayMin + 1)

/-- The instance `State.reset` stands for: the spec's defaults (00_scope R5), and the four OPEN
parameters free within their legal ranges (log 2). -/
def Config.params : Params where
  totalPresets := 24
  pwmMax := 4095
  alphaQ16 := 62259
  kQ16 := 3277
  scopeSmooth := false
  scopeTrigLevel := .midrange
  scanDelayMin := Fin.ofNat 65536 Config.scanDelayMin
  scanDelayMax := Fin.ofNat 65536 Config.scanDelayMax
  scanDelayThreshold := Config.freeScanDelayThreshold
  scanDelayReset := Fin.ofNat 65536 Config.scanDelayReset

end Sys2Proof
end

