-- ==== Sys2Proof/WellFormed.lean ====
section
/-! DEFINITION. Which commands are legal on an instance: the field-value rules of 30_encoding R68.
Every term of `Instr` has an encoding (its operand types are the fields' widths), so these rules are
the whole of well-formedness; a command that breaks one decodes, and raises when it runs. -/

namespace Sys2Proof

/-- SET and SLOT name a parameter entry (30_encoding R68, 42_takeover R85, R86). -/
def indexLegal (p : Params) (set : BitVec 5) (slot : BitVec 2) : Bool :=
  decide (set.toNat < p.nSets) && decide (slot ≠ 3#2)

/-- ADDR is a mapped address: the ranges of the table of 20_memory R38. -/
def addressLegal (p : Params) (addr : BitVec 16) : Bool :=
  let a := addr.toNat
  decide (a ≤ 0x0017) || decide (0x0020 ≤ a ∧ a ≤ 0x0032) ||
    decide (0x1000 ≤ a ∧ a < 0x1000 + 8 * p.nSets ∧ a % 8 ≤ 5) ||
    decide (0x2000 ≤ a ∧ a ≤ 0x20C7)

/-- The field-value rules of 30_encoding R68, command by command. -/
def Instr.wellFormed (p : Params) : Instr → Bool
  | .nop => true
  | .chInit _ _ => true
  | .chRead _ _ => true
  | .btnInit _ _ => true
  | .btnPoll _ => true
  | .pbSetRange set slot max min => indexLegal p set slot && decide (min.toNat < max.toNat)
  | .pbSetValue set slot dmode _ => indexLegal p set slot && decide (dmode ≠ 3#2)
  | .pbSelect preset => decide (preset.toNat < p.totalPresets.val)
  | .pbRearm => true
  | .pbUpdate _ => true
  | .cvaWrite _ _ _ => true
  | .scopeHalve => true
  | .scopeDouble => true
  | .scopeAcq => true
  | .regRead addr => addressLegal p addr
  | .errClear => true

end Sys2Proof
end

