-- ==== Sys2Proof/Decode.lean ====
section
/-! DEFINITION. Decoding a command word, total on every 32-bit word (30_encoding R66), the encoder
written from the same layouts (R54), and the byte order of a byte-serial host link (20_memory R41). -/

namespace Sys2Proof

/-- The field of `n` bits of `w` whose lowest bit is `lo`, taken directly from its bits
(00_scope R7, 30_encoding R64). -/
def field (w : Word) (lo n : Nat) : BitVec n := w.extractLsb' lo n

/-- OP = w[31:24] (30_encoding R53). -/
def opcodeOf (w : Word) : Nat := (field w 24 8).toNat

/-- The check of one row of 30_encoding R65: `w` is the row's command when `(w & mask) = match`, and
otherwise has a should-be-zero bit set (R66, R67). -/
def checkRow (matchBits mask w : Word) (i : Instr) : Except ErrorCause Instr :=
  if w &&& mask = matchBits then .ok i else .error .reservedBits

/-- Decoding (30_encoding R66): the opcode first, then the should-be-zero bits, then the fields of the
row's format (R54 to R63). -/
def decode (w : Word) : Except ErrorCause Instr :=
  match opcodeOf w with
  | 0x00 => checkRow 0x00000000 0xFFFFFFFF w .nop
  | 0x01 => checkRow 0x01000000 0xFFFCF000 w
      (.chInit (Fin.ofNat 4 (field w 16 2).toNat) (field w 0 12))
  | 0x02 => checkRow 0x02000000 0xFFFCFFFE w
      (.chRead (Fin.ofNat 4 (field w 16 2).toNat) (field w 0 1 == 1#1))
  | 0x03 => checkRow 0x03000000 0xFFFE0000 w
      (.btnInit (Fin.ofNat 2 (field w 16 1).toNat) (field w 0 16))
  | 0x04 => checkRow 0x04000000 0xFFFEFFFF w (.btnPoll (Fin.ofNat 2 (field w 16 1).toNat))
  | 0x05 => checkRow 0x05000000 0xFF010000 w
      (.pbSetRange (field w 19 5) (field w 17 2) (field w 8 8) (field w 0 8))
  | 0x06 => checkRow 0x06000000 0xFF01FC00 w
      (.pbSetValue (field w 19 5) (field w 17 2) (field w 8 2) (field w 0 8))
  | 0x07 => checkRow 0x07000000 0xFFFFFFE0 w (.pbSelect (field w 0 5))
  | 0x08 => checkRow 0x08000000 0xFFFFFFFF w .pbRearm
  | 0x09 => checkRow 0x09000000 0xFFFFFFFE w (.pbUpdate (field w 0 1 == 1#1))
  | 0x0A => checkRow 0x0A000000 0xFFFFF800 w
      (.cvaWrite (field w 4 7) (field w 2 2) (field w 0 2))
  | 0x0B => checkRow 0x0B000000 0xFFFFFFFF w .scopeHalve
  | 0x0C => checkRow 0x0C000000 0xFFFFFFFF w .scopeDouble
  | 0x0D => checkRow 0x0D000000 0xFFFFFFFF w .scopeAcq
  | 0x0E => checkRow 0x0E000000 0xFFFF0000 w (.regRead (field w 0 16))
  | 0x0F => checkRow 0x0F000000 0xFFFFFFFF w .errClear
  | _ => .error .illegalOpcode

/-- An operand of `n` bits at bit `lo` of a word whose other bits are 0 (30_encoding R54, R64). -/
def place {n : Nat} (lo : Nat) (v : BitVec n) : Word := v.setWidth 32 <<< lo

/-- The word of a command: the opcode of its row, and each operand at its place in the row's format,
every should-be-zero bit 0 (30_encoding R54 to R65; the words of R69). -/
def encode : Instr → Word
  | .nop => 0x00000000
  | .chInit c offset => 0x01000000 ||| place 16 (BitVec.ofNat 2 c.val) ||| place 0 offset
  | .chRead c smooth =>
      0x02000000 ||| place 16 (BitVec.ofNat 2 c.val) ||| place 0 (BitVec.ofBool smooth)
  | .btnInit b hold => 0x03000000 ||| place 16 (BitVec.ofNat 1 b.val) ||| place 0 hold
  | .btnPoll b => 0x04000000 ||| place 16 (BitVec.ofNat 1 b.val)
  | .pbSetRange set slot max min =>
      0x05000000 ||| place 19 set ||| place 17 slot ||| place 8 max ||| place 0 min
  | .pbSetValue set slot dmode value =>
      0x06000000 ||| place 19 set ||| place 17 slot ||| place 8 dmode ||| place 0 value
  | .pbSelect preset => 0x07000000 ||| place 0 preset
  | .pbRearm => 0x08000000
  | .pbUpdate settings => 0x09000000 ||| place 0 (BitVec.ofBool settings)
  | .cvaWrite depth target mode => 0x0A000000 ||| place 4 depth ||| place 2 target ||| place 0 mode
  | .scopeHalve => 0x0B000000
  | .scopeDouble => 0x0C000000
  | .scopeAcq => 0x0D000000
  | .regRead addr => 0x0E000000 ||| place 0 addr
  | .errClear => 0x0F000000

/-! ## The byte-serial host link -/

/-- The bytes of a command word in the order a byte-serial link carries them, least significant byte
first (20_memory R41). -/
def bytesOfWord (w : Word) : List Byte := [field w 0 8, field w 8 8, field w 16 8, field w 24 8]

/-- The command word that four bytes of a byte-serial link carry (20_memory R41); the command port
accepts only whole words (R42), so any other number of bytes is none. -/
def wordOfBytes : List Byte → Option Word
  | [b0, b1, b2, b3] => some (b3 ++ b2 ++ b1 ++ b0 : BitVec 32)
  | _ => none

/-- The bytes of a register value in the order a byte-serial link carries them, least significant byte
first (20_memory R41). -/
def bytesOfHalf (v : Half) : List Byte := [v.extractLsb' 0 8, v.extractLsb' 8 8]

/-- The register value that two bytes of a byte-serial link carry (20_memory R41); an access is one whole
register (R42), so any other number of bytes is none (log 10). -/
def halfOfBytes : List Byte → Option Half
  | [b0, b1] => some (b1 ++ b0 : BitVec 16)
  | _ => none

/-- Decoding from bytes, total: none where the bytes are not one whole word (20_memory R42), and
otherwise what the word decodes to. -/
def decodeBytes (bs : List Byte) : Option (Except ErrorCause Instr) := (wordOfBytes bs).map decode

/-- The instruction the decoder reads from an opcode-table word of `nbits` bits: the bits above
`nbits` are 0, the bytes are laid out as the host link carries them, and the decoder reads them.
none where it refuses. -/
def decodeTableWord (nbits w : Nat) : Option Instr :=
  match decodeBytes (bytesOfWord (BitVec.ofNat 32 (w % 2 ^ nbits))) with
  | some (.ok i) => some i
  | some (.error _) => none
  | none => none

end Sys2Proof
end

