-- ==== Sys2Proof/Machine/State.lean ====
section
/-! DEFINITION. The state of the block as plain data (10_state), its value right after reset
(10_state R35, 70_reset R132), and the reasons a step can stop. -/

namespace Sys2Proof.Machine

/-- Nothing raises a fault: the block never stops (60_exceptions R121, 45_system R116), so there is no
constructor. An error is a recorded next state. -/
inductive Fault where
deriving DecidableEq, Repr

/-- What the model gives no meaning to. -/
inductive Refusal where
  /-- Raised by an arm of `exec` whose instruction has no meaning yet. No arm raises it: every
  instruction has its meaning. Safe: it stops where the block goes on. -/
  | notModelled (mnemonic : String)
deriving DecidableEq, Repr

/-! ## The registers -/

/-- The hold stage of a button (10_state R25); the code 3 is never held (93 I29). -/
inductive Stage where
  | idle
  | waiting
  | held
deriving DecidableEq, Repr

/-- The last event of a button (10_state R25); the codes 5..7 are never held (93 I29). -/
inductive ButtonEvent where
  | none
  | pressed
  | released
  | holding
  | heldConfirmed
deriving DecidableEq, Repr

/-- The mode of the CV assignment (10_state R19); the code 3 is never held (93 I29). -/
inductive CvMode where
  | off
  | bipolar
  | unipolar
deriving DecidableEq, Repr

/-- The display mode of a parameter (10_state R32); the code 3 is never held (93 I29). -/
inductive DMode where
  | bare
  | numeric
  | namedOption
deriving DecidableEq, Repr

/-- The CV assignment (10_state R19). -/
structure Cva where
  mode : CvMode
  target : Slot
  depth : BitVec 7
deriving DecidableEq, Repr

/-- The registers of one button (10_state R25 to R27). -/
structure ButtonRegs where
  shift : BitVec 8
  stage : Stage
  evt : ButtonEvent
  hold : Half
  t0Lo : Half
  t0Hi : Half
deriving DecidableEq, Repr

/-- The registers of one analog channel (10_state R28, R30). -/
structure ChannelRegs where
  accLo : Half
  accHi : Half
  offset : BitVec 12
deriving DecidableEq, Repr

/-- One entry P[s][i] of the parameter array (10_state R32). -/
structure Param where
  value : BitVec 8
  min : BitVec 8
  max : BitVec 8
  dmode : DMode
deriving DecidableEq, Repr

/-- The three latches, all locked (10_state R18). -/
abbrev locked : Vector Bool 3 := #v[false, false, false]

/-- The whole architectural state of the block (10_state R10). Read-as-zero bits and derived registers
have no storage; `Machine.readReg` puts them in. -/
structure Regs where
  /-- STATUS.ERR (R13). -/
  err : Bool
  /-- ERRCAUSE.CAUSE (R14); `none` is code 0. -/
  errCause : Option ErrorCause
  /-- ERRCMD_LO (R15). -/
  errCmdLo : Half
  /-- ERRCMD_HI (R15). -/
  errCmdHi : Half
  /-- RESULT (R16). -/
  result : Half
  /-- ACTIVE (R17). -/
  active : BitVec 5
  /-- LATCH[0..2] (R18). -/
  latch : Vector Bool 3
  /-- CVA (R19). -/
  cva : Cva
  /-- SCOPE_DELAY (R20). -/
  scopeDelay : Half
  /-- SCOPE_WR, an index of the ring (R21). -/
  scopeWr : Fin 100
  /-- SCOPE_AVG (R22). -/
  scopeAvg : Half
  /-- SCOPE_RMIN, two's complement (R22). -/
  scopeRmin : Half
  /-- SCOPE_RMAX, two's complement (R22). -/
  scopeRmax : Half
  /-- SCOPE_TRIG (R23). -/
  scopeTrig : BitVec 8
  /-- BTN_STATE, BTN_HOLD, BTN_T0_LO, BTN_T0_HI of each button (R25 to R27). -/
  btn : Vector ButtonRegs 2
  /-- CH_ACC_LO, CH_ACC_HI, CH_OFFSET of each channel (R28, R30). -/
  ch : Vector ChannelRegs 4
  /-- PWM[0..2] (R31). -/
  pwm : Vector Half 3
  /-- P[s][i] (R32); only the sets below N_SETS exist (log 8). -/
  params : Vector (Vector Param 3) 32
  /-- SCOPE_BUF[0..199] (R33). -/
  buf : Vector (BitVec 12) 200
deriving DecidableEq, Repr

/-- One register write event (00_scope R8, 20_memory R45): which register, and the value of its fields
from then on. One constructor per writable register of 10_state R35. -/
inductive Write where
  | status (err : Bool)
  | errCause (c : Option ErrorCause)
  | errCmdLo (v : Half)
  | errCmdHi (v : Half)
  | result (v : Half)
  | active (v : BitVec 5)
  | latch (v : Vector Bool 3)
  | cva (v : Cva)
  | scopeDelay (v : Half)
  | scopeWr (v : Fin 100)
  | scopeAvg (v : Half)
  | scopeRmin (v : Half)
  | scopeRmax (v : Half)
  | scopeTrig (v : BitVec 8)
  | btnState (b : Button) (evt : ButtonEvent) (stage : Stage) (shift : BitVec 8)
  | btnHold (b : Button) (v : Half)
  | btnT0Lo (b : Button) (v : Half)
  | btnT0Hi (b : Button) (v : Half)
  | accLo (c : Channel) (v : Half)
  | accHi (c : Channel) (v : Half)
  | chOffset (c : Channel) (v : BitVec 12)
  | pwm (i : Slot) (v : Half)
  | pval (set : BitVec 5) (i : Slot) (dmode : DMode) (value : BitVec 8)
  | prange (set : BitVec 5) (i : Slot) (max min : BitVec 8)
  | buf (j : Fin 200) (v : BitVec 12)
deriving DecidableEq, Repr

/-! ## The environment -/

/-- One source of draws: the values supplied and not yet drawn, oldest first, and how many draws have
been taken (log 3). -/
structure Source (α : Type) where
  queue : List α
  taken : Nat
deriving DecidableEq, Repr

/-- The environment's draws (00_scope R6): `AdcRaw(0..3)`, `Pin(0..1)` and `Now()`. -/
structure Env where
  adc : Vector (Source (BitVec 12)) 4
  pin : Vector (Source Bool) 2
  now : Source (BitVec 32)
deriving DecidableEq, Repr

/-! ## The state -/

/-- The state of the model: the block's registers, and beside them what is the model's own: the
instance's parameters, the environment's draws, the command words still to run, and the write events
of the latest step, newest first (log 1, 3, 4, 6). -/
structure State where
  cfg : Params
  regs : Regs
  env : Env
  port : List Word
  events : List Write
deriving DecidableEq, Repr

/-! ## Reset -/

/-- The reset value of a preset's slot (10_state R35). -/
def Param.resetPreset : Param := { value := 0, min := 0, max := 255, dmode := .bare }

/-- The reset values of the settings set: CV mode, CV target slot, CV depth (10_state R35). -/
def Param.resetSettings : Vector Param 3 :=
  #v[{ value := 0, min := 0, max := 2, dmode := .namedOption },
     { value := 0, min := 0, max := 2, dmode := .numeric },
     { value := 0, min := 0, max := 100, dmode := .numeric }]

/-- The registers after reset (10_state R35, 70_reset R132). -/
def Regs.reset (p : Params) : Regs where
  err := false
  errCause := none
  errCmdLo := 0
  errCmdHi := 0
  result := 0
  active := 0
  latch := locked
  cva := { mode := .off, target := 0, depth := 0 }
  scopeDelay := BitVec.ofNat 16 p.scanDelayReset.val
  scopeWr := 0
  scopeAvg := 0
  scopeRmin := 0
  scopeRmax := BitVec.ofNat 16 adcMax
  scopeTrig := BitVec.ofNat 8 trigDefault
  btn := Vector.replicate 2
    { shift := 0x00, stage := .idle, evt := .none, hold := BitVec.ofNat 16 holdDefaultMs,
      t0Lo := 0, t0Hi := 0 }
  ch := Vector.replicate 4 { accLo := 0, accHi := 0, offset := 0 }
  pwm := #v[0, 0, 0]
  params :=
    (Vector.replicate 32 (Vector.replicate 3 Param.resetPreset)).set p.totalPresets.val
      Param.resetSettings
  buf := Vector.replicate 200 0

/-- The environment before anything is supplied or drawn (DESIGN CHOICE, log 3). -/
def Env.reset : Env where
  adc := Vector.replicate 4 { queue := [], taken := 0 }
  pin := Vector.replicate 2 { queue := [], taken := 0 }
  now := { queue := [], taken := 0 }

/-- The state right after reset of an instance (70_reset R132, R133): it waits for the first command. -/
def State.resetOf (p : Params) : State where
  cfg := p
  regs := Regs.reset p
  env := Env.reset
  port := []
  events := []

/-- The state right after reset, of the instance `Config.params` (70_reset R132, log 2). -/
def State.reset : State := State.resetOf Config.params

end Sys2Proof.Machine
end

