-- ==== Sys2Proof/Machine/Operands.lean ====
section
/-! DEFINITION. The operand forms and the arithmetic of the commands: the codes of the enumerations,
the field-value checks of 30_encoding R68, and the integer operations of 45_system R118, on
mathematical integers (00_scope R7). -/

namespace Sys2Proof.Machine

/-! ## Codes (D13) -/

/-- ERRCAUSE.CAUSE (60_exceptions R119). -/
def causeCode : Option ErrorCause → Nat
  | none => 0
  | some .illegalOpcode => 1
  | some .reservedBits => 2
  | some .badIndex => 3
  | some .badEnum => 4
  | some .badRange => 5
  | some .badAddress => 6

/-- BTN_STATE.STAGE (10_state R25). -/
def stageCode : Stage → BitVec 2
  | .idle => 0
  | .waiting => 1
  | .held => 2

/-- BTN_STATE.EVT, and the value BTN_POLL gives (10_state R25, 41_button R79). -/
def eventCode : ButtonEvent → BitVec 3
  | .none => 0
  | .pressed => 1
  | .released => 2
  | .holding => 3
  | .heldConfirmed => 4

/-- CVA.MODE (10_state R19). -/
def cvModeCode : CvMode → BitVec 2
  | .off => 0
  | .bipolar => 1
  | .unipolar => 2

/-- PVAL.DMODE (10_state R32). -/
def dmodeCode : DMode → BitVec 2
  | .bare => 0
  | .numeric => 1
  | .namedOption => 2

/-! ## Field-value checks -/

/-- The slot a SLOT field names; 3 names none (30_encoding R68). -/
def slotOf (slot : BitVec 2) : Option Slot :=
  if h : slot.toNat < 3 then some ⟨slot.toNat, h⟩ else none

/-- The entry that SET and SLOT name; none where PB_SET_RANGE and PB_SET_VALUE raise BAD_INDEX
(42_takeover R85, R86). -/
def paramIndex (p : Params) (set : BitVec 5) (slot : BitVec 2) : Option (BitVec 5 × Slot) :=
  if set.toNat < p.nSets then (slotOf slot).map fun i => (set, i) else none

/-- The display mode a DMODE field names; 3 names none (30_encoding R68, 42_takeover R86). -/
def dmodeOf (dmode : BitVec 2) : Option DMode :=
  match dmode.toNat with
  | 0 => some .bare
  | 1 => some .numeric
  | 2 => some .namedOption
  | _ => none

/-! ## Integer operations (45_system R118) -/

/-- The value of two registers that hold one 32-bit quantity, low half first (20_memory R41). -/
def joinHalves (lo hi : Half) : BitVec 32 := hi ++ lo

/-- Bits [15:0] (20_memory R41). -/
def lowHalf (v : BitVec 32) : Half := v.extractLsb' 0 16

/-- Bits [31:16] (20_memory R41). -/
def highHalf (v : BitVec 32) : Half := v.extractLsb' 16 16

/-- clamp(v, lo, hi) (00_scope R7). -/
def clampInt (v lo hi : Int) : Int := min (max v lo) hi

/-- clamp of a stored value into a range (42_takeover R85, R86). -/
def clampByte (v lo hi : BitVec 8) : BitVec 8 :=
  BitVec.ofInt 8 (clampInt v.toNat lo.toNat hi.toNat)

/-- The block's integer map (00_scope R9); `/` is floor division for a positive divisor, and the map
is defined only for inHi > inLo (log 11). -/
def mapInt (x inLo inHi outLo outHi : Int) : Int :=
  (x - inLo) * (outHi - outLo) / (inHi - inLo) + outLo

/-- potMapped (42_takeover R90). -/
def potMapped (pot : Nat) (mn mx : BitVec 8) : BitVec 8 :=
  BitVec.ofInt 8
    (clampInt (mapInt pot 0 adcMax mn.toNat mx.toNat) mn.toNat mx.toNat)

/-- mapBack, the PWM level of a stored value (42_takeover R93). -/
def mapBack (p : Params) (v mn mx : BitVec 8) : Half :=
  BitVec.ofInt 16 (mapInt v.toNat mn.toNat mx.toNat 0 p.pwmMax.val)

/-- cvScaled (43_cv R101). -/
def cvScaled (cv d : Nat) : Nat := cv * d / 100

/-- cvMapped (43_cv R101). -/
def cvMapped (cv d : Nat) (mn mx : BitVec 8) : Int :=
  mapInt (cvScaled cv d) 0 adcMax mn.toNat mx.toNat

/-- halfPoint (43_cv R101). -/
def halfPoint (d : Nat) : Nat := adcMax * d / 100 / 2

/-- halfMapped (43_cv R101). -/
def halfMapped (d : Nat) (mn mx : BitVec 8) : Int :=
  mapInt (halfPoint d) 0 adcMax mn.toNat mx.toNat

/-- The value of the CV blend in each mode, from the takeover outcome `v`, the mapped knob `pm` and the
CV reading `cv` (43_cv R100, R102). -/
def cvBlendValue (mode : CvMode) (v pm mn mx : BitVec 8) (cv d : Nat) : BitVec 8 :=
  match mode with
  | .off => v
  | .bipolar =>
      BitVec.ofInt 8 (clampInt (pm.toNat + cvMapped cv d mn mx) mn.toNat mx.toNat)
  | .unipolar =>
      BitVec.ofInt 8
        (clampInt (pm.toNat + (cvMapped cv d mn mx - halfMapped d mn mx)) mn.toNat mx.toNat)

/-- The CV mode of a clamped MODE value (43_cv R98). -/
def cvModeOf (m : Nat) : CvMode :=
  match min m 2 with
  | 0 => .off
  | 1 => .bipolar
  | _ => .unipolar

/-- legalCva (43_cv R98). -/
def legalCva (m t d : Nat) : Cva where
  mode := cvModeOf m
  target := ⟨min t 2, by omega⟩
  depth := BitVec.ofNat 7 (min d depthMax)

/-- One step of the Q16 filter: the accumulator after a sample (40_analog R71). -/
def emaStep (p : Params) (acc sample : Nat) : Nat :=
  min ((acc * p.alphaQ16.val + sample * p.kQ16.val * 2 ^ 16) / 2 ^ 16) (adcMax * 2 ^ 16)

/-- The filtered value of an accumulator, rounded half up (10_state R29, 40_analog R71). -/
def filtered (acc : Nat) : BitVec 12 := BitVec.ofNat 12 (min adcMax ((acc + 2 ^ 15) / 2 ^ 16))

/-- round10 (44_scope R108): the nearest multiple of 10, halves toward plus infinity. -/
def round10 (v : Int) : Int := (v + 5) / rangeRound * rangeRound

end Sys2Proof.Machine
end

