-- ==== Sys2Proof/Machine/Flags.lean ====
section
/-! DEFINITION. The flags of the block and the conditions that set them: the takeover latches
(10_state R18), the LONG flag of the scan mode (R24), the hold test and the debounce state machine of
a button (41_button), and the trigger detector (44_scope R109). -/

namespace Sys2Proof.Machine

/-! ## Takeover latches -/

/-- LATCH after a slot's takeover step: bit `i` becomes 1 exactly when the mapped knob equals the
stored value (42_takeover R91). -/
def latchAfter (latch : Vector Bool 3) (i : Slot) (pm v : BitVec 8) : Vector Bool 3 :=
  if pm = v then latch.set i.val true else latch

/-! ## Scan mode -/

/-- SCOPE_MODE.LONG (10_state R24). -/
def isLong (p : Params) (scopeDelay : Half) : Bool :=
  decide (p.scanDelayThreshold.val ≤ scopeDelay.toNat)

/-- SCOPE_LEN (10_state R24). -/
def scopeLen (p : Params) (scopeDelay : Half) : Nat :=
  if isLong p scopeDelay then nLong else nFast

/-! ## Buttons -/

/-- The shift register after a poll: the newest level into bit 0 (41_button R77). -/
def shiftIn (shift : BitVec 8) (level : Bool) : BitVec 8 :=
  (shift <<< 1) ||| (BitVec.ofBool level).setWidth 8

/-- elapsed(now, t0) = (now − t0) mod 2^32 (41_button R82). -/
def elapsed (now t0 : BitVec 32) : Nat := (now - t0).toNat

/-- What one poll decides: the event, the hold stage and the hold-start timestamp. -/
structure PollOutcome where
  evt : ButtonEvent
  stage : Stage
  t0 : BitVec 32
deriving DecidableEq, Repr

/-- The held branch of a poll (41_button R79 step 2, R80). -/
def pollHeld (sh : BitVec 8) (t0 : BitVec 32) : PollOutcome :=
  if sh = 0x0F then ⟨.heldConfirmed, .idle, t0⟩
  else if sh = 0x00 then ⟨.holding, .held, t0⟩
  else ⟨.none, .held, t0⟩

/-- The edge branch of a poll, for a stage that is not Held (41_button R79 step 3, R81). -/
def pollEdge (sh : BitVec 8) (st : Stage) (t0 now : BitVec 32) (hold : Half) : PollOutcome :=
  if sh = 0xF0 then ⟨.pressed, .idle, t0⟩
  else if sh = 0x0F then ⟨.released, .idle, t0⟩
  else if sh = 0x00 then
    if st = .idle then ⟨.none, .waiting, now⟩
    else if hold.toNat ≤ elapsed now t0 then ⟨.none, .held, t0⟩
    else ⟨.none, st, t0⟩
  else ⟨.none, st, t0⟩

/-- What a poll decides, from the shifted register, the stage before it, the stored timestamp, the
time drawn and the hold duration (41_button R79). -/
def pollOutcome (sh : BitVec 8) (st : Stage) (t0 now : BitVec 32) (hold : Half) : PollOutcome :=
  if st = .held then pollHeld sh t0 else pollEdge sh st t0 now hold

/-! ## The scope's statistics and trigger -/

/-- The samples of the buffer as integers, entry 0 first. -/
def samples (buf : Vector (BitVec 12) 200) : List Nat := buf.toList.map BitVec.toNat

/-- The least sample (44_scope R108); samples are at most ADC_MAX (10_state R33). -/
def lowest (xs : List Nat) : Nat := xs.foldl min adcMax

/-- The greatest sample (44_scope R108). -/
def highest (xs : List Nat) : Nat := xs.foldl max 0

/-- SCOPE_AVG of a full buffer (44_scope R108). -/
def average (xs : List Nat) : Nat := xs.sum / nFast

/-- The trigger level L (44_scope R109). -/
def trigLevel (p : Params) (xs : List Nat) (avg : Half) : Nat :=
  match p.scopeTrigLevel with
  | .midrange => (lowest xs + highest xs) / 2
  | .average => avg.toNat

/-- A rising crossing of the level at index `i` (44_scope R109, D29). -/
def crossesAt (xs : List Nat) (level i : Nat) : Bool :=
  decide (xs.getD (i - 1) 0 < level) && decide (level ≤ xs.getD i 0)

/-- The trigger index: the first crossing in TRIG_FIRST..TRIG_LAST, else TRIG_DEFAULT (44_scope R109). -/
def trigIndex (xs : List Nat) (level : Nat) : Nat :=
  ((List.range' trigFirst (trigLast - trigFirst + 1)).find? (crossesAt xs level)).getD trigDefault

end Sys2Proof.Machine
end

