-- ==== Sys2Proof/Machine/Ops.lean ====
section
/-! DEFINITION. The named operations that every meaning is made of: a register write event, a read by
address, the environment's draws, the filter's read, recording an error, and taking the next command
word from the port. -/

namespace Sys2Proof.Machine

/-! ## Register writes -/

/-- The registers after one write event (00_scope R8: `x[NAME] <- v`). -/
def Regs.apply (r : Regs) : Write → Regs
  | .status e => { r with err := e }
  | .errCause c => { r with errCause := c }
  | .errCmdLo v => { r with errCmdLo := v }
  | .errCmdHi v => { r with errCmdHi := v }
  | .result v => { r with result := v }
  | .active v => { r with active := v }
  | .latch v => { r with latch := v }
  | .cva v => { r with cva := v }
  | .scopeDelay v => { r with scopeDelay := v }
  | .scopeWr v => { r with scopeWr := v }
  | .scopeAvg v => { r with scopeAvg := v }
  | .scopeRmin v => { r with scopeRmin := v }
  | .scopeRmax v => { r with scopeRmax := v }
  | .scopeTrig v => { r with scopeTrig := v }
  | .btnState b e st sh =>
      { r with btn := r.btn.set b.val { r.btn[b.val] with evt := e, stage := st, shift := sh } }
  | .btnHold b v => { r with btn := r.btn.set b.val { r.btn[b.val] with hold := v } }
  | .btnT0Lo b v => { r with btn := r.btn.set b.val { r.btn[b.val] with t0Lo := v } }
  | .btnT0Hi b v => { r with btn := r.btn.set b.val { r.btn[b.val] with t0Hi := v } }
  | .accLo c v => { r with ch := r.ch.set c.val { r.ch[c.val] with accLo := v } }
  | .accHi c v => { r with ch := r.ch.set c.val { r.ch[c.val] with accHi := v } }
  | .chOffset c v => { r with ch := r.ch.set c.val { r.ch[c.val] with offset := v } }
  | .pwm i v => { r with pwm := r.pwm.set i.val v }
  | .pval set i d v =>
      { r with params := r.params.set set.toNat (r.params[set.toNat].set i.val
          { r.params[set.toNat][i.val] with dmode := d, value := v }) }
  | .prange set i mx mn =>
      { r with params := r.params.set set.toNat (r.params[set.toNat].set i.val
          { r.params[set.toNat][i.val] with max := mx, min := mn }) }
  | .buf j v => { r with buf := r.buf.set j.val v }

/-- One register write event of the running command (20_memory R45): the register changes, and the
event joins the command's events. -/
def State.write (s : State) (w : Write) : State :=
  { s with regs := s.regs.apply w, events := w :: s.events }

/-! ## Reading registers -/

/-- P[set][i] (00_scope R8). -/
def Regs.param (r : Regs) (set : BitVec 5) (i : Slot) : Param := r.params[set.toNat][i.val]

/-- ACC[c], the two halves as one number (10_state R28). -/
def Regs.acc (r : Regs) (c : Channel) : Nat := (joinHalves r.ch[c.val].accLo r.ch[c.val].accHi).toNat

/-- T0[b], the two halves as one timestamp (10_state R27). -/
def Regs.t0 (r : Regs) (b : Button) : BitVec 32 := joinHalves r.btn[b.val].t0Lo r.btn[b.val].t0Hi

/-- The registers of the register space, the derived ones among them (20_memory R38). -/
inductive Reg where
  | status
  | errCause
  | errCmdLo
  | errCmdHi
  | result
  | active
  | latch
  | cva
  | scopeDelay
  | scopeWr
  | scopeAvg
  | scopeRmin
  | scopeRmax
  | scopeTrig
  | scopeMode
  | scopeLen
  | btnState (b : Button)
  | btnHold (b : Button)
  | btnT0Lo (b : Button)
  | btnT0Hi (b : Button)
  | chVal (c : Channel)
  | accLo (c : Channel)
  | accHi (c : Channel)
  | chOffset (c : Channel)
  | pwm (i : Slot)
  | pval (set : BitVec 5) (i : Slot)
  | prange (set : BitVec 5) (i : Slot)
  | buf (j : Fin 200)
deriving DecidableEq, Repr

/-- The registers at addresses 0x0000..0x000F, in order (20_memory R38). -/
def lowRegs : List Reg :=
  [.status, .errCause, .errCmdLo, .errCmdHi, .result, .active, .latch, .cva, .scopeDelay, .scopeWr,
   .scopeAvg, .scopeRmin, .scopeRmax, .scopeTrig, .scopeMode, .scopeLen]

/-- The register of the parameter region at offset `a` from 0x1000: set a / 8, slot a % 8 / 2, PVAL at
the even and PRANGE at the odd address; there is no slot 3 (20_memory R38). -/
def paramRegAt (a : Nat) : Option Reg :=
  if h : a % 8 / 2 < 3 then
    if a % 2 = 0 then some (.pval (BitVec.ofNat 5 (a / 8)) ⟨a % 8 / 2, h⟩)
    else some (.prange (BitVec.ofNat 5 (a / 8)) ⟨a % 8 / 2, h⟩)
  else none

/-- The register at a word address; none where the address is unmapped (20_memory R38). -/
def regAt (p : Params) (addr : BitVec 16) : Option Reg :=
  let a := addr.toNat
  if a < 0x0010 then lowRegs[a]?
  else if a < 0x0012 then some (.btnState (Fin.ofNat 2 (a - 0x0010)))
  else if a < 0x0014 then some (.btnHold (Fin.ofNat 2 (a - 0x0012)))
  else if a < 0x0018 then
    if (a - 0x0014) % 2 = 0 then some (.btnT0Lo (Fin.ofNat 2 ((a - 0x0014) / 2)))
    else some (.btnT0Hi (Fin.ofNat 2 ((a - 0x0014) / 2)))
  else if a < 0x0020 then none
  else if a < 0x0024 then some (.chVal (Fin.ofNat 4 (a - 0x0020)))
  else if a < 0x0028 then some (.accLo (Fin.ofNat 4 (a - 0x0024)))
  else if a < 0x002C then some (.accHi (Fin.ofNat 4 (a - 0x0028)))
  else if a < 0x0030 then some (.chOffset (Fin.ofNat 4 (a - 0x002C)))
  else if a < 0x0033 then some (.pwm (Fin.ofNat 3 (a - 0x0030)))
  else if a < 0x1000 then none
  else if a < 0x1000 + 8 * p.nSets then paramRegAt (a - 0x1000)
  else if a < 0x2000 then none
  else if a < 0x20C8 then some (.buf (Fin.ofNat 200 (a - 0x2000)))
  else none

/-- The 16-bit value of a register: its fields in their places, zeros elsewhere (10_state R13 to R33),
and for a derived register its function of the other state (R24, R29). -/
def readReg (p : Params) (r : Regs) : Reg → Half
  | .status => (BitVec.ofBool r.err).setWidth 16
  | .errCause => BitVec.ofNat 16 (causeCode r.errCause)
  | .errCmdLo => r.errCmdLo
  | .errCmdHi => r.errCmdHi
  | .result => r.result
  | .active => r.active.setWidth 16
  | .latch =>
      (0#13 ++ BitVec.ofBool r.latch[2] ++ BitVec.ofBool r.latch[1] ++ BitVec.ofBool r.latch[0] :
        BitVec 16)
  | .cva =>
      (0#5 ++ r.cva.depth ++ BitVec.ofNat 2 r.cva.target.val ++ cvModeCode r.cva.mode : BitVec 16)
  | .scopeDelay => r.scopeDelay
  | .scopeWr => BitVec.ofNat 16 r.scopeWr.val
  | .scopeAvg => r.scopeAvg
  | .scopeRmin => r.scopeRmin
  | .scopeRmax => r.scopeRmax
  | .scopeTrig => r.scopeTrig.setWidth 16
  | .scopeMode => (BitVec.ofBool (isLong p r.scopeDelay)).setWidth 16
  | .scopeLen => BitVec.ofNat 16 (scopeLen p r.scopeDelay)
  | .btnState b =>
      (0#3 ++ eventCode r.btn[b.val].evt ++ stageCode r.btn[b.val].stage ++ r.btn[b.val].shift :
        BitVec 16)
  | .btnHold b => r.btn[b.val].hold
  | .btnT0Lo b => r.btn[b.val].t0Lo
  | .btnT0Hi b => r.btn[b.val].t0Hi
  | .chVal c => (filtered (r.acc c)).setWidth 16
  | .accLo c => r.ch[c.val].accLo
  | .accHi c => r.ch[c.val].accHi
  | .chOffset c => r.ch[c.val].offset.setWidth 16
  | .pwm i => r.pwm[i.val]
  | .pval set i => (0#6 ++ dmodeCode (r.param set i).dmode ++ (r.param set i).value : BitVec 16)
  | .prange set i => ((r.param set i).max ++ (r.param set i).min : BitVec 16)
  | .buf j => r.buf[j.val].setWidth 16

/-- MemRead(addr, 1): the register at a mapped address, 0x0000 at an unmapped one (20_memory R39). -/
def memRead (p : Params) (r : Regs) (addr : BitVec 16) : Half :=
  match regAt p addr with
  | some g => readReg p r g
  | none => 0

/-! ## Draws -/

/-- Draw number `k` from now of a source: the k-th supplied value, and where none has been supplied
the free value of that draw (00_scope R6, log 3). -/
def Source.peek {α : Type} (src : Source α) (free : Nat → α) (k : Nat) : α :=
  (src.queue[k]?).getD (free (src.taken + k))

/-- A source after `n` draws. -/
def Source.advance {α : Type} (src : Source α) (n : Nat) : Source α :=
  { queue := src.queue.drop n, taken := src.taken + n }

/-- The k-th next draw of AdcRaw(c), in [0, ADC_MAX] (00_scope R6). -/
def State.adcDraw (s : State) (c : Channel) (k : Nat) : BitVec 12 :=
  s.env.adc[c.val].peek (Config.freeAdc c.val) k

/-- The next draw of Pin(b) (00_scope R6). -/
def State.pinDraw (s : State) (b : Button) : Bool := s.env.pin[b.val].peek (Config.freePin b.val) 0

/-- The next draw of Now() (00_scope R6, 60_exceptions R127). -/
def State.nowDraw (s : State) : BitVec 32 := s.env.now.peek Config.freeNow 0

/-- The state after `n` draws of AdcRaw(c) have been taken. -/
def State.takeAdc (s : State) (c : Channel) (n : Nat) : State :=
  { s with env := { s.env with adc := s.env.adc.set c.val (s.env.adc[c.val].advance n) } }

/-- The state after one draw of Pin(b) and one of Now() have been taken (41_button R79). -/
def State.takePoll (s : State) (b : Button) : State :=
  { s with env := { s.env with
      pin := s.env.pin.set b.val (s.env.pin[b.val].advance 1), now := s.env.now.advance 1 } }

/-! ## The filter's read -/

/-- CH3, the CV input (00_scope R5). -/
abbrev cvCh : Channel := 3

/-- The sample of a read: the average of 16 draws less the channel's offset floor, clamped at 0
(40_analog R71). -/
def chSample (s : State) (c : Channel) : Nat :=
  ((List.range nRaw).map fun k => (s.adcDraw c k).toNat).sum / 2 ^ rawShift -
    s.regs.ch[c.val].offset.toNat

/-- ACC[c] after a read (40_analog R71). -/
def chAcc (s : State) (c : Channel) : Nat := emaStep s.cfg (s.regs.acc c) (chSample s c)

/-- The value a read returns: the filtered value after the update, or the sample (40_analog R71). -/
def chValue (s : State) (c : Channel) (smooth : Bool) : BitVec 12 :=
  if smooth then filtered (chAcc s c) else BitVec.ofNat 12 (chSample s c)

/-- The state after a read: 16 draws taken, then ACC written low half first (40_analog R71). -/
def chUpdate (s : State) (c : Channel) : State :=
  let acc := BitVec.ofNat 32 (chAcc s c)
  ((s.takeAdc c nRaw).write (.accLo c (lowHalf acc))).write (.accHi c (highHalf acc))

/-! ## Errors and results -/

/-- Recording an error, the block's whole trap entry (60_exceptions R121, R122): cause and word on the
first error only, ERR last. The word is that of the command that raised. -/
def State.raise (s : State) (cause : ErrorCause) (w : Word) : State :=
  if s.regs.err then s.write (.status true)
  else
    (((s.write (.errCause (some cause))).write (.errCmdLo (lowHalf w))).write
      (.errCmdHi (highHalf w))).write (.status true)

/-- Acknowledging an error, the counterpart of `raise` (45_system R115, 60_exceptions R123). -/
def State.clearError (s : State) : State :=
  (((s.write (.status false)).write (.errCause none)).write (.errCmdLo 0)).write (.errCmdHi 0)

/-- result(v): RESULT is written and driven on the data output (00_scope R8, log 13). -/
def State.produce (s : State) (v : Half) : State := s.write (.result v)

/-! ## The command port -/

/-- The next command word, and the state in which it runs: the word taken from the port and no write
event yet (45_system R116). none where no command has been issued. -/
def fetch (s : State) : Option (Word × State) :=
  match s.port with
  | [] => none
  | w :: rest => some (w, { s with port := rest, events := [] })

/-- The block waiting for a command: nothing changes, and no write event occurs (70_reset R133). -/
def State.idle (s : State) : State := { s with events := [] }

/-- The state with a command word put before those still on the port, so that the next step runs it. -/
def State.putNext (s : State) (w : Word) : State := { s with port := w :: s.port }

/-- The control agent issues a command word: it joins the port behind those issued before it
(45_system R116). -/
def State.issue (s : State) (w : Word) : State := { s with port := s.port ++ [w] }

end Sys2Proof.Machine
end

