-- ==== Sys2Proof/Machine/Analog.lean ====
section
/-! DEFINITION. The analog filter commands CH_INIT and CH_READ (40_analog). -/

namespace Sys2Proof.Machine

/-- CH_INIT: the channel's offset floor is set and its filter restarts at 0 (40_analog R73). -/
def execChInit (c : Channel) (offset : BitVec 12) (s : State) : Host.Outcome State Fault Refusal :=
  .next (((s.write (.chOffset c offset)).write (.accLo c 0)).write (.accHi c 0))

/-- CH_READ: one read of the filter, its value in RESULT (40_analog R74). -/
def execChRead (c : Channel) (smooth : Bool) (s : State) : Host.Outcome State Fault Refusal :=
  .next ((chUpdate s c).produce ((chValue s c smooth).setWidth 16))

end Sys2Proof.Machine
end

