-- ==== Sys2Proof/Machine/Button.lean ====
section
/-! DEFINITION. The debounced button commands BTN_INIT and BTN_POLL (41_button). -/

namespace Sys2Proof.Machine

/-- BTN_INIT: hold duration, timestamp 0, and the state register cleared (41_button R78). -/
def execBtnInit (b : Button) (hold : BitVec 16) (s : State) : Host.Outcome State Fault Refusal :=
  .next ((((s.write (.btnHold b hold)).write (.btnT0Lo b 0)).write (.btnT0Hi b 0)).write
    (.btnState b .none .idle 0x00))

/-- The shift register of a button after the level of its next draw is shifted in (41_button R79). -/
def polledShift (s : State) (b : Button) : BitVec 8 :=
  shiftIn s.regs.btn[b.val].shift (s.pinDraw b)

/-- What the next poll of a button decides (41_button R79). -/
def polledOutcome (s : State) (b : Button) : PollOutcome :=
  pollOutcome (polledShift s b) s.regs.btn[b.val].stage (s.regs.t0 b) s.nowDraw
    s.regs.btn[b.val].hold

/-- The timestamp's two registers, written only where the poll changed it (41_button R79). -/
def State.writeT0 (s : State) (b : Button) (t0 : BitVec 32) : State :=
  if t0 = s.regs.t0 b then s
  else (s.write (.btnT0Lo b (lowHalf t0))).write (.btnT0Hi b (highHalf t0))

/-- BTN_POLL: one debounce poll, its event in BTN_STATE and in RESULT (41_button R79 to R82). -/
def execBtnPoll (b : Button) (s : State) : Host.Outcome State Fault Refusal :=
  let o := polledOutcome s b
  .next ((((s.takePoll b).writeT0 b o.t0).write
    (.btnState b o.evt o.stage (polledShift s b))).produce ((eventCode o.evt).setWidth 16))

end Sys2Proof.Machine
end

