-- ==== Sys2Proof/Machine/Cv.lean ====
section
/-! DEFINITION. The CV modulation blender: CVA_WRITE, the CV assignment loaded from the settings set,
and the blend that PB_UPDATE runs for the target slot (43_cv). -/

namespace Sys2Proof.Machine

/-- CVA_WRITE: the CV assignment takes the operands, each clamped to its legal range (43_cv R97, R98). -/
def execCvaWrite (depth : BitVec 7) (target mode : BitVec 2) (s : State) :
    Host.Outcome State Fault Refusal :=
  .next (s.write (.cva (legalCva mode.toNat target.toNat depth.toNat)))

/-- CvaFromSettings(): the CV assignment takes the three values of the settings set (43_cv R99). -/
def cvaFromSettings (s : State) : State :=
  s.write (.cva (legalCva (s.regs.param s.cfg.settingsSet 0).value.toNat
    (s.regs.param s.cfg.settingsSet 1).value.toNat
    (s.regs.param s.cfg.settingsSet 2).value.toNat))

/-- When the CV blend runs for slot `i`: on a preset, for the target slot, with a depth above 0
(42_takeover R89, 43_cv R100). -/
def blends (settings : Bool) (cva : Cva) (i : Slot) : Bool :=
  !settings && decide (i = cva.target) && decide (0 < cva.depth.toNat)

/-- CvBlend(v, pm, mn, mx): the slot's value after the blend (43_cv R100, R101). -/
def blendedValue (s : State) (v pm mn mx : BitVec 8) : BitVec 8 :=
  cvBlendValue s.regs.cva.mode v pm mn mx (chValue s cvCh true).toNat s.regs.cva.depth.toNat

end Sys2Proof.Machine
end

