-- ==== Sys2Proof/Machine/Scope.lean ====
section
/-! DEFINITION. The oscilloscope commands SCOPE_HALVE, SCOPE_DOUBLE and SCOPE_ACQ (44_scope). -/

namespace Sys2Proof.Machine

/-- SCOPE_HALVE: the delay halved, not below SCAN_DELAY_MIN, and the ring restarted (44_scope R104). -/
def execScopeHalve (s : State) : Host.Outcome State Fault Refusal :=
  .next ((s.write (.scopeDelay
    (BitVec.ofNat 16 (max (s.regs.scopeDelay.toNat / 2) s.cfg.scanDelayMin.val)))).write (.scopeWr 0))

/-- SCOPE_DOUBLE: the delay doubled, not above SCAN_DELAY_MAX, and the ring restarted (44_scope R105). -/
def execScopeDouble (s : State) : Host.Outcome State Fault Refusal :=
  .next ((s.write (.scopeDelay
    (BitVec.ofNat 16 (min (2 * s.regs.scopeDelay.toNat) s.cfg.scanDelayMax.val)))).write (.scopeWr 0))

/-- B[j] <- ChRead(CV_CH, SCOPE_SMOOTH), one sample into one entry (44_scope R107, R110). -/
def sampleInto (s : State) (j : Fin 200) : State :=
  (chUpdate s cvCh).write (.buf j (chValue s cvCh s.cfg.scopeSmooth))

/-- FastAcq part 1: the whole buffer, entry 0 first (44_scope R107). -/
def fastSamples (s : State) : State := (List.finRange 200).foldl sampleInto s

/-- FastAcq part 2: average and display range of the new buffer (44_scope R108). -/
def fastStats (s : State) : State :=
  let xs := samples s.regs.buf
  ((s.write (.scopeAvg (BitVec.ofNat 16 (average xs)))).write
    (.scopeRmin (BitVec.ofInt 16 (round10 ((lowest xs : Int) - rangeMargin))))).write
    (.scopeRmax (BitVec.ofInt 16 (round10 ((highest xs : Int) + rangeMargin))))

/-- FastAcq part 3: the trigger index, and the ring restarted (44_scope R109). -/
def fastTrigger (s : State) : State :=
  let xs := samples s.regs.buf
  (s.write (.scopeTrig (BitVec.ofNat 8 (trigIndex xs (trigLevel s.cfg xs s.regs.scopeAvg))))).write
    (.scopeWr 0)

/-- FastAcq (44_scope R107 to R109). -/
def fastAcq (s : State) : State := fastTrigger (fastStats (fastSamples s))

/-- The ring index after a sample (44_scope R110): back to 0 at N_LONG. -/
def nextWr (w : Fin 100) : Fin 100 := if h : w.val + 1 < 100 then ⟨w.val + 1, h⟩ else 0

/-- The buffer entry of a ring index (44_scope R110). -/
def ringEntry (w : Fin 100) : Fin 200 := ⟨w.val, by omega⟩

/-- LongAcq: one sample into the ring, the range fixed to the ADC span, the trigger fixed
(44_scope R110). -/
def longAcq (s : State) : State :=
  ((((sampleInto s (ringEntry s.regs.scopeWr)).write (.scopeWr (nextWr s.regs.scopeWr))).write
    (.scopeRmin 0)).write (.scopeRmax (BitVec.ofNat 16 adcMax))).write
    (.scopeTrig (BitVec.ofNat 8 trigDefault))

/-- SCOPE_ACQ: a fast scan where the delay is below the threshold, one ring sample otherwise
(44_scope R106). -/
def execScopeAcq (s : State) : Host.Outcome State Fault Refusal :=
  if s.regs.scopeDelay.toNat < s.cfg.scanDelayThreshold.val then .next (fastAcq s)
  else .next (longAcq s)

end Sys2Proof.Machine
end

