-- ==== Sys2Proof/Machine/System.lean ====
section
/-! DEFINITION. The system commands NOP, REG_READ and ERR_CLEAR (45_system). -/

namespace Sys2Proof.Machine

/-- NOP: no register is written and RESULT is unchanged (45_system R113). -/
def execNop (s : State) : Host.Outcome State Fault Refusal := .next s

/-- REG_READ: RESULT takes the register at ADDR, and an unmapped ADDR raises BAD_ADDRESS
(45_system R114). -/
def execRegRead (addr : BitVec 16) (s : State) : Host.Outcome State Fault Refusal :=
  match regAt s.cfg addr with
  | none => .next (s.raise .badAddress (encode (.regRead addr)))
  | some g => .next (s.produce (readReg s.cfg s.regs g))

/-- ERR_CLEAR: the four error registers become 0, STATUS first (45_system R115). -/
def execErrClear (s : State) : Host.Outcome State Fault Refusal := .next s.clearError

end Sys2Proof.Machine
end

