-- ==== Sys2Proof/Machine/Takeover.lean ====
section
/-! DEFINITION. The parameter bank and soft takeover: PB_SET_RANGE, PB_SET_VALUE, PB_SELECT, PB_REARM
and PB_UPDATE (42_takeover). -/

namespace Sys2Proof.Machine

/-- PB_SET_RANGE: the entry's range, and its value clamped into it; an entry that does not exist
raises BAD_INDEX and an empty range BAD_RANGE (42_takeover R85). -/
def execPbSetRange (set : BitVec 5) (slot : BitVec 2) (max min : BitVec 8) (s : State) :
    Host.Outcome State Fault Refusal :=
  match paramIndex s.cfg set slot with
  | none => .next (s.raise .badIndex (encode (.pbSetRange set slot max min)))
  | some (k, i) =>
    if max.toNat ≤ min.toNat then
      .next (s.raise .badRange (encode (.pbSetRange set slot max min)))
    else
      let p := s.regs.param k i
      .next ((s.write (.prange k i max min)).write (.pval k i p.dmode (clampByte p.value min max)))

/-- PB_SET_VALUE: the entry's display mode and its value, clamped into the range; an entry that does
not exist raises BAD_INDEX and DMODE 3 raises BAD_ENUM (42_takeover R86). -/
def execPbSetValue (set : BitVec 5) (slot : BitVec 2) (dmode : BitVec 2) (value : BitVec 8)
    (s : State) : Host.Outcome State Fault Refusal :=
  match paramIndex s.cfg set slot with
  | none => .next (s.raise .badIndex (encode (.pbSetValue set slot dmode value)))
  | some (k, i) =>
    match dmodeOf dmode with
    | none => .next (s.raise .badEnum (encode (.pbSetValue set slot dmode value)))
    | some d =>
      let p := s.regs.param k i
      .next (s.write (.pval k i d (clampByte value p.min p.max)))

/-- PB_SELECT: the preset becomes active and the latches are cleared; a preset that does not exist
raises BAD_INDEX (42_takeover R87). -/
def execPbSelect (preset : BitVec 5) (s : State) : Host.Outcome State Fault Refusal :=
  if s.cfg.totalPresets.val ≤ preset.toNat then
    .next (s.raise .badIndex (encode (.pbSelect preset)))
  else .next ((s.write (.active preset)).write (.latch locked))

/-- PB_REARM: the latches are cleared (42_takeover R88). -/
def execPbRearm (s : State) : Host.Outcome State Fault Refusal := .next (s.write (.latch locked))

/-! ## PB_UPDATE -/

/-- The potentiometer of a slot: CH0..CH2 (00_scope R3, 42_takeover R89). -/
def potOf (i : Slot) : Channel := ⟨i.val, by omega⟩

/-- LATCH[i] <- 1 where the mapped knob equals the stored value (42_takeover R91); no write event
otherwise. -/
def takeoverLatch (s : State) (i : Slot) (pm v : BitVec 8) : State :=
  if pm = v then s.write (.latch (latchAfter s.regs.latch i pm v)) else s

/-- One slot's step of PB_UPDATE on set `set` (42_takeover R89 to R92, 43_cv R100): read the knob, map
it, latch, follow, blend, and write the value. -/
def slotStep (settings : Bool) (set : BitVec 5) (s : State) (i : Slot) : State :=
  let pot := chValue s (potOf i) true
  let s1 := chUpdate s (potOf i)
  let p := s1.regs.param set i
  let pm := potMapped pot.toNat p.min p.max
  let s2 := takeoverLatch s1 i pm p.value
  let v := if s2.regs.latch[i.val] then pm else p.value
  if blends settings s2.regs.cva i then
    (chUpdate s2 cvCh).write (.pval set i p.dmode (blendedValue s2 v pm p.min p.max))
  else s2.write (.pval set i p.dmode v)

/-- The PWM level of a slot: the active preset's stored value mapped back (42_takeover R93). -/
def pwmLevel (s : State) (i : Slot) : Half :=
  let p := s.regs.param s.regs.active i
  mapBack s.cfg p.value p.min p.max

/-- The three PWM registers, slot 0 first (42_takeover R89, R93). -/
def writePwm (s : State) : State :=
  ((s.write (.pwm 0 (pwmLevel s 0))).write (.pwm 1 (pwmLevel s 1))).write (.pwm 2 (pwmLevel s 2))

/-- The set PB_UPDATE runs on (42_takeover R89, 30_encoding R61). -/
def updatedSet (settings : Bool) (s : State) : BitVec 5 :=
  if settings then s.cfg.settingsSet else s.regs.active

/-- The three slots' steps, slot 0 first (42_takeover R89). -/
def slotSteps (settings : Bool) (s : State) : State :=
  let set := updatedSet settings s
  slotStep settings set (slotStep settings set (slotStep settings set s 0) 1) 2

/-- PB_UPDATE: soft takeover and CV blend on one set, the CV assignment where that set is the settings
set, and the PWM outputs of the active preset (42_takeover R89 to R94). -/
def execPbUpdate (settings : Bool) (s : State) : Host.Outcome State Fault Refusal :=
  let s1 := slotSteps settings s
  .next (writePwm (if settings then cvaFromSettings s1 else s1))

end Sys2Proof.Machine
end

