-- ==== Sys2Proof/Machine/Dispatch.lean ====
section
/-! DEFINITION. One arm per command, each the direct call of its meaning. -/

namespace Sys2Proof.Machine

def exec (i : Instr) (s : State) : Host.Outcome State Fault Refusal :=
  match i with
  | .nop => Sys2Proof.Machine.execNop s
  | .chInit c offset => Sys2Proof.Machine.execChInit c offset s
  | .chRead c smooth => Sys2Proof.Machine.execChRead c smooth s
  | .btnInit b hold => Sys2Proof.Machine.execBtnInit b hold s
  | .btnPoll b => Sys2Proof.Machine.execBtnPoll b s
  | .pbSetRange set slot max min => Sys2Proof.Machine.execPbSetRange set slot max min s
  | .pbSetValue set slot dmode value => Sys2Proof.Machine.execPbSetValue set slot dmode value s
  | .pbSelect preset => Sys2Proof.Machine.execPbSelect preset s
  | .pbRearm => Sys2Proof.Machine.execPbRearm s
  | .pbUpdate settings => Sys2Proof.Machine.execPbUpdate settings s
  | .cvaWrite depth target mode => Sys2Proof.Machine.execCvaWrite depth target mode s
  | .scopeHalve => Sys2Proof.Machine.execScopeHalve s
  | .scopeDouble => Sys2Proof.Machine.execScopeDouble s
  | .scopeAcq => Sys2Proof.Machine.execScopeAcq s
  | .regRead addr => Sys2Proof.Machine.execRegRead addr s
  | .errClear => Sys2Proof.Machine.execErrClear s

end Sys2Proof.Machine
end

