-- ==== Sys2Proof/Machine/Step.lean ====
section
/-! DEFINITION. One step of the control agent: the next command word of the port, run whole
(45_system R116), and the placing of a word where the next step takes it. -/

namespace Sys2Proof.Machine

/-- One step: the next command word runs, an illegal word is recorded as an error (30_encoding R66,
60_exceptions R121), and with no word on the port the block waits: no register changes and no write
event occurs (70_reset R133, log 4). -/
def step (s : State) : Host.Outcome State Fault Refusal :=
  match fetch s with
  | none => .next s.idle
  | some (w, s1) =>
    match decode w with
    | .ok i => exec i s1
    | .error cause => .next (s1.raise cause w)

/-- `s` with the opcode-table word `w` of `nbits` bits put where the next step takes its command, in
front of every word still on the port (log 5). -/
def State.withFetchWord (s : State) (nbits w : Nat) : State :=
  s.putNext (BitVec.ofNat 32 (w % 2 ^ nbits))

end Sys2Proof.Machine
end

