-- ==== Sys2Proof/Machine/Display.lean ====
section
/-! DEFINITION. The other agents beside the control agent's step (00_scope R6): the display agent's
reads between the write events of a command (20_memory R39, R45, R46), the environment's supply of
draws, and the platform's reset input (70_reset R132). `step` runs a command as one step; here the
same command's write events happen one by one, so that what the display sees is all that R46 allows
(log 6). -/

namespace Sys2Proof.Machine

/-- A display-port read (20_memory R39). -/
def displayRead (s : State) (addr : BitVec 16) : Half := memRead s.cfg s.regs addr

/-- The write events of the latest step in the order they happened (20_memory R45). -/
def State.trace (s : State) : List Write := s.events.reverse

/-- The registers after a sequence of write events, the first event first. -/
def Regs.applyAll (r : Regs) (ws : List Write) : Regs := ws.foldl Regs.apply r

/-- The value a write event drives on the command port's data output (00_scope R8, log 13). -/
def Write.drives : Write → Option Half
  | .result v => some v
  | _ => none

/-- What the latest step drove on the data output, if anything. -/
def dataOutput (s : State) : Option Half := s.events.findSome? Write.drives

/-- What a byte-serial link carries of the latest step's data output (20_memory R41). -/
def dataOutputBytes (s : State) : List Byte :=
  match dataOutput s with
  | some v => bytesOfHalf v
  | none => []

/-- A display-port read as a byte-serial link carries it (20_memory R39, R41). -/
def displayReadBytes (s : State) (addr : BitVec 16) : List Byte := bytesOfHalf (displayRead s addr)

/-! ## The environment and the reset input -/

/-- The environment supplies a value for a later draw of AdcRaw(c) (00_scope R6, log 3). -/
def State.supplyAdc (s : State) (c : Channel) (v : BitVec 12) : State :=
  { s with env := { s.env with
      adc := s.env.adc.set c.val ⟨s.env.adc[c.val].queue ++ [v], s.env.adc[c.val].taken⟩ } }

/-- The environment supplies a level for a later draw of Pin(b) (00_scope R6, log 3). -/
def State.supplyPin (s : State) (b : Button) (v : Bool) : State :=
  { s with env := { s.env with
      pin := s.env.pin.set b.val ⟨s.env.pin[b.val].queue ++ [v], s.env.pin[b.val].taken⟩ } }

/-- The environment supplies a count for a later draw of Now() (00_scope R6, log 3). -/
def State.supplyNow (s : State) (v : BitVec 32) : State :=
  { s with env := { s.env with now := { s.env.now with queue := s.env.now.queue ++ [v] } } }

/-- The reset input is asserted: every register takes its reset value (70_reset R132, log 14). -/
def State.assertReset (s : State) : State :=
  { s with regs := Regs.reset s.cfg, events := [] }

/-! ## The interleaving of the agents -/

/-- The block while its agents take turns: the registers as they stand now, and the write events of the
running command that have not happened yet, the next one first. -/
structure Interleaved where
  block : State
  pending : List Write
deriving DecidableEq, Repr

/-- One event of one agent (20_memory R45). -/
inductive AgentMove where
  /-- The control agent: the running command's next write event, or the start of the next command. -/
  | control
  /-- The control agent issues a command word. -/
  | issue (w : Word)
  /-- The display agent reads one register. -/
  | display (addr : BitVec 16)
  /-- The environment supplies a raw conversion. -/
  | adc (c : Channel) (v : BitVec 12)
  /-- The environment supplies a pin level. -/
  | pin (b : Button) (v : Bool)
  /-- The environment supplies a millisecond count. -/
  | now (v : BitVec 32)
  /-- The platform asserts the reset input. -/
  | reset
deriving DecidableEq, Repr

/-- The control agent's move: the next write event of the running command; when there is none left,
the next command starts, its write events pending and no register changed yet (20_memory R45, R46,
45_system R116). -/
def Interleaved.control (y : Interleaved) : Interleaved :=
  match y.pending with
  | w :: ws => { block := { y.block with regs := y.block.regs.apply w }, pending := ws }
  | [] =>
    match step y.block with
    | .next t => { block := { t with regs := y.block.regs }, pending := t.trace }
    | .fault _ => y
    | .refused _ => y

/-- One event of one agent, and what the display agent read if it is a display read. -/
def Interleaved.move (y : Interleaved) : AgentMove → Interleaved × Option Half
  | .control => (y.control, none)
  | .issue w => ({ y with block := y.block.issue w }, none)
  | .display addr => (y, some (displayRead y.block addr))
  | .adc c v => ({ y with block := y.block.supplyAdc c v }, none)
  | .pin b v => ({ y with block := y.block.supplyPin b v }, none)
  | .now v => ({ y with block := y.block.supplyNow v }, none)
  | .reset => ({ block := y.block.assertReset, pending := [] }, none)

/-- `k` moves of the control agent. -/
def Interleaved.controls : Nat → Interleaved → Interleaved
  | 0, y => y
  | k + 1, y => Interleaved.controls k y.control

end Sys2Proof.Machine
end

