-- ==== Sys2Proof/Safety.lean ====
section
/-! DEFINITION. What counts as safe on the block: the invariants of 10_state R34, the legal value of
each single register and register write (70_reset R140), which commands may write which register (the
column "written by" of 10_state R35), and the spec's tables that statements compare the model with: the
should-be-zero bits of each format (30_encoding R54), the address of each register (10_state R35) and
the order of PB_UPDATE's write events (42_takeover R89). The parts of R34 about fields whose types hold
legal values only (CVA.MODE, CVA.TARGET, SCOPE_WR, STAGE, EVT, DMODE, B[j], ERRCAUSE) hold of every
state. -/

namespace Sys2Proof.Machine

/-- A parameter entry is legal (10_state R32, R34). -/
abbrev Param.Legal (q : Param) : Prop :=
  q.min.toNat < q.max.toNat ∧ q.min.toNat ≤ q.value.toNat ∧ q.value.toNat ≤ q.max.toNat

/-- The invariants of the registers (10_state R34). -/
abbrev Regs.Inv (p : Params) (r : Regs) : Prop :=
  r.active.toNat < p.totalPresets.val ∧
  r.cva.depth.toNat ≤ 100 ∧
  (∀ set : BitVec 5, set.toNat < p.nSets → ∀ i : Slot, (r.param set i).Legal) ∧
  (p.scanDelayMin.val ≤ r.scopeDelay.toNat ∧ r.scopeDelay.toNat ≤ p.scanDelayMax.val) ∧
  (9 ≤ r.scopeTrig.toNat ∧ r.scopeTrig.toNat ≤ 109) ∧
  (∀ c : Channel, r.acc c ≤ 4095 * 2 ^ 16) ∧
  (∀ i : Slot, (r.pwm[i.val]).toNat ≤ p.pwmMax.val) ∧
  (r.err = false → r.errCause = none ∧ r.errCmdLo = 0 ∧ r.errCmdHi = 0)

/-- The invariant of the machine: a legal instance (00_scope R5) and legal registers (10_state R34). -/
abbrev State.Inv (s : State) : Prop := s.cfg.Legal ∧ s.regs.Inv s.cfg

/-- The legal ranges that each register has by itself (10_state R13 to R33, 70_reset R140): what a
display read may see at any instant, also between the events of a command. The relation of a stored
value to its range spans two registers, PVAL and PRANGE, and is no part of it (20_memory R43). -/
abbrev Regs.EachLegal (p : Params) (r : Regs) : Prop :=
  r.active.toNat < p.totalPresets.val ∧
  r.cva.depth.toNat ≤ 100 ∧
  (∀ set : BitVec 5, set.toNat < p.nSets → ∀ i : Slot,
    (r.param set i).min.toNat < (r.param set i).max.toNat) ∧
  (p.scanDelayMin.val ≤ r.scopeDelay.toNat ∧ r.scopeDelay.toNat ≤ p.scanDelayMax.val) ∧
  (9 ≤ r.scopeTrig.toNat ∧ r.scopeTrig.toNat ≤ 109) ∧
  (∀ c : Channel, (r.ch[c.val]).accHi.toNat ≤ 4095) ∧
  (∀ i : Slot, (r.pwm[i.val]).toNat ≤ p.pwmMax.val)

/-- A write event that is legal at the registers it finds: it keeps its one register in its legal range,
it names a set that exists, and a stored value is within its entry's range as that range stands at the
event (10_state R13 to R34, 70_reset R140). -/
def Write.Legal (p : Params) (r : Regs) : Write → Prop
  | .active v => v.toNat < p.totalPresets.val
  | .cva v => v.depth.toNat ≤ 100
  | .scopeDelay v => p.scanDelayMin.val ≤ v.toNat ∧ v.toNat ≤ p.scanDelayMax.val
  | .scopeTrig v => 9 ≤ v.toNat ∧ v.toNat ≤ 109
  | .accHi _ v => v.toNat ≤ 4095
  | .pwm _ v => v.toNat ≤ p.pwmMax.val
  | .prange set _ mx mn => set.toNat < p.nSets ∧ mn.toNat < mx.toNat
  | .pval set i _ v => set.toNat < p.nSets ∧
      (r.param set i).min.toNat ≤ v.toNat ∧ v.toNat ≤ (r.param set i).max.toNat
  | _ => True

/-- The commands whose rules raise an error of their own (60_exceptions R119). -/
def mayRaise : Instr → Bool
  | .pbSetRange _ _ _ _ => true
  | .pbSetValue _ _ _ _ => true
  | .pbSelect _ => true
  | .regRead _ => true
  | _ => false

/-- Whether a command reads the filter of a channel (20_memory R44): CH_READ its own, PB_UPDATE the
three pots and CH3, SCOPE_ACQ CH3. -/
def readsChannel (c : Channel) : Instr → Bool
  | .chRead d _ => d = c
  | .pbUpdate _ => true
  | .scopeAcq => c = cvCh
  | _ => false

/-- The column "written by" of 10_state R35: whether command `i` may perform this write event. -/
def Write.allowedIn (i : Instr) : Write → Bool
  | .status e => if e then mayRaise i else i = .errClear
  | .errCause _ => mayRaise i || i = .errClear
  | .errCmdLo _ => mayRaise i || i = .errClear
  | .errCmdHi _ => mayRaise i || i = .errClear
  | .result _ => match i with | .btnPoll _ => true | .chRead _ _ => true | .regRead _ => true | _ => false
  | .active _ => match i with | .pbSelect _ => true | _ => false
  | .latch _ => match i with | .pbUpdate _ => true | .pbSelect _ => true | .pbRearm => true | _ => false
  | .cva _ => match i with | .cvaWrite _ _ _ => true | .pbUpdate e => e | _ => false
  | .scopeDelay _ => i = .scopeHalve || i = .scopeDouble
  | .scopeWr _ => i = .scopeHalve || i = .scopeDouble || i = .scopeAcq
  | .scopeAvg _ => i = .scopeAcq
  | .scopeRmin _ => i = .scopeAcq
  | .scopeRmax _ => i = .scopeAcq
  | .scopeTrig _ => i = .scopeAcq
  | .btnState b _ _ _ => match i with | .btnInit d _ => d = b | .btnPoll d => d = b | _ => false
  | .btnHold b _ => match i with | .btnInit d _ => d = b | _ => false
  | .btnT0Lo b _ => match i with | .btnInit d _ => d = b | .btnPoll d => d = b | _ => false
  | .btnT0Hi b _ => match i with | .btnInit d _ => d = b | .btnPoll d => d = b | _ => false
  | .accLo c _ => readsChannel c i || (match i with | .chInit d _ => d = c | _ => false)
  | .accHi c _ => readsChannel c i || (match i with | .chInit d _ => d = c | _ => false)
  | .chOffset c _ => match i with | .chInit d _ => d = c | _ => false
  | .pwm _ _ => match i with | .pbUpdate _ => true | _ => false
  | .pval _ _ _ _ =>
      match i with
      | .pbSetRange _ _ _ _ => true
      | .pbSetValue _ _ _ _ => true
      | .pbUpdate _ => true
      | _ => false
  | .prange _ _ _ _ => match i with | .pbSetRange _ _ _ _ => true | _ => false
  | .buf _ _ => i = .scopeAcq

/-! ## The spec's tables -/

/-- Whether bit `j` of a word with opcode `op` is marked "0" in the layout of its format
(30_encoding R54 to R63, R65). -/
def shouldBeZero (op j : Nat) : Bool :=
  match op with
  | 0x01 => (18 ≤ j ∧ j ≤ 23) ∨ (12 ≤ j ∧ j ≤ 15)
  | 0x02 => (18 ≤ j ∧ j ≤ 23) ∨ (12 ≤ j ∧ j ≤ 15) ∨ (1 ≤ j ∧ j ≤ 11)
  | 0x03 => 17 ≤ j ∧ j ≤ 23
  | 0x04 => (17 ≤ j ∧ j ≤ 23) ∨ j ≤ 15
  | 0x05 => j = 16
  | 0x06 => 10 ≤ j ∧ j ≤ 16
  | 0x07 => 5 ≤ j ∧ j ≤ 23
  | 0x09 => 1 ≤ j ∧ j ≤ 23
  | 0x0A => 11 ≤ j ∧ j ≤ 23
  | 0x0E => 16 ≤ j ∧ j ≤ 23
  | _ => j ≤ 23

/-- The address of a register (10_state R13 to R35). -/
def addrOf : Reg → Nat
  | .status => 0x0000
  | .errCause => 0x0001
  | .errCmdLo => 0x0002
  | .errCmdHi => 0x0003
  | .result => 0x0004
  | .active => 0x0005
  | .latch => 0x0006
  | .cva => 0x0007
  | .scopeDelay => 0x0008
  | .scopeWr => 0x0009
  | .scopeAvg => 0x000A
  | .scopeRmin => 0x000B
  | .scopeRmax => 0x000C
  | .scopeTrig => 0x000D
  | .scopeMode => 0x000E
  | .scopeLen => 0x000F
  | .btnState b => 0x0010 + b.val
  | .btnHold b => 0x0012 + b.val
  | .btnT0Lo b => 0x0014 + 2 * b.val
  | .btnT0Hi b => 0x0015 + 2 * b.val
  | .chVal c => 0x0020 + c.val
  | .accLo c => 0x0024 + c.val
  | .accHi c => 0x0028 + c.val
  | .chOffset c => 0x002C + c.val
  | .pwm i => 0x0030 + i.val
  | .pval set i => 0x1000 + 8 * set.toNat + 2 * i.val
  | .prange set i => 0x1000 + 8 * set.toNat + 2 * i.val + 1
  | .buf j => 0x2000 + j.val

/-- Whether the instance has a register: a parameter entry needs a set below N_SETS (10_state R32). -/
def Reg.present (p : Params) : Reg → Bool
  | .pval set _ => decide (set.toNat < p.nSets)
  | .prange set _ => decide (set.toNat < p.nSets)
  | _ => true

/-- The registers whose value a write event may change: its own, and those derived from it
(10_state R24, R29). -/
def Write.touches : Write → List Reg
  | .status _ => [.status]
  | .errCause _ => [.errCause]
  | .errCmdLo _ => [.errCmdLo]
  | .errCmdHi _ => [.errCmdHi]
  | .result _ => [.result]
  | .active _ => [.active]
  | .latch _ => [.latch]
  | .cva _ => [.cva]
  | .scopeDelay _ => [.scopeDelay, .scopeMode, .scopeLen]
  | .scopeWr _ => [.scopeWr]
  | .scopeAvg _ => [.scopeAvg]
  | .scopeRmin _ => [.scopeRmin]
  | .scopeRmax _ => [.scopeRmax]
  | .scopeTrig _ => [.scopeTrig]
  | .btnState b _ _ _ => [.btnState b]
  | .btnHold b _ => [.btnHold b]
  | .btnT0Lo b _ => [.btnT0Lo b]
  | .btnT0Hi b _ => [.btnT0Hi b]
  | .accLo c _ => [.accLo c, .chVal c]
  | .accHi c _ => [.accHi c, .chVal c]
  | .chOffset c _ => [.chOffset c]
  | .pwm i _ => [.pwm i]
  | .pval set i _ _ => [.pval set i]
  | .prange set i _ _ => [.prange set i]
  | .buf j _ => [.buf j]

/-! ## Words that statements share -/

/-- What is not a register, a draw or a write event stays as it was: the instance and the port. -/
abbrev SameHost (s t : State) : Prop := t.cfg = s.cfg ∧ t.port = s.port

/-- Nothing but the registers and the write events changed: no draw was taken. -/
abbrev NoDraw (s t : State) : Prop := SameHost s t ∧ t.env = s.env

/-- The registers after an error with this cause and command word is recorded (60_exceptions R121,
R122). -/
def Regs.recorded (r : Regs) (cause : ErrorCause) (w : Word) : Regs :=
  { r with
    err := true
    errCause := if r.err then r.errCause else some cause
    errCmdLo := if r.err then r.errCmdLo else BitVec.ofNat 16 w.toNat
    errCmdHi := if r.err then r.errCmdHi else BitVec.ofNat 16 (w.toNat / 2 ^ 16) }

/-- The write events of one slot of PB_UPDATE, in the order of R89, between the state `s` before the
command and the state `t` after it: the potentiometer's ACC, the latch where the mapped knob equals the
stored value, CH3's ACC where the blend runs, and the stored value. -/
def slotEvents (settings : Bool) (s t : State) (i : Slot) : List Write :=
  let set := if settings then s.cfg.settingsSet else s.regs.active
  let q := s.regs.param set i
  [.accLo (potOf i) (t.regs.ch[(potOf i).val]).accLo,
    .accHi (potOf i) (t.regs.ch[(potOf i).val]).accHi] ++
  (if potMapped (chValue s (potOf i) true).toNat q.min q.max = q.value then
    [.latch (Vector.ofFn fun j => if j ≤ i then t.regs.latch[j.val] else s.regs.latch[j.val])]
   else []) ++
  (if settings = false ∧ i = s.regs.cva.target ∧ 0 < s.regs.cva.depth.toNat then
    [.accLo 3 (t.regs.ch[3]).accLo, .accHi 3 (t.regs.ch[3]).accHi] else []) ++
  [.pval set i (t.regs.param set i).dmode (t.regs.param set i).value]

/-- The state after `k` polls of a button, one BTN_POLL after another. -/
def afterPolls (b : Button) : Nat → State → State
  | 0, s => s
  | k + 1, s =>
    match exec (.btnPoll b) (afterPolls b k s) with
    | .next t => t
    | .fault _ => s
    | .refused _ => s

end Sys2Proof.Machine
end

