-- ==== Sys2Proof/Certificates/Slice0/Obligations.lean ====
section
/-! DEFINITION. The statements for the provers, from the numbered rules of spec/. Each docstring names
the rule it formalises; OBLIGATIONS.json lists them. -/

open Sys2Proof Sys2Proof.Machine

/-! ## Encoding (30_encoding) -/

/-- Decode and encode agree on every command, every operand at every value (R54, R64, R66). -/
def Obligations.DecodeOfEncode : Prop := ∀ i : Instr, decode (encode i) = .ok i

/-- A word that decodes is the encoding of what it decodes to, so no two words are one command
(R66, R67, decision D3). -/
def Obligations.EncodeOfDecode : Prop :=
  ∀ (w : Word) (i : Instr), decode w = .ok i → encode i = w

/-- The words that raise ILLEGAL_OPCODE are those with an opcode of 0x10 or more (R66, R67). -/
def Obligations.IllegalOpcodeWords : Prop :=
  ∀ w : Word, decode w = .error .illegalOpcode ↔ 0x10 ≤ w.toNat / 2 ^ 24

/-- The words that raise RESERVED_BITS are those with an opcode below 0x10 and a bit set that the
layout of their format marks should-be-zero (R54, R66, R67). -/
def Obligations.ReservedBitsWords : Prop :=
  ∀ w : Word, decode w = .error .reservedBits ↔
    w.toNat / 2 ^ 24 < 0x10 ∧
      ∃ j, j < 24 ∧ shouldBeZero (w.toNat / 2 ^ 24) j = true ∧ w.getLsbD j = true

/-- Words of the spec's examples decode to the commands they stand for (R69, R73, R74, R78, R85, R86,
R97, R114), and two words are refused: 0x00000001 for a should-be-zero bit, and 0x1000FFFF for
its opcode whatever its other bits are (R66, R67, R113, R120). -/
def Obligations.ExampleWordsDecode : Prop :=
  decode 0x01030028 = .ok (.chInit 3 40) ∧ decode 0x02000001 = .ok (.chRead 0 true) ∧
    decode 0x030103E8 = .ok (.btnInit 1 1000) ∧ decode 0x04000000 = .ok (.btnPoll 0) ∧
    decode 0x05007F00 = .ok (.pbSetRange 0 0 127 0) ∧
    decode 0x0600013F = .ok (.pbSetValue 0 0 1 63) ∧ decode 0x07000017 = .ok (.pbSelect 23) ∧
    decode 0x09000001 = .ok (.pbUpdate true) ∧ decode 0x0A0007FE = .ok (.cvaWrite 127 3 2) ∧
    decode 0x0D000000 = .ok .scopeAcq ∧ decode 0x0E00000D = .ok (.regRead 0x000D) ∧
    decode 0x00000001 = .error .reservedBits ∧ decode 0x1000FFFF = .error .illegalOpcode

/-- A byte-serial link carries a command word and a register value least significant byte first, and
the port takes only whole words (R41, R42). That a list of any other length than four is no word, one of
eight bytes too, is the model's reading of R42 (log 10). -/
def Obligations.BytesCarryWords : Prop :=
  (∀ w : Word, wordOfBytes (bytesOfWord w) = some w) ∧
    (∀ b0 b1 b2 b3 : Byte, ∃ w, wordOfBytes [b0, b1, b2, b3] = some w ∧
      w.toNat = b0.toNat + b1.toNat * 2 ^ 8 + b2.toNat * 2 ^ 16 + b3.toNat * 2 ^ 24) ∧
    (∀ bs : List Byte, bs.length ≠ 4 → wordOfBytes bs = none) ∧
    (∀ v : Half, halfOfBytes (bytesOfHalf v) = some v) ∧
    (∀ b0 b1 : Byte, ∃ v, halfOfBytes [b0, b1] = some v ∧
      v.toNat = b0.toNat + b1.toNat * 2 ^ 8 ∧ bytesOfHalf v = [b0, b1]) ∧
    (∀ (s : State) (addr : BitVec 16), halfOfBytes (displayReadBytes s addr) = some (displayRead s addr)) ∧
    ∀ (s : State) (v : Half), dataOutput s = some v → halfOfBytes (dataOutputBytes s) = some v

/-! ## Steps (45_system, 60_exceptions) -/

/-- A step runs the decoded command: with the command word `w` next on the port and `w` decoding to
`i`, the step is exec of `i` on the state with the word taken and no write event yet (R116; the port
is the model's, log 4). -/
def Obligations.StepRunsDecodedCommand : Prop :=
  ∀ (s : State) (w : Word) (rest : List Word) (i : Instr),
    s.port = w :: rest → decode w = .ok i → step s = exec i { s with port := rest, events := [] }

/-- A step over a word that does not decode records the decoder's cause and the word, ERR last, and
does nothing else (R121, R122). -/
def Obligations.StepRecordsIllegalWord : Prop :=
  ∀ (s : State) (w : Word) (rest : List Word) (cause : ErrorCause),
    s.port = w :: rest → decode w = .error cause →
      ∃ t, step s = .next t ∧ t.regs = s.regs.recorded cause w ∧ t.cfg = s.cfg ∧ t.env = s.env ∧
        t.port = rest ∧
        t.trace = (if s.regs.err then [.status true] else
          [.errCause (some cause), .errCmdLo (BitVec.ofNat 16 w.toNat),
            .errCmdHi (BitVec.ofNat 16 (w.toNat / 2 ^ 16)), .status true])

/-- No command blocks, waits or stops the block: every step answers a next state, of the same instance
(R5, R116, R121). With no command on the port the block waits and nothing of it changes (R133; what a
step without a command is, is the model's choice, log 4). -/
def Obligations.EveryStepCompletes : Prop :=
  (∀ s : State, ∃ t, step s = .next t ∧ t.cfg = s.cfg) ∧
    ∀ s : State, s.port = [] → step s = .next { s with events := [] }

/-! ## System commands (45_system) -/

/-- NOP changes nothing, and is the only no-op word of its opcode (R113). -/
def Obligations.NopChangesNothing : Prop :=
  (∀ s : State, exec .nop s = .next s) ∧ decode 0x00000000 = .ok .nop ∧
    ∀ w : Word, 1 ≤ w.toNat → w.toNat ≤ 0x00FFFFFF → decode w = .error .reservedBits

/-- REG_READ of a mapped address writes what the display port reads there into RESULT and drives it on
the data output (R8; read from the write event, log 13), and does nothing else; of an unmapped address it raises BAD_ADDRESS and leaves RESULT (R114, R38, R121). -/
def Obligations.RegReadOfAddress : Prop :=
  ∀ (s : State) (addr : BitVec 16),
    (addressLegal s.cfg addr = true → ∃ t, exec (.regRead addr) s = .next t ∧
      t.regs = { s.regs with result := displayRead s addr } ∧ NoDraw s t ∧
      t.events = .result (displayRead s addr) :: s.events ∧
      dataOutput t = some (displayRead s addr)) ∧
    (addressLegal s.cfg addr = false → ∃ t, exec (.regRead addr) s = .next t ∧
      t.regs = s.regs.recorded .badAddress (encode (.regRead addr)) ∧ NoDraw s t)

/-- ERR_CLEAR clears the four error registers, ERR first, and nothing else; with ERR = 0 in a state of
the invariant it changes nothing; a word of its opcode with a should-be-zero bit set is itself recorded
as RESERVED_BITS and clears nothing (R115). -/
def Obligations.ErrClearAcknowledges : Prop :=
  (∀ s : State, ∃ t, exec .errClear s = .next t ∧
    t.regs = { s.regs with err := false, errCause := none, errCmdLo := 0, errCmdHi := 0 } ∧
    NoDraw s t ∧
    t.events = [.errCmdHi 0, .errCmdLo 0, .errCause none, .status false] ++ s.events ∧
    (s.regs.err = false → s.Inv → t.regs = s.regs)) ∧
  decode 0x0F000000 = .ok .errClear ∧
  ∀ (s : State) (w : Word) (rest : List Word), s.port = w :: rest →
    0x0F000001 ≤ w.toNat → w.toNat ≤ 0x0FFFFFFF →
    ∃ t, step s = .next t ∧ t.regs = s.regs.recorded .reservedBits w

/-! ## The register space (10_state, 20_memory) -/

/-- The register map: each register the instance has is at its address of the table of R35, and the
register found at an address has that address; the mapped addresses are exactly the ranges the map
lists (R38). -/
def Obligations.RegisterMap : Prop :=
  ∀ p : Params,
    (∀ g : Reg, g.present p = true → regAt p (BitVec.ofNat 16 (addrOf g)) = some g) ∧
    (∀ (a : BitVec 16) (g : Reg), regAt p a = some g →
      g.present p = true ∧ addrOf g = a.toNat) ∧
    ∀ a : BitVec 16, (regAt p a).isSome = addressLegal p a

/-- A display-port read gives the register at a mapped address and 0x0000 at an unmapped one, and
changes nothing (R39). -/
def Obligations.DisplayReadHasNoEffect : Prop :=
  ∀ (y : Interleaved) (a : BitVec 16),
    (y.move (.display a)).1 = y ∧
    (∀ g, regAt y.block.cfg a = some g →
      (y.move (.display a)).2 = some (readReg y.block.cfg y.block.regs g)) ∧
    (addressLegal y.block.cfg a = false → (y.move (.display a)).2 = some 0x0000)

/-- The fields stand in the registers at the places their rules give, zeros elsewhere, each value of an
enumeration with the code its rule gives (R13, R14, R17 to R19, R21, R23, R25, R30, R32, R33, R119). -/
def Obligations.FieldsInTheirPlaces : Prop :=
  (causeCode none = 0 ∧ causeCode (some .illegalOpcode) = 1 ∧ causeCode (some .reservedBits) = 2 ∧
    causeCode (some .badIndex) = 3 ∧ causeCode (some .badEnum) = 4 ∧
    causeCode (some .badRange) = 5 ∧ causeCode (some .badAddress) = 6) ∧
  (stageCode .idle = 0 ∧ stageCode .waiting = 1 ∧ stageCode .held = 2) ∧
  (eventCode .none = 0 ∧ eventCode .pressed = 1 ∧ eventCode .released = 2 ∧
    eventCode .holding = 3 ∧ eventCode .heldConfirmed = 4) ∧
  (cvModeCode .off = 0 ∧ cvModeCode .bipolar = 1 ∧ cvModeCode .unipolar = 2) ∧
  (dmodeCode .bare = 0 ∧ dmodeCode .numeric = 1 ∧ dmodeCode .namedOption = 2) ∧
  ∀ (p : Params) (r : Regs),
    (readReg p r .status).toNat = r.err.toNat ∧
    (readReg p r .errCause).toNat = causeCode r.errCause ∧
    (readReg p r .active).toNat = r.active.toNat ∧
    (readReg p r .latch).toNat =
      r.latch[0].toNat + 2 * r.latch[1].toNat + 4 * r.latch[2].toNat ∧
    (readReg p r .cva).toNat = (cvModeCode r.cva.mode).toNat + 4 * r.cva.target.val +
      16 * r.cva.depth.toNat ∧
    (readReg p r .scopeWr).toNat = r.scopeWr.val ∧
    (readReg p r .scopeTrig).toNat = r.scopeTrig.toNat ∧
    (∀ b : Button, (readReg p r (.btnState b)).toNat = (r.btn[b.val]).shift.toNat +
      256 * (stageCode (r.btn[b.val]).stage).toNat +
      1024 * (eventCode (r.btn[b.val]).evt).toNat) ∧
    (∀ c : Channel, (readReg p r (.chOffset c)).toNat = (r.ch[c.val]).offset.toNat) ∧
    (∀ (set : BitVec 5) (i : Slot), (readReg p r (.pval set i)).toNat =
      (r.param set i).value.toNat + 256 * (dmodeCode (r.param set i).dmode).toNat) ∧
    (∀ (set : BitVec 5) (i : Slot), (readReg p r (.prange set i)).toNat =
      (r.param set i).min.toNat + 256 * (r.param set i).max.toNat) ∧
    ∀ j : Fin 200, (readReg p r (.buf j)).toNat = (r.buf[j.val]).toNat

/-- SCOPE_MODE and SCOPE_LEN are functions of SCOPE_DELAY, at reset of SCAN_DELAY_RESET (R24). -/
def Obligations.ScopeModeAndLength : Prop :=
  (∀ (p : Params) (r : Regs),
    (readReg p r .scopeMode).toNat =
      (if p.scanDelayThreshold.val ≤ r.scopeDelay.toNat then 1 else 0) ∧
    (readReg p r .scopeLen).toNat =
      (if p.scanDelayThreshold.val ≤ r.scopeDelay.toNat then 100 else 200)) ∧
  ∀ p : Params,
    (readReg p (Regs.reset p) .scopeMode).toNat =
      (if p.scanDelayThreshold.val ≤ p.scanDelayReset.val then 1 else 0) ∧
    (readReg p (Regs.reset p) .scopeLen).toNat =
      (if p.scanDelayThreshold.val ≤ p.scanDelayReset.val then 100 else 200)

/-- CH_VAL is the accumulator rounded half up and bounded by ADC_MAX, 0 at reset, and the value a
smoothed CH_READ returns (R29). -/
def Obligations.ChannelValueIsRoundedFilter : Prop :=
  (∀ (p : Params) (r : Regs) (c : Channel),
    (readReg p r (.chVal c)).toNat = min 4095 ((r.acc c + 2 ^ 15) / 2 ^ 16) ∧
    readReg p (Regs.reset p) (.chVal c) = 0) ∧
  ∀ (s : State) (c : Channel), ∃ t, exec (.chRead c true) s = .next t ∧
    t.regs.result = readReg t.cfg t.regs (.chVal c)

/-- One write event changes no register but its own and those derived from it (R10, R24, R29, R43). -/
def Obligations.WriteEventTouchesOneRegister : Prop :=
  ∀ (p : Params) (r : Regs) (w : Write) (g : Reg),
    g ∉ w.touches → readReg p (r.apply w) g = readReg p r g

/-! ## Analog channels (40_analog) -/

/-- CH_INIT sets the offset, restarts the channel's filter at 0 and touches nothing else; an offset of
ADC_MAX makes every sample 0; its word is 0x01000000 with C at bit 16 and OFFSET at bit 0 (R73). -/
def Obligations.ChInitRestartsChannel : Prop :=
  (∀ (s : State) (c : Channel) (offset : BitVec 12), ∃ t, exec (.chInit c offset) s = .next t ∧
    t.regs = { s.regs with ch := s.regs.ch.set c.val ⟨0, 0, offset⟩ } ∧ NoDraw s t ∧
    t.events = [.accHi c 0, .accLo c 0, .chOffset c offset] ++ s.events) ∧
  (∀ (s : State) (c : Channel), (s.regs.ch[c.val]).offset = 4095 → chSample s c = 0) ∧
  ∀ (c : Channel) (offset : BitVec 12),
    decode (0x01000000#32 ||| BitVec.ofNat 32 (c.val * 2 ^ 16) ||| offset.setWidth 32) =
      .ok (.chInit c offset)

/-- CH_READ takes 16 draws, averages, subtracts the offset, steps the filter, and returns the filtered
value or the sample; it writes ACC_LO, ACC_HI and RESULT in that order, drives the result on the data
output (R8; read from the write event, log 13), and changes nothing else (R71, R74, R76). -/
def Obligations.ChReadFiltersSample : Prop :=
  ∀ (s : State) (c : Channel) (smooth : Bool) (avg sample acc : Nat),
    avg = ((List.range 16).map fun k => (s.adcDraw c k).toNat).sum / 16 →
    sample = avg - (s.regs.ch[c.val]).offset.toNat →
    acc = min ((s.regs.acc c * s.cfg.alphaQ16.val + sample * s.cfg.kQ16.val * 2 ^ 16) / 2 ^ 16)
      (4095 * 2 ^ 16) →
    ∃ t, exec (.chRead c smooth) s = .next t ∧
      t.regs = { s.regs with
        ch := s.regs.ch.set c.val
          ⟨BitVec.ofNat 16 acc, BitVec.ofNat 16 (acc / 2 ^ 16), (s.regs.ch[c.val]).offset⟩
        result := BitVec.ofNat 16
          (if smooth then min 4095 ((acc + 2 ^ 15) / 2 ^ 16) else sample) } ∧
      t.regs.acc c = acc ∧
      t.events = [.result t.regs.result, .accHi c (BitVec.ofNat 16 (acc / 2 ^ 16)),
        .accLo c (BitVec.ofNat 16 acc)] ++ s.events ∧ dataOutput t = some t.regs.result ∧
      t.env = { s.env with adc := s.env.adc.set c.val (s.env.adc[c.val].advance 16) } ∧
      SameHost s t

/-- The steady-state gain is exactly 1: with alpha + k = 65536, an accumulator at v and 16 draws of v,
a read leaves ACC as it was and returns v, smoothed or not (R72). -/
def Obligations.SteadyStateGainIsOne : Prop :=
  ∀ (s : State) (c : Channel) (smooth : Bool) (v : Nat),
    s.cfg.alphaQ16.val + s.cfg.kQ16.val = 65536 → v ≤ 4095 → s.regs.acc c = v * 2 ^ 16 →
    (s.regs.ch[c.val]).offset = 0 → (∀ k, k < 16 → (s.adcDraw c k).toNat = v) →
    ∃ t, exec (.chRead c smooth) s = .next t ∧ t.regs.acc c = s.regs.acc c ∧
      t.regs.result.toNat = v

/-- The filtered value stays in [0, ADC_MAX] for every draw and every parameter choice, and the clamp
of ACC changes a result only when alpha + k > 65536 (R75). -/
def Obligations.FilterStaysBounded : Prop :=
  (∀ (s : State) (c : Channel) (smooth : Bool), ∃ t, exec (.chRead c smooth) s = .next t ∧
    t.regs.acc c ≤ 4095 * 2 ^ 16 ∧ t.regs.result.toNat ≤ 4095) ∧
  ∀ (p : Params) (acc sample : Nat), p.alphaQ16.val + p.kQ16.val ≤ 65536 →
    acc ≤ 4095 * 2 ^ 16 → sample ≤ 4095 →
    (acc * p.alphaQ16.val + sample * p.kQ16.val * 2 ^ 16) / 2 ^ 16 ≤ 4095 * 2 ^ 16

/-- A channel sees only its own draws: two states of one instance that agree on a channel's registers
and source give the same reading and the same filter state (R76). -/
def Obligations.ChannelsAreIndependent : Prop :=
  ∀ (s1 s2 : State) (c : Channel) (smooth : Bool),
    s1.cfg = s2.cfg → s1.regs.ch[c.val] = s2.regs.ch[c.val] →
    s1.env.adc[c.val] = s2.env.adc[c.val] →
    ∃ t1 t2, exec (.chRead c smooth) s1 = .next t1 ∧ exec (.chRead c smooth) s2 = .next t2 ∧
      t1.regs.ch[c.val] = t2.regs.ch[c.val] ∧ t1.regs.result = t2.regs.result ∧
      t1.env.adc[c.val] = t2.env.adc[c.val] ∧
      ∀ d : Channel, d ≠ c → t1.regs.ch[d.val] = s1.regs.ch[d.val] ∧
        t1.env.adc[d.val] = s1.env.adc[d.val]

/-! ## Buttons (41_button) -/

/-- BTN_INIT sets the hold duration, clears the button's state and timestamp, and touches nothing else
(R78). -/
def Obligations.BtnInitClearsButton : Prop :=
  ∀ (s : State) (b : Button) (hold : BitVec 16), ∃ t, exec (.btnInit b hold) s = .next t ∧
    t.regs = { s.regs with btn := s.regs.btn.set b.val ⟨0x00, .idle, .none, hold, 0, 0⟩ } ∧
    NoDraw s t ∧
    t.events = [.btnState b .none .idle 0x00, .btnT0Hi b 0, .btnT0Lo b 0, .btnHold b hold] ++
      s.events

/-- A poll that starts in Held does no edge detection: HeldConfirmed and Idle on 0x0F, Holding on 0x00,
None otherwise; it writes BTN_STATE and then RESULT, the event's code, which is driven on the data output
(R8; read from the write event, log 13), and the rest of the state is as it was (R77, R79, R80). -/
def Obligations.PollWhileHeld : Prop :=
  ∀ (s : State) (b : Button) (sh : BitVec 8), (s.regs.btn[b.val]).stage = .held →
    sh.toNat = ((s.regs.btn[b.val]).shift.toNat * 2 + (s.pinDraw b).toNat) % 256 →
    ∃ t e st, exec (.btnPoll b) s = .next t ∧
      e = (if sh = 0x0F then ButtonEvent.heldConfirmed
        else if sh = 0x00 then .holding else .none) ∧
      st = (if sh = 0x0F then Stage.idle else .held) ∧
      t.regs = { s.regs with
        btn := s.regs.btn.set b.val { s.regs.btn[b.val] with shift := sh, stage := st, evt := e }
        result := if sh = 0x0F then 4 else if sh = 0x00 then 3 else 0 } ∧
      t.events = [.result t.regs.result, .btnState b e st sh] ++ s.events ∧
      dataOutput t = some t.regs.result ∧
      t.env = { s.env with
        pin := s.env.pin.set b.val (s.env.pin[b.val].advance 1), now := s.env.now.advance 1 } ∧
      SameHost s t

/-- A poll that does not start in Held detects edges and counts the hold time: Pressed on 0xF0 and
Released on 0x0F with Idle; on 0x00 Idle becomes Waiting with the time drawn as T0, and Waiting becomes
Held once the elapsed time mod 2^32 has reached HOLD, with no event; it writes T0 where it changed, low
half first, then BTN_STATE and RESULT, the event's code, which is driven on the data output (R8; read
from the write event, log 13), and the rest is as it was (R77, R79, R81, R82). -/
def Obligations.PollWhileNotHeld : Prop :=
  ∀ (s : State) (b : Button) (sh : BitVec 8), (s.regs.btn[b.val]).stage ≠ .held →
    sh.toNat = ((s.regs.btn[b.val]).shift.toNat * 2 + (s.pinDraw b).toNat) % 256 →
    ∃ t e st t0, exec (.btnPoll b) s = .next t ∧
      e = (if sh = 0xF0 then ButtonEvent.pressed
        else if sh = 0x0F then .released else .none) ∧
      st = (if sh = 0xF0 ∨ sh = 0x0F then Stage.idle
        else if sh = 0x00 then
          (if (s.regs.btn[b.val]).stage = .idle then .waiting
           else if (s.regs.btn[b.val]).hold.toNat ≤
              (s.nowDraw.toNat + 2 ^ 32 - (s.regs.t0 b).toNat) % 2 ^ 32 then .held
           else .waiting)
        else (s.regs.btn[b.val]).stage) ∧
      t0 = (if sh = 0x00 ∧ (s.regs.btn[b.val]).stage = .idle then s.nowDraw else s.regs.t0 b) ∧
      t.regs = { s.regs with
        btn := s.regs.btn.set b.val ⟨sh, st, e, (s.regs.btn[b.val]).hold,
          BitVec.ofNat 16 t0.toNat, BitVec.ofNat 16 (t0.toNat / 2 ^ 16)⟩
        result := if sh = 0xF0 then 1 else if sh = 0x0F then 2 else 0 } ∧
      t.events = [.result t.regs.result, .btnState b e st sh] ++
        (if t0 = s.regs.t0 b then []
          else [.btnT0Hi b (BitVec.ofNat 16 (t0.toNat / 2 ^ 16)),
            .btnT0Lo b (BitVec.ofNat 16 t0.toNat)]) ++ s.events ∧
      dataOutput t = some t.regs.result ∧
      t.env = { s.env with
        pin := s.env.pin.set b.val (s.env.pin[b.val].advance 1), now := s.env.now.advance 1 } ∧
      SameHost s t

/-- The elapsed test is (now - t0) mod 2^32 >= HOLD, and equals "now >= recordedTime + holdMillis" when
the counter has not wrapped between them (R82). -/
def Obligations.ElapsedTestSurvivesWrap : Prop :=
  (∀ now t0 : BitVec 32, (elapsed now t0 : Int) = ((now.toNat : Int) - t0.toNat) % 2 ^ 32) ∧
  (∀ (now t0 : BitVec 32) (hold : Half), t0.toNat ≤ now.toNat →
    (hold.toNat ≤ elapsed now t0 ↔ t0.toNat + hold.toNat ≤ now.toNat)) ∧
  ∀ (s : State) (b : Button), (s.regs.btn[b.val]).stage = .waiting → polledShift s b = 0x00 →
    ∃ t, exec (.btnPoll b) s = .next t ∧
      ((t.regs.btn[b.val]).stage = .held ↔
        (s.regs.btn[b.val]).hold.toNat ≤ elapsed s.nowDraw (s.regs.t0 b))

/-- HeldConfirmed comes only from a poll that starts in Held, and no Pressed and no Released from such
a poll (R84 (b) and (c)). -/
def Obligations.HeldConfirmedOnlyFromHeld : Prop :=
  ∀ (s : State) (b : Button), ∃ t, exec (.btnPoll b) s = .next t ∧
    ((t.regs.btn[b.val]).evt = .heldConfirmed → (s.regs.btn[b.val]).stage = .held) ∧
    ((s.regs.btn[b.val]).stage = .held →
      (t.regs.btn[b.val]).evt ≠ .pressed ∧ (t.regs.btn[b.val]).evt ≠ .released)

/-- Two Pressed events of one button are at least 8 polls apart, and so are two Released; a Pressed and
a Released are at least 4 polls apart, for every sequence of levels and times (R84 (a)). -/
def Obligations.EdgeEventsAreSpaced : Prop :=
  ∀ (s : State) (b : Button) (m k : Nat), 1 ≤ k →
    let e := fun n => ((afterPolls b n s).regs.btn[b.val]).evt
    (k < 8 → e (m + 1) = .pressed → e (m + 1 + k) ≠ .pressed) ∧
    (k < 8 → e (m + 1) = .released → e (m + 1 + k) ≠ .released) ∧
    (k < 4 → e (m + 1) = .pressed → e (m + 1 + k) ≠ .released) ∧
    (k < 4 → e (m + 1) = .released → e (m + 1 + k) ≠ .pressed)

/-- On a clean line, from SHIFT = 0xFF and Idle, a run of eight low polls gives Pressed at poll 4 and
no other event, and enters Waiting at poll 8 with the time drawn by that poll (R83). -/
def Obligations.CleanPressTiming : Prop :=
  ∀ (s : State) (b : Button), (s.regs.btn[b.val]).shift = 0xFF →
    (s.regs.btn[b.val]).stage = .idle →
    (∀ k, k < 8 → s.env.pin[b.val].peek (Config.freePin b.val) k = false) →
    (∀ n, 1 ≤ n → n ≤ 8 → (((afterPolls b n s).regs.btn[b.val]).evt =
      if n = 4 then .pressed else .none)) ∧
    (∀ n, n < 8 → ((afterPolls b n s).regs.btn[b.val]).stage = .idle) ∧
    ((afterPolls b 8 s).regs.btn[b.val]).stage = .waiting ∧
    (afterPolls b 8 s).regs.t0 b = s.env.now.peek Config.freeNow 7

/-! ## Parameter bank and takeover (42_takeover) -/

/-- PB_SET_RANGE of an existing entry with MIN < MAX writes the range and clamps the stored value into
it; no latch, no other entry and no other register changes (R85). -/
def Obligations.SetRangeClampsValue : Prop :=
  ∀ (s : State) (set : BitVec 5) (slot : BitVec 2) (i : Slot) (max min : BitVec 8),
    set.toNat < s.cfg.nSets → slot.toNat = i.val → min.toNat < max.toNat →
    ∃ t v, exec (.pbSetRange set slot max min) s = .next t ∧
      v.toNat = Nat.min (Nat.max (s.regs.param set i).value.toNat min.toNat) max.toNat ∧
      t.regs = { s.regs with
        params := (s.regs.params.set set.toNat
          (s.regs.params[set.toNat].set i.val ⟨v, min, max, (s.regs.param set i).dmode⟩)) } ∧
      NoDraw s t ∧
      t.events = [.pval set i (s.regs.param set i).dmode v, .prange set i max min] ++ s.events

/-- PB_SET_RANGE raises BAD_INDEX for a set or slot that does not exist, else BAD_RANGE for
MIN >= MAX, and does nothing else (R85, R119, R120, R121). -/
def Obligations.SetRangeRaises : Prop :=
  ∀ (s : State) (set : BitVec 5) (slot : BitVec 2) (max min : BitVec 8),
    (s.cfg.nSets ≤ set.toNat ∨ slot = 3 → ∃ t, exec (.pbSetRange set slot max min) s = .next t ∧
      t.regs = s.regs.recorded .badIndex (encode (.pbSetRange set slot max min)) ∧ NoDraw s t) ∧
    (set.toNat < s.cfg.nSets → slot ≠ 3 → max.toNat ≤ min.toNat →
      ∃ t, exec (.pbSetRange set slot max min) s = .next t ∧
        t.regs = s.regs.recorded .badRange (encode (.pbSetRange set slot max min)) ∧ NoDraw s t)

/-- PB_SET_VALUE of an existing entry with a legal DMODE writes the display mode and the value clamped
into the entry's range; nothing else changes (R86). -/
def Obligations.SetValueClampsValue : Prop :=
  ∀ (s : State) (set : BitVec 5) (slot : BitVec 2) (i : Slot) (dmode : BitVec 2) (d : DMode)
    (value : BitVec 8),
    set.toNat < s.cfg.nSets → slot.toNat = i.val → dmodeCode d = dmode →
    ∃ t v, exec (.pbSetValue set slot dmode value) s = .next t ∧
      v.toNat = Nat.min (Nat.max value.toNat (s.regs.param set i).min.toNat)
        (s.regs.param set i).max.toNat ∧
      t.regs = { s.regs with
        params := (s.regs.params.set set.toNat (s.regs.params[set.toNat].set i.val
          ⟨v, (s.regs.param set i).min, (s.regs.param set i).max, d⟩)) } ∧
      NoDraw s t ∧ t.events = .pval set i d v :: s.events

/-- PB_SET_VALUE raises BAD_INDEX for a set or slot that does not exist, else BAD_ENUM for DMODE 3, and
does nothing else (R86, R119, R120, R121). -/
def Obligations.SetValueRaises : Prop :=
  ∀ (s : State) (set : BitVec 5) (slot dmode : BitVec 2) (value : BitVec 8),
    (s.cfg.nSets ≤ set.toNat ∨ slot = 3 → ∃ t, exec (.pbSetValue set slot dmode value) s = .next t ∧
      t.regs = s.regs.recorded .badIndex (encode (.pbSetValue set slot dmode value)) ∧
      NoDraw s t) ∧
    (set.toNat < s.cfg.nSets → slot ≠ 3 → dmode = 3 →
      ∃ t, exec (.pbSetValue set slot dmode value) s = .next t ∧
        t.regs = s.regs.recorded .badEnum (encode (.pbSetValue set slot dmode value)) ∧
        NoDraw s t)

/-- PB_SELECT makes a preset active and clears the latches, also when it was active already, and
changes no stored value and no PWM register; a preset index of TOTAL_PRESETS or more raises BAD_INDEX;
its word is 0x07000000 with PRESET at bit 0 (R87). -/
def Obligations.SelectRearmsTakeover : Prop :=
  ∀ (s : State) (preset : BitVec 5),
    (preset.toNat < s.cfg.totalPresets.val → ∃ t, exec (.pbSelect preset) s = .next t ∧
      t.regs = { s.regs with active := preset, latch := #v[false, false, false] } ∧ NoDraw s t ∧
      t.events = [.latch #v[false, false, false], .active preset] ++ s.events) ∧
    (s.cfg.totalPresets.val ≤ preset.toNat → ∃ t, exec (.pbSelect preset) s = .next t ∧
      t.regs = s.regs.recorded .badIndex (encode (.pbSelect preset)) ∧ NoDraw s t) ∧
    decode (0x07000000#32 ||| preset.setWidth 32) = .ok (.pbSelect preset)

/-- PB_REARM, the word 0x08000000, clears the three latches and changes nothing else (R88). -/
def Obligations.RearmClearsLatches : Prop :=
  decode 0x08000000 = .ok .pbRearm ∧
  ∀ s : State, ∃ t, exec .pbRearm s = .next t ∧
    t.regs = { s.regs with latch := #v[false, false, false] } ∧ NoDraw s t ∧
    t.events = .latch #v[false, false, false] :: s.events

/-- potMapped is mn + pot * (mx - mn) div ADC_MAX; it lies in [mn, mx] and reaches mx only at ADC_MAX
(R90). -/
def Obligations.PotMappedIsTruncatingMap : Prop :=
  (∀ (pot : Nat) (mn mx : BitVec 8), pot ≤ 4095 → mn.toNat < mx.toNat →
    (potMapped pot mn mx).toNat = mn.toNat + pot * (mx.toNat - mn.toNat) / 4095 ∧
    mn.toNat ≤ (potMapped pot mn mx).toNat ∧ (potMapped pot mn mx).toNat ≤ mx.toNat ∧
    ((potMapped pot mn mx) = mx ↔ pot = 4095)) ∧
  potMapped 4094 0 255 = 254 ∧ potMapped 4095 0 255 = 255 ∧ potMapped 2048 0 127 = 63

/-- mapBack is 0 at mn, PWM_MAX at mx, and monotonic between them (R93). -/
def Obligations.MapBackEndsAndMonotone : Prop :=
  ∀ (p : Params) (mn mx : BitVec 8), mn.toNat < mx.toNat →
    mapBack p mn mn mx = 0 ∧ (mapBack p mx mn mx).toNat = p.pwmMax.val ∧
    ∀ v v' : BitVec 8, mn.toNat ≤ v.toNat → v.toNat ≤ v'.toNat → v'.toNat ≤ mx.toNat →
      (mapBack p v mn mx).toNat = (v.toNat - mn.toNat) * p.pwmMax.val / (mx.toNat - mn.toNat) ∧
      (mapBack p v mn mx).toNat ≤ (mapBack p v' mn mx).toNat

/-- PB_UPDATE writes all three PWM registers from the final stored values of the active preset, in
both forms (R89, R93, R94). -/
def Obligations.UpdateWritesPwm : Prop :=
  ∀ (s : State) (settings : Bool), s.Inv → ∃ t, exec (.pbUpdate settings) s = .next t ∧
    t.regs.active = s.regs.active ∧
    ∀ (i : Slot) (q : Param), q = t.regs.param t.regs.active i →
      (t.regs.pwm[i.val]).toNat =
        (q.value.toNat - q.min.toNat) * s.cfg.pwmMax.val / (q.max.toNat - q.min.toNat)

/-- PB_UPDATE's takeover of a slot that the CV blend does not write: the latch is set exactly when the
mapped knob equals the stored value and never cleared, and the stored value is the mapped knob where
the latch is set and unchanged where it is not (R89 to R92, R96 (b)). -/
def Obligations.UpdateTakesOver : Prop :=
  ∀ (s : State) (settings : Bool), s.Inv → ∃ t, exec (.pbUpdate settings) s = .next t ∧
    ∀ (i : Slot) (q : Param) (pm : BitVec 8),
      q = s.regs.param (updatedSet settings s) i →
      pm.toNat = q.min.toNat + (chValue s (potOf i) true).toNat * (q.max.toNat - q.min.toNat) / 4095 →
      t.regs.latch[i.val] = (s.regs.latch[i.val] || decide (pm = q.value)) ∧
      t.regs.acc (potOf i) = chAcc s (potOf i) ∧
      (settings = true ∨ i ≠ s.regs.cva.target ∨ s.regs.cva.depth = 0 →
        t.regs.param (updatedSet settings s) i =
          { q with value := if t.regs.latch[i.val] then pm else q.value })

/-- The CV blend: on a preset with a depth above 0, PB_UPDATE reads CH3 once and gives the target slot
the blended value in Bipolar and Unipolar mode whatever its latch is, and the takeover outcome in mode
Off (R100, R101, R102). -/
def Obligations.UpdateBlendsCv : Prop :=
  ∀ (s : State) (i : Slot) (q : Param) (pm : BitVec 8) (cv d : Nat) (mapped half : Int),
    s.Inv → i = s.regs.cva.target → d = s.regs.cva.depth.toNat → 0 < d →
    q = s.regs.param s.regs.active i →
    pm.toNat = q.min.toNat + (chValue s (potOf i) true).toNat * (q.max.toNat - q.min.toNat) / 4095 →
    cv = (chValue s 3 true).toNat →
    mapped = q.min.toNat + (cv * d / 100) * (q.max.toNat - q.min.toNat) / 4095 →
    half = q.min.toNat + (4095 * d / 100 / 2) * (q.max.toNat - q.min.toNat) / 4095 →
    ∃ t, exec (.pbUpdate false) s = .next t ∧ t.regs.acc 3 = chAcc s 3 ∧
      t.env.adc[3] = s.env.adc[3].advance 16 ∧
      ((t.regs.param s.regs.active i).value.toNat : Int) =
        match s.regs.cva.mode with
        | .off => if s.regs.latch[i.val] || decide (pm = q.value) then (pm.toNat : Int)
            else q.value.toNat
        | .bipolar => min (max (pm.toNat + mapped) q.min.toNat) q.max.toNat
        | .unipolar => min (max (pm.toNat + (mapped - half)) q.min.toNat) q.max.toNat

/-- PB_UPDATE on the settings set reads no CV channel, loads the CV assignment from the settings set's
new values, and changes no preset (R94, R99, R96 (d)). -/
def Obligations.SettingsUpdateLoadsCva : Prop :=
  ∀ s : State, s.Inv → ∃ t, exec (.pbUpdate true) s = .next t ∧
    t.env.adc[3] = s.env.adc[3] ∧ t.regs.ch[3] = s.regs.ch[3] ∧
    (cvModeCode t.regs.cva.mode).toNat =
      min (t.regs.param s.cfg.settingsSet 0).value.toNat 2 ∧
    t.regs.cva.target.val = min (t.regs.param s.cfg.settingsSet 1).value.toNat 2 ∧
    t.regs.cva.depth.toNat = min (t.regs.param s.cfg.settingsSet 2).value.toNat 100 ∧
    ∀ (set : BitVec 5) (i : Slot), set ≠ s.cfg.settingsSet →
      t.regs.param set i = s.regs.param set i

/-- PB_UPDATE's frame: it writes stored values of the set it runs on and no other set, no range, no
display mode, no offset, CH3 only when it blends, the CV assignment only on the settings set, and no
register but these, LATCH, ACC and PWM; and the order of its write events: slot by slot the ACC, the
latch where it is set, CH3's ACC where the blend runs and the stored value, then CVA on the settings set,
then the three PWM registers (R89, R96 (c) and (d)). -/
def Obligations.UpdateFrame : Prop :=
  ∀ (s : State) (settings : Bool), ∃ t, exec (.pbUpdate settings) s = .next t ∧ SameHost s t ∧
    { t.regs with latch := s.regs.latch, params := s.regs.params, ch := s.regs.ch,
                  pwm := s.regs.pwm, cva := s.regs.cva } = s.regs ∧
    (settings = false → t.regs.cva = s.regs.cva) ∧
    (∀ (set : BitVec 5) (i : Slot),
      { t.regs.param set i with value := (s.regs.param set i).value } = s.regs.param set i ∧
      (set ≠ updatedSet settings s → t.regs.param set i = s.regs.param set i)) ∧
    (∀ c : Channel, (t.regs.ch[c.val]).offset = (s.regs.ch[c.val]).offset) ∧
    (settings = true ∨ s.regs.cva.depth = 0 →
      t.regs.ch[3] = s.regs.ch[3] ∧ t.env.adc[3] = s.env.adc[3]) ∧
    (∀ i : Slot, t.env.adc[(potOf i).val] = s.env.adc[(potOf i).val].advance 16) ∧
    t.events = (slotEvents settings s t 0 ++ slotEvents settings s t 1 ++ slotEvents settings s t 2 ++
      (if settings then [Write.cva t.regs.cva] else []) ++
      [Write.pwm 0 t.regs.pwm[0], .pwm 1 t.regs.pwm[1], .pwm 2 t.regs.pwm[2]]).reverse ++ s.events ∧
    t.env.pin = s.env.pin ∧ t.env.now = s.env.now

/-! ## CV assignment (43_cv) -/

/-- CVA_WRITE writes the CV assignment with each field clamped to its legal range, and nothing else;
the settings set keeps its values; MODE 0 is Off, 1 Bipolar, and 2 and 3 Unipolar (R97, R98, R102). -/
def Obligations.CvaWriteClampsFields : Prop :=
  (∀ m t d : Nat, (cvModeCode (legalCva m t d).mode).toNat = min m 2 ∧
    (legalCva m t d).mode = (if m = 0 then CvMode.off else if m = 1 then .bipolar else .unipolar) ∧
    (legalCva m t d).target.val = min t 2 ∧ (legalCva m t d).depth.toNat = min d 100) ∧
  ∀ (s : State) (depth : BitVec 7) (target mode : BitVec 2),
    ∃ t, exec (.cvaWrite depth target mode) s = .next t ∧
      (cvModeCode t.regs.cva.mode).toNat = min mode.toNat 2 ∧
      t.regs.cva.mode = (if mode = 0 then CvMode.off else if mode = 1 then .bipolar else .unipolar) ∧
      t.regs.cva.target.val = min target.toNat 2 ∧
      t.regs.cva.depth.toNat = min depth.toNat 100 ∧
      { t.regs with cva := s.regs.cva } = s.regs ∧ NoDraw s t ∧
      t.events = .cva t.regs.cva :: s.events

/-- The blended value is within the range in every mode, Bipolar only raises the mapped knob, and
Unipolar leaves it where the CV and the half point map to the same value (R103 (a), (b), (c)). -/
def Obligations.CvBlendStaysInRange : Prop :=
  ∀ (mode : CvMode) (v pm mn mx : BitVec 8) (cv d : Nat), mn.toNat < mx.toNat →
    mn.toNat ≤ v.toNat → v.toNat ≤ mx.toNat → mn.toNat ≤ pm.toNat → pm.toNat ≤ mx.toNat →
    cv ≤ 4095 → d ≤ 100 →
    mn.toNat ≤ (cvBlendValue mode v pm mn mx cv d).toNat ∧
    (cvBlendValue mode v pm mn mx cv d).toNat ≤ mx.toNat ∧
    pm.toNat ≤ (cvBlendValue .bipolar v pm mn mx cv d).toNat ∧
    (cvMapped cv d mn mx = halfMapped d mn mx →
      cvBlendValue .unipolar v pm mn mx cv d = pm)

/-! ## Oscilloscope (44_scope) -/

/-- SCOPE_HALVE, the word 0x0B000000, halves the delay with truncation, not below SCAN_DELAY_MIN, and
restarts the ring index (R104). -/
def Obligations.ScopeHalveSaturates : Prop :=
  decode 0x0B000000 = .ok .scopeHalve ∧
  ∀ s : State, ∃ t, exec .scopeHalve s = .next t ∧
    t.regs.scopeDelay.toNat = max (s.regs.scopeDelay.toNat / 2) s.cfg.scanDelayMin.val ∧
    t.regs = { s.regs with scopeDelay := t.regs.scopeDelay, scopeWr := 0 } ∧ NoDraw s t ∧
    t.events = [.scopeWr 0, .scopeDelay t.regs.scopeDelay] ++ s.events

/-- SCOPE_DOUBLE, the word 0x0C000000, doubles the delay with no wrap, not above SCAN_DELAY_MAX, and
restarts the ring index (R105). -/
def Obligations.ScopeDoubleSaturates : Prop :=
  decode 0x0C000000 = .ok .scopeDouble ∧
  ∀ s : State, ∃ t, exec .scopeDouble s = .next t ∧
    t.regs.scopeDelay.toNat = min (2 * s.regs.scopeDelay.toNat) s.cfg.scanDelayMax.val ∧
    t.regs = { s.regs with scopeDelay := t.regs.scopeDelay, scopeWr := 0 } ∧ NoDraw s t ∧
    t.events = [.scopeWr 0, .scopeDelay t.regs.scopeDelay] ++ s.events

/-- A long scan takes one sample of CH3 into the ring entry, moves the index and wraps it at 100, fixes
the range and the trigger, and leaves the average and every other entry; it writes ACC, the entry, WR,
RMIN, RMAX and TRIG in that order (R106, R110). -/
def Obligations.LongScanAppendsSample : Prop :=
  ∀ s : State, s.cfg.scanDelayThreshold.val ≤ s.regs.scopeDelay.toNat →
    ∃ t, exec .scopeAcq s = .next t ∧
      t.regs = { s.regs with
        ch := t.regs.ch
        buf := t.regs.buf
        scopeWr := t.regs.scopeWr
        scopeRmin := 0
        scopeRmax := 4095
        scopeTrig := 10 } ∧
      t.regs.scopeWr.val = (s.regs.scopeWr.val + 1) % 100 ∧
      (∀ j : Fin 200, t.regs.buf[j.val] =
        if j.val = s.regs.scopeWr.val then chValue s 3 s.cfg.scopeSmooth else s.regs.buf[j.val]) ∧
      t.regs.acc 3 = chAcc s 3 ∧ (t.regs.ch[3]).offset = (s.regs.ch[3]).offset ∧
      t.events = [.scopeTrig 10, .scopeRmax 4095, .scopeRmin 0, .scopeWr t.regs.scopeWr,
        .buf (ringEntry s.regs.scopeWr) (chValue s 3 s.cfg.scopeSmooth),
        .accHi 3 (t.regs.ch[3]).accHi, .accLo 3 (t.regs.ch[3]).accLo] ++ s.events ∧
      (∀ c : Channel, c ≠ 3 → t.regs.ch[c.val] = s.regs.ch[c.val]) ∧
      t.env = { s.env with adc := s.env.adc.set 3 (s.env.adc[3].advance 16) } ∧ SameHost s t

/-- A fast scan, of either kind of sample: sample j is the average of draws 16j to 16j+15 less the offset,
clamped at 0, and steps the filter from ACC j to ACC j+1; entry j is the filtered value where
SCOPE_SMOOTH is 1 and the sample where it is 0; ACC[3] ends 200 steps on and 3200 draws are taken. The
write events are ACC and the entry, 200 times, then AVG, RMIN, RMAX, TRIG and WR in that order (R71,
R106, R107, R108, R109, R137). -/
def Obligations.FastScanFillsBuffer : Prop :=
  ∀ (s : State) (sample acc : Nat → Nat),
    s.regs.scopeDelay.toNat < s.cfg.scanDelayThreshold.val →
    (∀ j, j < 200 → sample j =
      ((List.range 16).map fun k => (s.adcDraw 3 (16 * j + k)).toNat).sum / 16 -
        (s.regs.ch[3]).offset.toNat) →
    acc 0 = s.regs.acc 3 →
    (∀ j, j < 200 → acc (j + 1) =
      min ((acc j * s.cfg.alphaQ16.val + sample j * s.cfg.kQ16.val * 2 ^ 16) / 2 ^ 16)
        (4095 * 2 ^ 16)) →
    ∃ t, exec .scopeAcq s = .next t ∧
      (∀ j : Fin 200, (t.regs.buf[j.val]).toNat =
        if s.cfg.scopeSmooth then min 4095 ((acc (j.val + 1) + 2 ^ 15) / 2 ^ 16) else sample j.val) ∧
      t.regs.acc 3 = acc 200 ∧
      t.env = { s.env with adc := s.env.adc.set 3 (s.env.adc[3].advance 3200) } ∧
      t.events = ((List.finRange 200).flatMap (fun j : Fin 200 =>
          [Write.accLo 3 (BitVec.ofNat 16 (acc (j.val + 1))),
            .accHi 3 (BitVec.ofNat 16 (acc (j.val + 1) / 2 ^ 16)), .buf j t.regs.buf[j.val]]) ++
        [Write.scopeAvg t.regs.scopeAvg, .scopeRmin t.regs.scopeRmin, .scopeRmax t.regs.scopeRmax,
          .scopeTrig t.regs.scopeTrig, .scopeWr 0]).reverse ++ s.events

/-- A fast scan's statistics are those of the new buffer: the truncated average, and the range widened
by 20 and rounded to the nearest 10, halves up; the ring index is 0 and every register that no part of
the scan writes is as it was (R106, R108, R109). -/
def Obligations.FastScanStatistics : Prop :=
  ∀ s : State, s.regs.scopeDelay.toNat < s.cfg.scanDelayThreshold.val →
    ∃ t, exec .scopeAcq s = .next t ∧
      t.regs.scopeAvg.toNat = (t.regs.buf.toList.map BitVec.toNat).sum / 200 ∧
      (∀ lo : Nat, lo ∈ t.regs.buf.toList.map BitVec.toNat →
        (∀ x ∈ t.regs.buf.toList.map BitVec.toNat, lo ≤ x) →
        t.regs.scopeRmin.toInt = ((lo : Int) - 20 + 5) / 10 * 10) ∧
      (∀ hi : Nat, hi ∈ t.regs.buf.toList.map BitVec.toNat →
        (∀ x ∈ t.regs.buf.toList.map BitVec.toNat, x ≤ hi) →
        t.regs.scopeRmax.toInt = ((hi : Int) + 20 + 5) / 10 * 10) ∧
      t.regs.scopeWr = 0 ∧ SameHost s t ∧
      t.regs = { s.regs with
        ch := t.regs.ch
        buf := t.regs.buf
        scopeAvg := t.regs.scopeAvg
        scopeRmin := t.regs.scopeRmin
        scopeRmax := t.regs.scopeRmax
        scopeTrig := t.regs.scopeTrig
        scopeWr := 0 } ∧
      (∀ c : Channel, c ≠ 3 → t.regs.ch[c.val] = s.regs.ch[c.val] ∧
        t.env.adc[c.val] = s.env.adc[c.val]) ∧
      (t.regs.ch[3]).offset = (s.regs.ch[3]).offset ∧ t.env.pin = s.env.pin ∧
      t.env.now = s.env.now

/-- Trigger stability: after a fast scan SCOPE_TRIG is the first index of 9..109 whose sample is at or
above the level and whose predecessor is below it, so the only crossing where there is one, and 10
where there is none; after a long scan it is 10 (R109, R112). -/
def Obligations.TriggerIsFirstCrossing : Prop :=
  ∀ s : State, ∃ t, exec .scopeAcq s = .next t ∧
    (s.cfg.scanDelayThreshold.val ≤ s.regs.scopeDelay.toNat → t.regs.scopeTrig = 10) ∧
    (s.regs.scopeDelay.toNat < s.cfg.scanDelayThreshold.val →
      ∀ (lo hi level : Nat) (b : Nat → Nat),
        (∀ j, b j = (t.regs.buf[j]?.getD 0).toNat) →
        (∀ j, j < 200 → lo ≤ b j ∧ b j ≤ hi) → (∃ j, j < 200 ∧ b j = lo) →
        (∃ j, j < 200 ∧ b j = hi) →
        level = (match s.cfg.scopeTrigLevel with
          | .midrange => (lo + hi) / 2
          | .average => t.regs.scopeAvg.toNat) →
        (∀ k, 9 ≤ k → k ≤ 109 → b (k - 1) < level → level ≤ b k →
          (∀ i, 9 ≤ i → i < k → ¬ (b (i - 1) < level ∧ level ≤ b i)) →
          t.regs.scopeTrig.toNat = k) ∧
        ((∀ i, 9 ≤ i → i ≤ 109 → ¬ (b (i - 1) < level ∧ level ≤ b i)) →
          t.regs.scopeTrig = 10))

/-! ## Errors (60_exceptions) -/

/-- Errors are precise: a command that breaks a field-value rule sets ERR, takes no draw, and changes
no register but the four error registers (R68, R121). -/
def Obligations.ErroringCommandIsPrecise : Prop :=
  ∀ (s : State) (i : Instr), i.wellFormed s.cfg = false →
    ∃ t cause, exec i s = .next t ∧ t.regs = s.regs.recorded cause (encode i) ∧
      cause ≠ .illegalOpcode ∧ cause ≠ .reservedBits ∧ NoDraw s t

/-- A command that breaks no field-value rule raises nothing: but for ERR_CLEAR the four error
registers are as they were (R68, R121). -/
def Obligations.LegalCommandRaisesNothing : Prop :=
  ∀ (s : State) (i : Instr), i.wellFormed s.cfg = true → i ≠ .errClear →
    ∃ t, exec i s = .next t ∧ t.regs.err = s.regs.err ∧ t.regs.errCause = s.regs.errCause ∧
      t.regs.errCmdLo = s.regs.errCmdLo ∧ t.regs.errCmdHi = s.regs.errCmdHi

/-- First-error capture: while ERR = 1, a step over any word that raises leaves every register as it
was and takes no draw (R122). -/
def Obligations.FirstErrorIsKept : Prop :=
  ∀ (s : State) (w : Word) (rest : List Word), s.port = w :: rest → s.regs.err = true →
    ((∃ cause, decode w = .error cause) ∨ (∃ i, decode w = .ok i ∧ i.wellFormed s.cfg = false)) →
    ∃ t, step s = .next t ∧ t.regs = s.regs ∧ t.cfg = s.cfg ∧ t.env = s.env

/-! ## The whole machine -/

/-- Every step keeps the invariants of the state (R34). -/
def Obligations.StepKeepsInvariants : Prop :=
  ∀ s t : State, s.Inv → step s = .next t → t.Inv

/-- The invariants hold after reset of every legal instance, and of the instance of `State.reset`
(R34, R132). -/
def Obligations.ResetHasInvariants : Prop :=
  (∀ p : Params, p.Legal → (State.resetOf p).Inv) ∧ State.reset.Inv

/-- The reset input and power-on put every register, parameter entry and buffer entry to the value of
the reset column (R35, R132). -/
def Obligations.ResetValues : Prop :=
  (∀ s : State, s.assertReset.regs = Regs.reset s.cfg) ∧
  State.reset.regs = Regs.reset Config.params ∧
  ∀ p : Params, ∀ r : Regs, r = Regs.reset p →
    r.err = false ∧ r.errCause = none ∧ r.errCmdLo = 0 ∧ r.errCmdHi = 0 ∧ r.result = 0 ∧
    r.active = 0 ∧ (∀ i : Slot, r.latch[i.val] = false) ∧ readReg p r .cva = 0 ∧
    r.scopeDelay.toNat = p.scanDelayReset.val ∧ r.scopeWr = 0 ∧ r.scopeAvg = 0 ∧
    r.scopeRmin = 0 ∧ r.scopeRmax = 4095 ∧ r.scopeTrig = 10 ∧
    (∀ b : Button, readReg p r (.btnState b) = 0 ∧ (r.btn[b.val]).hold = 500 ∧ r.t0 b = 0) ∧
    (∀ c : Channel, r.acc c = 0 ∧ (r.ch[c.val]).offset = 0) ∧
    (∀ i : Slot, r.pwm[i.val] = 0) ∧
    (∀ (set : BitVec 5) (i : Slot), set.toNat < p.totalPresets.val →
      r.param set i = ⟨0, 0, 255, .bare⟩) ∧
    r.param p.settingsSet 0 = ⟨0, 0, 2, .namedOption⟩ ∧
    r.param p.settingsSet 1 = ⟨0, 0, 2, .numeric⟩ ∧
    r.param p.settingsSet 2 = ⟨0, 0, 100, .numeric⟩ ∧
    ∀ j : Fin 200, r.buf[j.val] = 0

/-- A command writes only the registers whose "written by" column names it (R35), and what it drives on
the data output, if anything, is RESULT (R8; read from the write event, log 13). -/
def Obligations.OnlyNamedCommandsWrite : Prop :=
  ∀ (s t : State) (i : Instr), exec i s = .next t →
    ∃ ws : List Write, t.events = ws ++ s.events ∧ (∀ w ∈ ws, Write.allowedIn i w = true) ∧
      (s.events = [] → dataOutput t = none ∨ dataOutput t = some t.regs.result)

/-- No write event of any step puts a register outside its legal range, a stored value outside its
entry's range as it stands at that event, or touches a set that does not exist; and after every number of
a step's write events each register is in its own legal range, so no torn display read sees an illegal
register (R32, R34, R140). -/
def Obligations.EveryWriteEventIsLegal : Prop :=
  ∀ s t : State, s.Inv → step s = .next t →
    (∀ (before after : List Write) (w : Write), t.trace = before ++ w :: after →
      w.Legal s.cfg (s.regs.applyAll before)) ∧
    ∀ k : Nat, (s.regs.applyAll (t.trace.take k)).EachLegal s.cfg

/-- The command as one step and the command as write events agree: from a block with nothing pending,
the control agent's moves (one to start the command, one for each write event) reach the step's next
state, and between them a display read of any register sees the reset-or-last-written value, the
registers after the write events so far (R45, R46, R116;
the interleaving machine is the model's, log 6). -/
def Obligations.InterleavedCommandReachesStep : Prop :=
  ∀ s t : State, step s = .next t →
    Interleaved.controls (t.trace.length + 1) ⟨s, []⟩ = ⟨t, []⟩ ∧
    ∀ (k : Nat) (a : BitVec 16), k ≤ t.trace.length →
      displayRead (Interleaved.controls (k + 1) ⟨s, []⟩).block a =
        memRead s.cfg (s.regs.applyAll (t.trace.take k)) a
end

