-- ==== Sys2Proof/Laws/Operands.lean ====
section
/-! SUPPORT. What the operand checks and the codes can do, said once (30_encoding R68, 42_takeover R85,
R86, 10_state R32). -/

namespace Sys2Proof.Machine

/-! ## The entry that SET and SLOT name -/

theorem slotOf_of_toNat (slot : BitVec 2) (i : Slot) (h : slot.toNat = i.val) :
    slotOf slot = some i := by
  have hi := i.isLt
  simp [slotOf, h]

theorem slotOf_three : slotOf 3#2 = none := by decide

theorem paramIndex_of_legal (p : Params) (set : BitVec 5) (slot : BitVec 2) (i : Slot)
    (hset : set.toNat < p.nSets) (hslot : slot.toNat = i.val) :
    paramIndex p set slot = some (set, i) := by
  simp [paramIndex, hset, slotOf_of_toNat slot i hslot]

theorem paramIndex_of_illegal (p : Params) (set : BitVec 5) (slot : BitVec 2)
    (h : p.nSets ≤ set.toNat ∨ slot = 3) : paramIndex p set slot = none := by
  unfold paramIndex
  rcases h with h | rfl
  · rw [if_neg (by omega)]
  · split <;> simp [slotOf_three]

/-- A slot field that is not 3 names a slot. -/
theorem exists_slot_of_ne_three (slot : BitVec 2) (h : slot ≠ 3) : ∃ i : Slot, slot.toNat = i.val := by
  have hlt := slot.isLt
  have hne : slot.toNat ≠ 3 := fun e => h (BitVec.eq_of_toNat_eq (by simpa using e))
  exact ⟨⟨slot.toNat, by omega⟩, rfl⟩

/-! ## Display modes -/

@[simp] theorem dmodeOf_dmodeCode (d : DMode) : dmodeOf (dmodeCode d) = some d := by cases d <;> rfl

theorem dmodeOf_three : dmodeOf 3 = none := rfl

/-- A DMODE field that is not 3 names a display mode. -/
theorem exists_dmode_of_ne_three (dmode : BitVec 2) (h : dmode ≠ 3) :
    ∃ d : DMode, dmodeCode d = dmode := by
  have hlt := dmode.isLt
  have hne : dmode.toNat ≠ 3 := fun e => h (BitVec.eq_of_toNat_eq (by simpa using e))
  have hc : dmode.toNat = 0 ∨ dmode.toNat = 1 ∨ dmode.toNat = 2 := by omega
  rcases hc with hc | hc | hc
  · exact ⟨.bare, BitVec.eq_of_toNat_eq (by simp [dmodeCode, hc])⟩
  · exact ⟨.numeric, BitVec.eq_of_toNat_eq (by simp [dmodeCode, hc])⟩
  · exact ⟨.namedOption, BitVec.eq_of_toNat_eq (by simp [dmodeCode, hc])⟩

/-! ## Clamping -/

theorem clampByte_toNat (v lo hi : BitVec 8) :
    (clampByte v lo hi).toNat = min (max v.toNat lo.toNat) hi.toNat := by
  have h1 := v.isLt
  have h2 := lo.isLt
  have h3 := hi.isLt
  simp only [clampByte, clampInt, BitVec.toNat_ofInt]
  omega

end Sys2Proof.Machine
end

