-- ==== Sys2Proof/Laws/State.lean ====
section
/-! SUPPORT. The small lemmas of every update of the state, each true by definition: what a write
event, a draw, a supplied value, the port's moves and reset do to each field, so that no later proof
unfolds a record update. -/

namespace Sys2Proof.Machine

variable (s : State) (r : Regs)

/-! ## One write event of the registers -/

@[simp] theorem Regs.apply_status (e : Bool) : r.apply (.status e) = { r with err := e } := rfl
@[simp] theorem Regs.apply_errCause (v : Option ErrorCause) :
    r.apply (.errCause v) = { r with errCause := v } := rfl
@[simp] theorem Regs.apply_errCmdLo (v : Half) :
    r.apply (.errCmdLo v) = { r with errCmdLo := v } := rfl
@[simp] theorem Regs.apply_errCmdHi (v : Half) :
    r.apply (.errCmdHi v) = { r with errCmdHi := v } := rfl
@[simp] theorem Regs.apply_result (v : Half) :
    r.apply (.result v) = { r with result := v } := rfl
@[simp] theorem Regs.apply_active (v : BitVec 5) :
    r.apply (.active v) = { r with active := v } := rfl
@[simp] theorem Regs.apply_latch (v : Vector Bool 3) :
    r.apply (.latch v) = { r with latch := v } := rfl
@[simp] theorem Regs.apply_cva (v : Cva) :
    r.apply (.cva v) = { r with cva := v } := rfl
@[simp] theorem Regs.apply_scopeDelay (v : Half) :
    r.apply (.scopeDelay v) = { r with scopeDelay := v } := rfl
@[simp] theorem Regs.apply_scopeWr (v : Fin 100) :
    r.apply (.scopeWr v) = { r with scopeWr := v } := rfl
@[simp] theorem Regs.apply_scopeAvg (v : Half) :
    r.apply (.scopeAvg v) = { r with scopeAvg := v } := rfl
@[simp] theorem Regs.apply_scopeRmin (v : Half) :
    r.apply (.scopeRmin v) = { r with scopeRmin := v } := rfl
@[simp] theorem Regs.apply_scopeRmax (v : Half) :
    r.apply (.scopeRmax v) = { r with scopeRmax := v } := rfl
@[simp] theorem Regs.apply_scopeTrig (v : BitVec 8) :
    r.apply (.scopeTrig v) = { r with scopeTrig := v } := rfl
@[simp] theorem Regs.apply_btnState (b : Button) (e : ButtonEvent) (st : Stage) (sh : BitVec 8) :
    r.apply (.btnState b e st sh) =
      { r with btn := r.btn.set b.val { r.btn[b.val] with evt := e, stage := st, shift := sh } } := rfl
@[simp] theorem Regs.apply_btnHold (b : Button) (v : Half) :
    r.apply (.btnHold b v) = { r with btn := r.btn.set b.val { r.btn[b.val] with hold := v } } := rfl
@[simp] theorem Regs.apply_btnT0Lo (b : Button) (v : Half) :
    r.apply (.btnT0Lo b v) = { r with btn := r.btn.set b.val { r.btn[b.val] with t0Lo := v } } := rfl
@[simp] theorem Regs.apply_btnT0Hi (b : Button) (v : Half) :
    r.apply (.btnT0Hi b v) = { r with btn := r.btn.set b.val { r.btn[b.val] with t0Hi := v } } := rfl
@[simp] theorem Regs.apply_accLo (c : Channel) (v : Half) :
    r.apply (.accLo c v) = { r with ch := r.ch.set c.val { r.ch[c.val] with accLo := v } } := rfl
@[simp] theorem Regs.apply_accHi (c : Channel) (v : Half) :
    r.apply (.accHi c v) = { r with ch := r.ch.set c.val { r.ch[c.val] with accHi := v } } := rfl
@[simp] theorem Regs.apply_chOffset (c : Channel) (v : BitVec 12) :
    r.apply (.chOffset c v) = { r with ch := r.ch.set c.val { r.ch[c.val] with offset := v } } := rfl
@[simp] theorem Regs.apply_pwm (i : Slot) (v : Half) :
    r.apply (.pwm i v) = { r with pwm := r.pwm.set i.val v } := rfl
@[simp] theorem Regs.apply_pval (set : BitVec 5) (i : Slot) (d : DMode) (v : BitVec 8) :
    r.apply (.pval set i d v) = { r with params := (r.params.set set.toNat
      (r.params[set.toNat].set i.val { r.params[set.toNat][i.val] with dmode := d, value := v })) } := rfl
@[simp] theorem Regs.apply_prange (set : BitVec 5) (i : Slot) (mx mn : BitVec 8) :
    r.apply (.prange set i mx mn) = { r with params := (r.params.set set.toNat
      (r.params[set.toNat].set i.val { r.params[set.toNat][i.val] with max := mx, min := mn })) } := rfl
@[simp] theorem Regs.apply_buf (j : Fin 200) (v : BitVec 12) :
    r.apply (.buf j v) = { r with buf := r.buf.set j.val v } := rfl

/-! ## A write event of the state -/

@[simp] theorem State.write_cfg (w : Write) : (s.write w).cfg = s.cfg := rfl
@[simp] theorem State.write_regs (w : Write) : (s.write w).regs = s.regs.apply w := rfl
@[simp] theorem State.write_env (w : Write) : (s.write w).env = s.env := rfl
@[simp] theorem State.write_port (w : Write) : (s.write w).port = s.port := rfl
@[simp] theorem State.write_events (w : Write) : (s.write w).events = w :: s.events := rfl

/-! ## Draws -/

@[simp] theorem State.takeAdc_cfg (c : Channel) (n : Nat) : (s.takeAdc c n).cfg = s.cfg := rfl
@[simp] theorem State.takeAdc_regs (c : Channel) (n : Nat) : (s.takeAdc c n).regs = s.regs := rfl
@[simp] theorem State.takeAdc_env (c : Channel) (n : Nat) :
    (s.takeAdc c n).env = { s.env with adc := s.env.adc.set c.val (s.env.adc[c.val].advance n) } := rfl
@[simp] theorem State.takeAdc_port (c : Channel) (n : Nat) : (s.takeAdc c n).port = s.port := rfl
@[simp] theorem State.takeAdc_events (c : Channel) (n : Nat) :
    (s.takeAdc c n).events = s.events := rfl

/-! ## One poll of the pins and the clock -/

@[simp] theorem State.takePoll_cfg (b : Button) : (s.takePoll b).cfg = s.cfg := rfl
@[simp] theorem State.takePoll_regs (b : Button) : (s.takePoll b).regs = s.regs := rfl
@[simp] theorem State.takePoll_env (b : Button) :
    (s.takePoll b).env = { s.env with
      pin := s.env.pin.set b.val (s.env.pin[b.val].advance 1), now := s.env.now.advance 1 } := rfl
@[simp] theorem State.takePoll_port (b : Button) : (s.takePoll b).port = s.port := rfl
@[simp] theorem State.takePoll_events (b : Button) : (s.takePoll b).events = s.events := rfl

/-! ## Waiting -/

@[simp] theorem State.idle_cfg : (s.idle).cfg = s.cfg := rfl
@[simp] theorem State.idle_regs : (s.idle).regs = s.regs := rfl
@[simp] theorem State.idle_env : (s.idle).env = s.env := rfl
@[simp] theorem State.idle_port : (s.idle).port = s.port := rfl
@[simp] theorem State.idle_events : (s.idle).events = [] := rfl

/-! ## A word put next on the port -/

@[simp] theorem State.putNext_cfg (w : Word) : (s.putNext w).cfg = s.cfg := rfl
@[simp] theorem State.putNext_regs (w : Word) : (s.putNext w).regs = s.regs := rfl
@[simp] theorem State.putNext_env (w : Word) : (s.putNext w).env = s.env := rfl
@[simp] theorem State.putNext_port (w : Word) : (s.putNext w).port = w :: s.port := rfl
@[simp] theorem State.putNext_events (w : Word) : (s.putNext w).events = s.events := rfl

/-! ## A word issued on the port -/

@[simp] theorem State.issue_cfg (w : Word) : (s.issue w).cfg = s.cfg := rfl
@[simp] theorem State.issue_regs (w : Word) : (s.issue w).regs = s.regs := rfl
@[simp] theorem State.issue_env (w : Word) : (s.issue w).env = s.env := rfl
@[simp] theorem State.issue_port (w : Word) : (s.issue w).port = s.port ++ [w] := rfl
@[simp] theorem State.issue_events (w : Word) : (s.issue w).events = s.events := rfl

/-! ## The reset input -/

@[simp] theorem State.assertReset_cfg : (s.assertReset).cfg = s.cfg := rfl
@[simp] theorem State.assertReset_regs : (s.assertReset).regs = Regs.reset s.cfg := rfl
@[simp] theorem State.assertReset_env : (s.assertReset).env = s.env := rfl
@[simp] theorem State.assertReset_port : (s.assertReset).port = s.port := rfl
@[simp] theorem State.assertReset_events : (s.assertReset).events = [] := rfl

/-! ## A supplied value (supplyAdc) -/

@[simp] theorem State.supplyAdc_cfg (c : Channel) (v : BitVec 12) :
    (s.supplyAdc c v).cfg = s.cfg := rfl
@[simp] theorem State.supplyAdc_regs (c : Channel) (v : BitVec 12) :
    (s.supplyAdc c v).regs = s.regs := rfl
@[simp] theorem State.supplyAdc_port (c : Channel) (v : BitVec 12) :
    (s.supplyAdc c v).port = s.port := rfl
@[simp] theorem State.supplyAdc_events (c : Channel) (v : BitVec 12) :
    (s.supplyAdc c v).events = s.events := rfl

/-! ## A supplied value (supplyPin) -/

@[simp] theorem State.supplyPin_cfg (b : Button) (v : Bool) : (s.supplyPin b v).cfg = s.cfg := rfl
@[simp] theorem State.supplyPin_regs (b : Button) (v : Bool) :
    (s.supplyPin b v).regs = s.regs := rfl
@[simp] theorem State.supplyPin_port (b : Button) (v : Bool) :
    (s.supplyPin b v).port = s.port := rfl
@[simp] theorem State.supplyPin_events (b : Button) (v : Bool) :
    (s.supplyPin b v).events = s.events := rfl

/-! ## A supplied value (supplyNow) -/

@[simp] theorem State.supplyNow_cfg (v : BitVec 32) : (s.supplyNow v).cfg = s.cfg := rfl
@[simp] theorem State.supplyNow_regs (v : BitVec 32) : (s.supplyNow v).regs = s.regs := rfl
@[simp] theorem State.supplyNow_port (v : BitVec 32) : (s.supplyNow v).port = s.port := rfl
@[simp] theorem State.supplyNow_events (v : BitVec 32) : (s.supplyNow v).events = s.events := rfl

/-! ## Reset -/

@[simp] theorem State.resetOf_cfg (p : Params) : (State.resetOf p).cfg = p := rfl
@[simp] theorem State.resetOf_regs (p : Params) : (State.resetOf p).regs = Regs.reset p := rfl
@[simp] theorem State.resetOf_env (p : Params) : (State.resetOf p).env = Env.reset := rfl
@[simp] theorem State.resetOf_port (p : Params) : (State.resetOf p).port = [] := rfl
@[simp] theorem State.resetOf_events (p : Params) : (State.resetOf p).events = [] := rfl

/-! ## Sequences of write events -/

@[simp] theorem Regs.applyAll_nil : r.applyAll [] = r := rfl
@[simp] theorem Regs.applyAll_cons (w : Write) (ws : List Write) :
    r.applyAll (w :: ws) = (r.apply w).applyAll ws := rfl
@[simp] theorem Regs.applyAll_append (ws ws' : List Write) :
    r.applyAll (ws ++ ws') = (r.applyAll ws).applyAll ws' := by
  simp [Regs.applyAll, List.foldl_append]

/-- A write event at the end of a command's trace is applied last. -/
theorem State.trace_write (w : Write) : (s.write w).trace = s.trace ++ [w] := by
  simp [State.trace]

end Sys2Proof.Machine
end

