-- ==== Sys2Proof/Laws/Ops.lean ====
section
/-! SUPPORT. For each shared operation, what it can do, said once: the halves of 32-bit values, draws,
the filter's read, error recording, the timestamp write, and the port. Later proofs cite these and
do not unfold the operations. -/

namespace Sys2Proof.Machine

/-! ## Halves -/

@[simp] theorem lowHalf_toNat (v : BitVec 32) : (lowHalf v).toNat = v.toNat % 2 ^ 16 := by
  simp [lowHalf]

@[simp] theorem highHalf_toNat (v : BitVec 32) : (highHalf v).toNat = v.toNat / 2 ^ 16 := by
  have := v.isLt
  simp only [highHalf, BitVec.extractLsb'_toNat, Nat.shiftRight_eq_div_pow]
  omega

@[simp] theorem joinHalves_toNat (lo hi : Half) :
    (joinHalves lo hi).toNat = hi.toNat * 2 ^ 16 + lo.toNat := by
  have := lo.isLt
  simp only [joinHalves, BitVec.toNat_append, Nat.shiftLeft_eq]
  rw [← Nat.shiftLeft_eq, Nat.shiftLeft_add_eq_or_of_lt (by omega)]

/-- The two halves of a 32-bit value give it back. -/
@[simp] theorem joinHalves_low_high (v : BitVec 32) : joinHalves (lowHalf v) (highHalf v) = v := by
  apply BitVec.eq_of_toNat_eq
  simp only [joinHalves_toNat, lowHalf_toNat, highHalf_toNat]
  omega

theorem lowHalf_eq_ofNat (v : BitVec 32) : lowHalf v = BitVec.ofNat 16 v.toNat := by
  apply BitVec.eq_of_toNat_eq
  simp

theorem highHalf_eq_ofNat (v : BitVec 32) : highHalf v = BitVec.ofNat 16 (v.toNat / 2 ^ 16) := by
  apply BitVec.eq_of_toNat_eq
  have := v.isLt
  simp only [highHalf_toNat, BitVec.toNat_ofNat]
  omega

/-! ## Draws -/

/-- Each draw is fresh: after `n` draws the k-th next one is what was the (n + k)-th. -/
@[simp] theorem Source.peek_advance {α : Type} (src : Source α) (free : Nat → α) (n k : Nat) :
    (src.advance n).peek free k = src.peek free (n + k) := by
  simp [Source.peek, Source.advance, Nat.add_assoc]

@[simp] theorem Source.advance_advance {α : Type} (src : Source α) (m n : Nat) :
    (src.advance m).advance n = src.advance (m + n) := by
  simp [Source.advance, Nat.add_assoc]

/-! ## The filter's read -/

/-- The sum of `n` raw conversions is at most `n` times ADC_MAX. -/
theorem sum_draws_le (f : Nat → BitVec 12) (n : Nat) :
    ((List.range n).map fun k => (f k).toNat).sum ≤ 4095 * n := by
  induction n with
  | zero => simp
  | succ n ih =>
    have := (f n).isLt
    rw [List.range_succ, List.map_append, List.sum_append]
    simp only [List.map_cons, List.map_nil, List.sum_cons, List.sum_nil]
    omega

theorem chSample_le (s : State) (c : Channel) : chSample s c ≤ 4095 := by
  have h := sum_draws_le (s.adcDraw c) 16
  simp only [chSample, nRaw, rawShift]
  omega

theorem emaStep_le (p : Params) (acc sample : Nat) : emaStep p acc sample ≤ 4095 * 2 ^ 16 :=
  Nat.min_le_right _ _

theorem chAcc_le (s : State) (c : Channel) : chAcc s c ≤ 4095 * 2 ^ 16 := emaStep_le _ _ _

theorem filtered_toNat (acc : Nat) : (filtered acc).toNat = min 4095 ((acc + 2 ^ 15) / 2 ^ 16) := by
  simp only [filtered, adcMax, BitVec.toNat_ofNat]
  omega

/-- What a read of the filter does: the channel's accumulator takes the stepped value and 16 draws are
taken; two write events, low half first. -/
theorem chUpdate_eq (s : State) (c : Channel) :
    chUpdate s c =
      { s with
        regs := { s.regs with ch := (s.regs.ch.set c.val
          ⟨lowHalf (BitVec.ofNat 32 (chAcc s c)), highHalf (BitVec.ofNat 32 (chAcc s c)),
            (s.regs.ch[c.val]).offset⟩) }
        env := { s.env with adc := s.env.adc.set c.val (s.env.adc[c.val].advance 16) }
        events := [.accHi c (highHalf (BitVec.ofNat 32 (chAcc s c))),
          .accLo c (lowHalf (BitVec.ofNat 32 (chAcc s c)))] ++ s.events } := by
  simp [chUpdate, State.write, State.takeAdc]

@[simp] theorem chUpdate_cfg (s : State) (c : Channel) : (chUpdate s c).cfg = s.cfg := rfl
@[simp] theorem chUpdate_port (s : State) (c : Channel) : (chUpdate s c).port = s.port := rfl
@[simp] theorem chUpdate_env (s : State) (c : Channel) : (chUpdate s c).env =
    { s.env with adc := s.env.adc.set c.val (s.env.adc[c.val].advance 16) } := rfl

/-- The accumulator of a channel after a read of any channel. -/
theorem chUpdate_acc (s : State) (c d : Channel) :
    (chUpdate s c).regs.acc d = if d = c then chAcc s c else s.regs.acc d := by
  have h := chAcc_le s c
  rw [chUpdate_eq]
  by_cases hd : d = c
  · subst hd
    simp only [Regs.acc, Vector.getElem_set_self, joinHalves_low_high, BitVec.toNat_ofNat, if_true]
    omega
  · have hv : c.val ≠ d.val := fun e => hd (Fin.ext e.symm)
    simp [Regs.acc, Vector.getElem_set_ne, hv, hd]

/-- A read of one channel leaves every other channel's registers as they were. -/
theorem chUpdate_ch_ne (s : State) (c d : Channel) (h : d ≠ c) :
    (chUpdate s c).regs.ch[d.val] = s.regs.ch[d.val] := by
  have hv : c.val ≠ d.val := fun e => h (Fin.ext e.symm)
  simp [chUpdate_eq, Vector.getElem_set_ne, hv]

/-! ## Errors -/

/-- What recording an error does to the registers (60_exceptions R121). -/
@[simp] theorem State.raise_regs (s : State) (cause : ErrorCause) (w : Word) :
    (s.raise cause w).regs = s.regs.recorded cause w := by
  unfold State.raise Regs.recorded
  split <;> rename_i h <;> simp [h, lowHalf_eq_ofNat, highHalf_eq_ofNat]

@[simp] theorem State.raise_cfg (s : State) (cause : ErrorCause) (w : Word) :
    (s.raise cause w).cfg = s.cfg := by unfold State.raise; split <;> rfl
@[simp] theorem State.raise_env (s : State) (cause : ErrorCause) (w : Word) :
    (s.raise cause w).env = s.env := by unfold State.raise; split <;> rfl
@[simp] theorem State.raise_port (s : State) (cause : ErrorCause) (w : Word) :
    (s.raise cause w).port = s.port := by unfold State.raise; split <;> rfl

/-- The write events of an error: cause and word on the first error only, ERR last. -/
theorem State.raise_events (s : State) (cause : ErrorCause) (w : Word) :
    (s.raise cause w).events =
      (if s.regs.err then [.status true]
        else [.status true, .errCmdHi (highHalf w), .errCmdLo (lowHalf w), .errCause (some cause)]) ++
        s.events := by
  unfold State.raise; split <;> simp

/-- What ERR_CLEAR's operation does, ERR first (45_system R115). -/
theorem State.clearError_eq (s : State) :
    s.clearError =
      { s with
        regs := { s.regs with err := false, errCause := none, errCmdLo := 0, errCmdHi := 0 }
        events := [.errCmdHi 0, .errCmdLo 0, .errCause none, .status false] ++ s.events } := rfl

/-! ## The timestamp of a button -/

/-- After the timestamp write the two halves hold the timestamp, written or already there. -/
theorem State.writeT0_regs (s : State) (b : Button) (t0 : BitVec 32) :
    (s.writeT0 b t0).regs =
      { s.regs with btn := (s.regs.btn.set b.val
        { s.regs.btn[b.val] with t0Lo := lowHalf t0, t0Hi := highHalf t0 }) } := by
  unfold State.writeT0
  split
  · rename_i h
    have hlo : lowHalf t0 = (s.regs.btn[b.val]).t0Lo := by
      apply BitVec.eq_of_toNat_eq
      have := (s.regs.btn[b.val]).t0Lo.isLt
      rw [lowHalf_toNat, h, Regs.t0, joinHalves_toNat]
      omega
    have hhi : highHalf t0 = (s.regs.btn[b.val]).t0Hi := by
      apply BitVec.eq_of_toNat_eq
      have := (s.regs.btn[b.val]).t0Lo.isLt
      rw [highHalf_toNat, h, Regs.t0, joinHalves_toNat]
      omega
    rw [hlo, hhi]
    change s.regs = { s.regs with btn := s.regs.btn.set b.val s.regs.btn[b.val] }
    rw [Vector.set_getElem_self]
  · simp

@[simp] theorem State.writeT0_cfg (s : State) (b : Button) (t0 : BitVec 32) :
    (s.writeT0 b t0).cfg = s.cfg := by unfold State.writeT0; split <;> rfl
@[simp] theorem State.writeT0_env (s : State) (b : Button) (t0 : BitVec 32) :
    (s.writeT0 b t0).env = s.env := by unfold State.writeT0; split <;> rfl
@[simp] theorem State.writeT0_port (s : State) (b : Button) (t0 : BitVec 32) :
    (s.writeT0 b t0).port = s.port := by unfold State.writeT0; split <;> rfl

/-! ## The port -/

theorem fetch_eq_none (s : State) : fetch s = none ↔ s.port = [] := by
  unfold fetch; split <;> simp_all

/-- A fetch takes the first word and starts with no write event; nothing else changes. -/
theorem fetch_cons (s : State) (w : Word) (rest : List Word) (h : s.port = w :: rest) :
    fetch s = some (w, { s with port := rest, events := [] }) := by
  unfold fetch; rw [h]

/-- All that a step can do: wait, record an illegal word, or run a decoded command. -/
theorem step_cases (s : State) (o : Host.Outcome State Fault Refusal) (h : step s = o) :
    (s.port = [] ∧ o = .next { s with events := [] }) ∨
    (∃ w rest cause, s.port = w :: rest ∧ decode w = .error cause ∧
      o = .next (({ s with port := rest, events := [] } : State).raise cause w)) ∨
    (∃ w rest i, s.port = w :: rest ∧ decode w = .ok i ∧
      o = exec i { s with port := rest, events := [] }) := by
  subst h
  cases hp : s.port with
  | nil => exact .inl ⟨rfl, by simp [step, fetch, hp, State.idle]⟩
  | cons w rest =>
    cases hd : decode w with
    | error cause => exact .inr (.inl ⟨w, rest, cause, rfl, hd, by simp [step, fetch, hp, hd]⟩)
    | ok i => exact .inr (.inr ⟨w, rest, i, rfl, hd, by simp [step, fetch, hp, hd]⟩)

end Sys2Proof.Machine
end

