-- ==== Sys2Proof/Laws/PerInstr.lean ====
section
/-! SUPPORT. Facts about every command as syntax, one lemma per constructor: its word carries its row's
opcode in bits 31..24, and the row's match under the row's mask (30_encoding R53, R65). -/

namespace Sys2Proof.Laws

/-- OP of a command's row (30_encoding R65). -/
def opcodeNumber : Instr → Nat
  | .nop => 0x00
  | .chInit _ _ => 0x01
  | .chRead _ _ => 0x02
  | .btnInit _ _ => 0x03
  | .btnPoll _ => 0x04
  | .pbSetRange _ _ _ _ => 0x05
  | .pbSetValue _ _ _ _ => 0x06
  | .pbSelect _ => 0x07
  | .pbRearm => 0x08
  | .pbUpdate _ => 0x09
  | .cvaWrite _ _ _ => 0x0A
  | .scopeHalve => 0x0B
  | .scopeDouble => 0x0C
  | .scopeAcq => 0x0D
  | .regRead _ => 0x0E
  | .errClear => 0x0F

/-- The mask of a command's row (30_encoding R65). -/
def rowMask : Instr → Word
  | .nop => 0xFFFFFFFF
  | .chInit _ _ => 0xFFFCF000
  | .chRead _ _ => 0xFFFCFFFE
  | .btnInit _ _ => 0xFFFE0000
  | .btnPoll _ => 0xFFFEFFFF
  | .pbSetRange _ _ _ _ => 0xFF010000
  | .pbSetValue _ _ _ _ => 0xFF01FC00
  | .pbSelect _ => 0xFFFFFFE0
  | .pbRearm => 0xFFFFFFFF
  | .pbUpdate _ => 0xFFFFFFFE
  | .cvaWrite _ _ _ => 0xFFFFF800
  | .scopeHalve => 0xFFFFFFFF
  | .scopeDouble => 0xFFFFFFFF
  | .scopeAcq => 0xFFFFFFFF
  | .regRead _ => 0xFFFF0000
  | .errClear => 0xFFFFFFFF

/-- The match of a command's row (30_encoding R65). -/
def rowMatch : Instr → Word
  | .nop => 0x00000000
  | .chInit _ _ => 0x01000000
  | .chRead _ _ => 0x02000000
  | .btnInit _ _ => 0x03000000
  | .btnPoll _ => 0x04000000
  | .pbSetRange _ _ _ _ => 0x05000000
  | .pbSetValue _ _ _ _ => 0x06000000
  | .pbSelect _ => 0x07000000
  | .pbRearm => 0x08000000
  | .pbUpdate _ => 0x09000000
  | .cvaWrite _ _ _ => 0x0A000000
  | .scopeHalve => 0x0B000000
  | .scopeDouble => 0x0C000000
  | .scopeAcq => 0x0D000000
  | .regRead _ => 0x0E000000
  | .errClear => 0x0F000000

/-! ## The opcode field -/

/-- The top byte of a command's word is its row's opcode. -/
def OpcodeField.Statement (i : Instr) : Prop := (encode i).toNat / 2 ^ 24 = opcodeNumber i

/-- The opcode field read bit by bit is the opcode field read as a number. -/
theorem opcodeField_of_field (i : Instr)
    (h : field (encode i) 24 8 = BitVec.ofNat 8 (opcodeNumber i)) : OpcodeField.Statement i := by
  have hb : opcodeNumber i < 256 := by cases i <;> simp [opcodeNumber]
  have hw := (encode i).isLt
  have h2 := congrArg BitVec.toNat h
  simp only [field, BitVec.extractLsb'_toNat, Nat.shiftRight_eq_div_pow, BitVec.toNat_ofNat] at h2
  unfold OpcodeField.Statement
  omega

theorem OpcodeField.nop :
    OpcodeField.Statement .nop := by
  unfold OpcodeField.Statement; decide

theorem OpcodeField.chInit (c : Channel) (o : BitVec 12) :
    OpcodeField.Statement (.chInit c o) := by
  apply opcodeField_of_field
  apply BitVec.eq_of_getLsbD_eq
  intro j hj
  interval_cases j <;> simp [field, encode, place, opcodeNumber]

theorem OpcodeField.chRead (c : Channel) (sm : Bool) :
    OpcodeField.Statement (.chRead c sm) := by
  apply opcodeField_of_field
  apply BitVec.eq_of_getLsbD_eq
  intro j hj
  interval_cases j <;> simp [field, encode, place, opcodeNumber]

theorem OpcodeField.btnInit (b : Button) (h : BitVec 16) :
    OpcodeField.Statement (.btnInit b h) := by
  apply opcodeField_of_field
  apply BitVec.eq_of_getLsbD_eq
  intro j hj
  interval_cases j <;> simp [field, encode, place, opcodeNumber]

theorem OpcodeField.btnPoll (b : Button) :
    OpcodeField.Statement (.btnPoll b) := by
  apply opcodeField_of_field
  apply BitVec.eq_of_getLsbD_eq
  intro j hj
  interval_cases j <;> simp [field, encode, place, opcodeNumber]

theorem OpcodeField.pbSetRange (st : BitVec 5) (sl : BitVec 2) (mx : BitVec 8) (mn : BitVec 8) :
    OpcodeField.Statement (.pbSetRange st sl mx mn) := by
  apply opcodeField_of_field
  apply BitVec.eq_of_getLsbD_eq
  intro j hj
  interval_cases j <;> simp [field, encode, place, opcodeNumber]

theorem OpcodeField.pbSetValue (st : BitVec 5) (sl : BitVec 2) (d : BitVec 2) (v : BitVec 8) :
    OpcodeField.Statement (.pbSetValue st sl d v) := by
  apply opcodeField_of_field
  apply BitVec.eq_of_getLsbD_eq
  intro j hj
  interval_cases j <;> simp [field, encode, place, opcodeNumber]

theorem OpcodeField.pbSelect (p : BitVec 5) :
    OpcodeField.Statement (.pbSelect p) := by
  apply opcodeField_of_field
  apply BitVec.eq_of_getLsbD_eq
  intro j hj
  interval_cases j <;> simp [field, encode, place, opcodeNumber]

theorem OpcodeField.pbRearm :
    OpcodeField.Statement .pbRearm := by
  unfold OpcodeField.Statement; decide

theorem OpcodeField.pbUpdate (e : Bool) :
    OpcodeField.Statement (.pbUpdate e) := by
  apply opcodeField_of_field
  apply BitVec.eq_of_getLsbD_eq
  intro j hj
  interval_cases j <;> simp [field, encode, place, opcodeNumber]

theorem OpcodeField.cvaWrite (d : BitVec 7) (t : BitVec 2) (m : BitVec 2) :
    OpcodeField.Statement (.cvaWrite d t m) := by
  apply opcodeField_of_field
  apply BitVec.eq_of_getLsbD_eq
  intro j hj
  interval_cases j <;> simp [field, encode, place, opcodeNumber]

theorem OpcodeField.scopeHalve :
    OpcodeField.Statement .scopeHalve := by
  unfold OpcodeField.Statement; decide

theorem OpcodeField.scopeDouble :
    OpcodeField.Statement .scopeDouble := by
  unfold OpcodeField.Statement; decide

theorem OpcodeField.scopeAcq :
    OpcodeField.Statement .scopeAcq := by
  unfold OpcodeField.Statement; decide

theorem OpcodeField.regRead (a : BitVec 16) :
    OpcodeField.Statement (.regRead a) := by
  apply opcodeField_of_field
  apply BitVec.eq_of_getLsbD_eq
  intro j hj
  interval_cases j <;> simp [field, encode, place, opcodeNumber]

theorem OpcodeField.errClear :
    OpcodeField.Statement .errClear := by
  unfold OpcodeField.Statement; decide

/-! ## The row's match and mask -/

/-- A command's word is its row's match under its row's mask. -/
def RowMatch.Statement (i : Instr) : Prop := encode i &&& rowMask i = rowMatch i

theorem RowMatch.nop :
    RowMatch.Statement .nop := by
  unfold RowMatch.Statement; decide

theorem RowMatch.chInit (c : Channel) (o : BitVec 12) :
    RowMatch.Statement (.chInit c o) := by
  apply BitVec.eq_of_getLsbD_eq
  intro j hj
  interval_cases j <;> simp [encode, place, rowMask, rowMatch]

theorem RowMatch.chRead (c : Channel) (sm : Bool) :
    RowMatch.Statement (.chRead c sm) := by
  apply BitVec.eq_of_getLsbD_eq
  intro j hj
  interval_cases j <;> simp [encode, place, rowMask, rowMatch]

theorem RowMatch.btnInit (b : Button) (h : BitVec 16) :
    RowMatch.Statement (.btnInit b h) := by
  apply BitVec.eq_of_getLsbD_eq
  intro j hj
  interval_cases j <;> simp [encode, place, rowMask, rowMatch]

theorem RowMatch.btnPoll (b : Button) :
    RowMatch.Statement (.btnPoll b) := by
  apply BitVec.eq_of_getLsbD_eq
  intro j hj
  interval_cases j <;> simp [encode, place, rowMask, rowMatch]

theorem RowMatch.pbSetRange (st : BitVec 5) (sl : BitVec 2) (mx : BitVec 8) (mn : BitVec 8) :
    RowMatch.Statement (.pbSetRange st sl mx mn) := by
  apply BitVec.eq_of_getLsbD_eq
  intro j hj
  interval_cases j <;> simp [encode, place, rowMask, rowMatch]

theorem RowMatch.pbSetValue (st : BitVec 5) (sl : BitVec 2) (d : BitVec 2) (v : BitVec 8) :
    RowMatch.Statement (.pbSetValue st sl d v) := by
  apply BitVec.eq_of_getLsbD_eq
  intro j hj
  interval_cases j <;> simp [encode, place, rowMask, rowMatch]

theorem RowMatch.pbSelect (p : BitVec 5) :
    RowMatch.Statement (.pbSelect p) := by
  apply BitVec.eq_of_getLsbD_eq
  intro j hj
  interval_cases j <;> simp [encode, place, rowMask, rowMatch]

theorem RowMatch.pbRearm :
    RowMatch.Statement .pbRearm := by
  unfold RowMatch.Statement; decide

theorem RowMatch.pbUpdate (e : Bool) :
    RowMatch.Statement (.pbUpdate e) := by
  apply BitVec.eq_of_getLsbD_eq
  intro j hj
  interval_cases j <;> simp [encode, place, rowMask, rowMatch]

theorem RowMatch.cvaWrite (d : BitVec 7) (t : BitVec 2) (m : BitVec 2) :
    RowMatch.Statement (.cvaWrite d t m) := by
  apply BitVec.eq_of_getLsbD_eq
  intro j hj
  interval_cases j <;> simp [encode, place, rowMask, rowMatch]

theorem RowMatch.scopeHalve :
    RowMatch.Statement .scopeHalve := by
  unfold RowMatch.Statement; decide

theorem RowMatch.scopeDouble :
    RowMatch.Statement .scopeDouble := by
  unfold RowMatch.Statement; decide

theorem RowMatch.scopeAcq :
    RowMatch.Statement .scopeAcq := by
  unfold RowMatch.Statement; decide

theorem RowMatch.regRead (a : BitVec 16) :
    RowMatch.Statement (.regRead a) := by
  apply BitVec.eq_of_getLsbD_eq
  intro j hj
  interval_cases j <;> simp [encode, place, rowMask, rowMatch]

theorem RowMatch.errClear :
    RowMatch.Statement .errClear := by
  unfold RowMatch.Statement; decide

end Sys2Proof.Laws
end

