-- ==== Sys2Proof/Laws/Scope.lean ====
section
/-! SUPPORT. What each operation of SCOPE_ACQ can do, said once: one sample into one entry, a run of
samples, the statistics and the trigger (44_scope). -/

namespace Sys2Proof.Machine

/-- One sample into one entry: one read of CH3, and the entry takes its value. -/
theorem sampleInto_regs (s : State) (j : Fin 200) :
    (sampleInto s j).regs =
      { s.regs with
        ch := (chUpdate s cvCh).regs.ch
        buf := s.regs.buf.set j.val (chValue s cvCh s.cfg.scopeSmooth) } := rfl

@[simp] theorem sampleInto_cfg (s : State) (j : Fin 200) : (sampleInto s j).cfg = s.cfg := rfl
@[simp] theorem sampleInto_port (s : State) (j : Fin 200) : (sampleInto s j).port = s.port := rfl
theorem sampleInto_env (s : State) (j : Fin 200) :
    (sampleInto s j).env = { s.env with adc := s.env.adc.set 3 (s.env.adc[3].advance 16) } := rfl

/-- The write events of a sample, newest first: the entry, then CH3's ACC. -/
theorem sampleInto_events (s : State) (j : Fin 200) :
    (sampleInto s j).events =
      [.buf j (chValue s cvCh s.cfg.scopeSmooth),
        .accHi cvCh (highHalf (BitVec.ofNat 32 (chAcc s cvCh))),
        .accLo cvCh (lowHalf (BitVec.ofNat 32 (chAcc s cvCh)))] ++ s.events := rfl

/-- A sample steps the filter of CH3 once. -/
theorem sampleInto_acc (s : State) (j : Fin 200) : (sampleInto s j).regs.acc cvCh = chAcc s cvCh := by
  have h := chUpdate_acc s cvCh cvCh
  rw [if_pos rfl] at h
  exact h

/-- The offset of every channel is what it was before a sample. -/
theorem sampleInto_offset (s : State) (j : Fin 200) (c : Channel) :
    ((sampleInto s j).regs.ch[c.val]).offset = (s.regs.ch[c.val]).offset := by
  by_cases hc : c = cvCh
  · subst hc
    simp [sampleInto_regs, chUpdate_eq]
  · rw [sampleInto_regs, show (chUpdate s cvCh).regs.ch[c.val] = s.regs.ch[c.val] from
      chUpdate_ch_ne s cvCh c hc]

/-- A run of samples: it changes the buffer's entries it names, the filter of CH3, and nothing else, and
takes 16 draws of CH3 for each sample. -/
theorem samples_run (l : List (Fin 200)) (s : State) :
    let t := l.foldl sampleInto s
    t.cfg = s.cfg ∧ t.port = s.port ∧
    t.env = { s.env with adc := s.env.adc.set 3 (s.env.adc[3].advance (16 * l.length)) } ∧
    t.regs = { s.regs with ch := t.regs.ch, buf := t.regs.buf } ∧
    (∀ c : Channel, c ≠ cvCh → t.regs.ch[c.val] = s.regs.ch[c.val]) ∧
    (∀ c : Channel, (t.regs.ch[c.val]).offset = (s.regs.ch[c.val]).offset) ∧
    ∀ j : Fin 200, j ∉ l → t.regs.buf[j.val] = s.regs.buf[j.val] := by
  induction l generalizing s with
  | nil =>
    have h : s.env.adc.set 3 (s.env.adc[3].advance 0) = s.env.adc := by
      have : s.env.adc[3].advance 0 = s.env.adc[3] := by simp [Source.advance]
      rw [this, Vector.set_getElem_self]
    exact ⟨rfl, rfl, by simp [h], rfl, fun _ _ => rfl, fun _ => rfl, fun _ _ => rfl⟩
  | cons k l ih =>
    obtain ⟨h1, h2, h3, h4, h5, h6, h7⟩ := ih (sampleInto s k)
    refine ⟨h1, h2, ?_, ?_, fun c hc => ?_, fun c => ?_, fun j hj => ?_⟩
    · rw [List.foldl_cons, h3, sampleInto_env]
      simp [Nat.mul_add, Nat.add_comm]
    · rw [List.foldl_cons, h4]
      rfl
    · rw [List.foldl_cons, h5 c hc]
      exact chUpdate_ch_ne s cvCh c hc
    · rw [List.foldl_cons, h6 c, sampleInto_offset]
    · rw [List.mem_cons, not_or] at hj
      have hv : k.val ≠ j.val := fun e => hj.1 (Fin.ext e.symm)
      rw [List.foldl_cons, h7 j hj.2]
      simp [sampleInto_regs, Vector.getElem_set_ne, hv]

/-- The statistics change AVG, RMIN and RMAX alone. -/
theorem fastStats_regs (s : State) :
    (fastStats s).regs =
      { s.regs with
        scopeAvg := (fastStats s).regs.scopeAvg
        scopeRmin := (fastStats s).regs.scopeRmin
        scopeRmax := (fastStats s).regs.scopeRmax } := rfl

/-- The statistics' write events, newest first: RMAX, RMIN, AVG (44_scope R108). -/
theorem fastStats_events (s : State) :
    (fastStats s).events =
      [.scopeRmax (fastStats s).regs.scopeRmax, .scopeRmin (fastStats s).regs.scopeRmin,
        .scopeAvg (fastStats s).regs.scopeAvg] ++ s.events := rfl

/-- The trigger step's write events, newest first: WR, then TRIG (44_scope R109). -/
theorem fastTrigger_events (s : State) :
    (fastTrigger s).events =
      [.scopeWr 0, .scopeTrig (fastTrigger s).regs.scopeTrig] ++ s.events := rfl

/-- The trigger step changes TRIG, and sets the ring index to 0. -/
theorem fastTrigger_regs (s : State) :
    (fastTrigger s).regs =
      { s.regs with
        scopeTrig := BitVec.ofNat 8
          (trigIndex (samples s.regs.buf) (trigLevel s.cfg (samples s.regs.buf) s.regs.scopeAvg))
        scopeWr := 0 } := rfl

/-- The trigger index is in the window: 9 to 109 (10_state R23). -/
theorem trigIndex_range (xs : List Nat) (level : Nat) :
    9 ≤ trigIndex xs level ∧ trigIndex xs level ≤ 109 := by
  unfold trigIndex
  cases h : (List.range' trigFirst (trigLast - trigFirst + 1)).find? (crossesAt xs level) with
  | none => simp
  | some k =>
    have hm := List.mem_of_find?_eq_some h
    simp only [trigFirst, trigLast, List.mem_range'_1] at hm
    simp only [Option.getD_some]
    omega

end Sys2Proof.Machine
end

