-- ==== Sys2Proof/Laws/Takeover.lean ====
section
/-! SUPPORT. What each operation of PB_UPDATE can do, said once: a channel's reading depends on that
channel alone, the latch step, one slot's step, and the loads of CVA and PWM (42_takeover, 43_cv). -/

namespace Sys2Proof.Machine

/-! ## A reading depends on its own channel alone (40_analog R76) -/

theorem chAcc_congr (s t : State) (c : Channel) (hcfg : s.cfg = t.cfg)
    (hch : s.regs.ch[c.val] = t.regs.ch[c.val]) (hadc : s.env.adc[c.val] = t.env.adc[c.val]) :
    chAcc s c = chAcc t c := by
  simp [chAcc, chSample, State.adcDraw, Regs.acc, hcfg, hch, hadc]

theorem chValue_congr (s t : State) (c : Channel) (smooth : Bool) (hcfg : s.cfg = t.cfg)
    (hch : s.regs.ch[c.val] = t.regs.ch[c.val]) (hadc : s.env.adc[c.val] = t.env.adc[c.val]) :
    chValue s c smooth = chValue t c smooth := by
  simp [chValue, chAcc_congr s t c hcfg hch hadc, chSample, State.adcDraw, hch, hadc]

/-- A read of one channel takes no draw of another. -/
theorem chUpdate_adc_ne (s : State) (c d : Channel) (h : d ≠ c) :
    (chUpdate s c).env.adc[d.val] = s.env.adc[d.val] := by
  have hv : c.val ≠ d.val := fun e => h (Fin.ext e.symm)
  simp [chUpdate_env, Vector.getElem_set_ne, hv]

/-- A read of one channel leaves what another would read. -/
theorem chValue_chUpdate_ne (s : State) (c d : Channel) (smooth : Bool) (h : d ≠ c) :
    chValue (chUpdate s c) d smooth = chValue s d smooth :=
  chValue_congr _ _ _ _ rfl (chUpdate_ch_ne s c d h) (chUpdate_adc_ne s c d h)

theorem potOf_ne_cvCh (i : Slot) : cvCh ≠ potOf i := by
  intro h
  have := congrArg Fin.val h
  simp [potOf] at this
  omega

/-! ## The latch step (42_takeover R91) -/

/-- All that the latch step changes of the registers is LATCH. -/
theorem takeoverLatch_regs (s : State) (i : Slot) (pm v : BitVec 8) :
    (takeoverLatch s i pm v).regs =
      { s.regs with latch := latchAfter s.regs.latch i pm v } := by
  unfold takeoverLatch latchAfter
  split <;> simp_all

@[simp] theorem takeoverLatch_cfg (s : State) (i : Slot) (pm v : BitVec 8) :
    (takeoverLatch s i pm v).cfg = s.cfg := by unfold takeoverLatch; split <;> rfl
@[simp] theorem takeoverLatch_env (s : State) (i : Slot) (pm v : BitVec 8) :
    (takeoverLatch s i pm v).env = s.env := by unfold takeoverLatch; split <;> rfl
@[simp] theorem takeoverLatch_port (s : State) (i : Slot) (pm v : BitVec 8) :
    (takeoverLatch s i pm v).port = s.port := by unfold takeoverLatch; split <;> rfl

/-- The latch step's write event: LATCH where the mapped knob equals the stored value, else none. -/
theorem takeoverLatch_events (s : State) (i : Slot) (pm v : BitVec 8) :
    (takeoverLatch s i pm v).events =
      (if pm = v then [.latch (latchAfter s.regs.latch i pm v)] else []) ++ s.events := by
  unfold takeoverLatch; split <;> simp

/-- Bit `j` of LATCH after the latch step of slot `i`. -/
theorem latchAfter_getElem (latch : Vector Bool 3) (i j : Slot) (pm v : BitVec 8) :
    (latchAfter latch i pm v)[j.val] = (latch[j.val] || (decide (j = i) && decide (pm = v))) := by
  unfold latchAfter
  by_cases hpm : pm = v <;> by_cases hj : j = i
  · subst hj; simp [hpm]
  · have hv : i.val ≠ j.val := fun e => hj (Fin.ext e.symm)
    simp [hpm, hj, Vector.getElem_set_ne, hv]
  · simp [hpm]
  · simp [hpm]

/-! ## One slot's step (42_takeover R89) -/

/-- The value one slot's step writes, from the state before it. -/
def slotValue (settings : Bool) (set : BitVec 5) (s : State) (i : Slot) : BitVec 8 :=
  let p := s.regs.param set i
  let pm := potMapped (chValue s (potOf i) true).toNat p.min p.max
  let v := if s.regs.latch[i.val] || decide (pm = p.value) then pm else p.value
  if blends settings s.regs.cva i then blendedValue s v pm p.min p.max else v

/-- The filter state that the blend's read of CH3 leaves is that of a read at the step's start. -/
theorem chAcc_cvCh_in_slot (s : State) (i : Slot) (pm v : BitVec 8) :
    chAcc (takeoverLatch (chUpdate s (potOf i)) i pm v) cvCh = chAcc s cvCh :=
  (chAcc_congr _ (chUpdate s (potOf i)) cvCh (takeoverLatch_cfg _ _ _ _)
      (by rw [takeoverLatch_regs]) (by rw [takeoverLatch_env])).trans
    (chAcc_congr _ s cvCh rfl (chUpdate_ch_ne s _ _ (potOf_ne_cvCh i))
      (chUpdate_adc_ne s _ _ (potOf_ne_cvCh i)))

/-- One slot's step as its four parts: the read of its potentiometer, the latch step, the read of CH3
where the blend runs, and the write of the slot's value. -/
theorem slotStep_eq (settings : Bool) (set : BitVec 5) (s : State) (i : Slot) :
    let p := s.regs.param set i
    let pm := potMapped (chValue s (potOf i) true).toNat p.min p.max
    let s2 := takeoverLatch (chUpdate s (potOf i)) i pm p.value
    slotStep settings set s i =
      (if blends settings s.regs.cva i then chUpdate s2 cvCh else s2).write
        (.pval set i p.dmode (slotValue settings set s i)) := by
  intro p pm s2
  have hr : s2.regs = { (chUpdate s (potOf i)).regs with
      latch := latchAfter s.regs.latch i pm p.value } := takeoverLatch_regs _ i pm p.value
  have henv : s2.env = (chUpdate s (potOf i)).env := takeoverLatch_env _ _ _ _
  have hlatch : s2.regs.latch[i.val] = (s.regs.latch[i.val] || decide (pm = p.value)) := by
    rw [hr]
    simpa using latchAfter_getElem s.regs.latch i i pm p.value
  have hcva : s2.regs.cva = s.regs.cva := by rw [hr]; rfl
  have hval : chValue s2 cvCh true = chValue s cvCh true := by
    rw [chValue_congr s2 (chUpdate s (potOf i)) cvCh true (takeoverLatch_cfg _ _ _ _) (by rw [hr])
      (by rw [henv]), chValue_chUpdate_ne s _ _ true (potOf_ne_cvCh i)]
  have hbv : ∀ v, blendedValue s2 v pm p.min p.max = blendedValue s v pm p.min p.max := by
    intro v
    simp only [blendedValue, hval, hcva]
  have hstep : slotStep settings set s i =
      if blends settings s2.regs.cva i then
        (chUpdate s2 cvCh).write (.pval set i p.dmode
          (blendedValue s2 (if s2.regs.latch[i.val] then pm else p.value) pm p.min p.max))
      else s2.write (.pval set i p.dmode (if s2.regs.latch[i.val] then pm else p.value)) := rfl
  have hv : slotValue settings set s i =
      if blends settings s.regs.cva i then
        blendedValue s (if s.regs.latch[i.val] || decide (pm = p.value) then pm else p.value) pm
          p.min p.max
      else if s.regs.latch[i.val] || decide (pm = p.value) then pm else p.value := rfl
  rw [hstep, hv, hcva, hlatch, hbv]
  split <;> rfl

/-- What one slot's step does to the registers: the value written, the latch, and one read of the slot's
potentiometer, with one of CH3 where the blend runs. -/
theorem slotStep_regs (settings : Bool) (set : BitVec 5) (s : State) (i : Slot) :
    let p := s.regs.param set i
    let s1 := chUpdate s (potOf i)
    (slotStep settings set s i).regs =
      { s.regs with
        latch := latchAfter s.regs.latch i
          (potMapped (chValue s (potOf i) true).toNat p.min p.max) p.value
        ch := if blends settings s.regs.cva i then (chUpdate s1 cvCh).regs.ch else s1.regs.ch
        params := s.regs.params.set set.toNat (s.regs.params[set.toNat].set i.val
          { p with value := slotValue settings set s i }) } := by
  intro p s1
  let pm := potMapped (chValue s (potOf i) true).toNat p.min p.max
  have hr := takeoverLatch_regs s1 i pm p.value
  have hacc : chAcc (takeoverLatch s1 i pm p.value) cvCh = chAcc s1 cvCh :=
    chAcc_congr _ _ cvCh (takeoverLatch_cfg _ _ _ _) (by rw [hr]) (by rw [takeoverLatch_env])
  rw [slotStep_eq, State.write_regs, Regs.apply_pval]
  by_cases hb : blends settings s.regs.cva i = true
  · rw [if_pos hb, if_pos hb, chUpdate_eq (takeoverLatch s1 i pm p.value), hacc, hr, chUpdate_eq s1 cvCh]
    rfl
  · rw [if_neg hb, if_neg hb, hr]
    rfl

/-- The write events of one slot's step, newest first: the stored value, CH3's ACC where the blend runs,
the latch where it is set, and the potentiometer's ACC (42_takeover R89). -/
theorem slotStep_events (settings : Bool) (set : BitVec 5) (s : State) (i : Slot) :
    let p := s.regs.param set i
    let pm := potMapped (chValue s (potOf i) true).toNat p.min p.max
    (slotStep settings set s i).events =
      [.pval set i p.dmode (slotValue settings set s i)] ++
      (if blends settings s.regs.cva i then
        [.accHi cvCh (highHalf (BitVec.ofNat 32 (chAcc s cvCh))),
          .accLo cvCh (lowHalf (BitVec.ofNat 32 (chAcc s cvCh)))] else []) ++
      (if pm = p.value then [.latch (latchAfter s.regs.latch i pm p.value)] else []) ++
      [.accHi (potOf i) (highHalf (BitVec.ofNat 32 (chAcc s (potOf i)))),
        .accLo (potOf i) (lowHalf (BitVec.ofNat 32 (chAcc s (potOf i))))] ++ s.events := by
  intro p pm
  have hev := takeoverLatch_events (chUpdate s (potOf i)) i pm p.value
  have hacc := chAcc_cvCh_in_slot s i pm p.value
  rw [slotStep_eq, State.write_events]
  by_cases hb : blends settings s.regs.cva i = true
  · rw [if_pos hb, if_pos hb, chUpdate_eq (takeoverLatch _ i pm p.value), hacc, hev]
    simp only [List.append_assoc]
    rfl
  · rw [if_neg hb, if_neg hb, hev]
    simp only [List.append_assoc]
    rfl

@[simp] theorem slotStep_cfg (settings : Bool) (set : BitVec 5) (s : State) (i : Slot) :
    (slotStep settings set s i).cfg = s.cfg := by
  simp only [slotStep]
  split <;> simp

@[simp] theorem slotStep_port (settings : Bool) (set : BitVec 5) (s : State) (i : Slot) :
    (slotStep settings set s i).port = s.port := by
  simp only [slotStep]
  split <;> simp

/-- The draws of one slot's step: 16 of its potentiometer, and 16 of CH3 where the blend runs. -/
theorem slotStep_env (settings : Bool) (set : BitVec 5) (s : State) (i : Slot) :
    (slotStep settings set s i).env =
      if blends settings s.regs.cva i then (chUpdate (chUpdate s (potOf i)) cvCh).env
      else (chUpdate s (potOf i)).env := by
  have hcva : ∀ pm v, (takeoverLatch (chUpdate s (potOf i)) i pm v).regs.cva = s.regs.cva := by
    intro pm v
    rw [takeoverLatch_regs]
    rfl
  simp only [slotStep, hcva]
  split <;> simp

/-! ## The PWM outputs (42_takeover R93) -/

/-- Writing PWM changes PWM alone, to the levels of the active preset. -/
theorem writePwm_regs (s : State) :
    (writePwm s).regs = { s.regs with pwm := #v[pwmLevel s 0, pwmLevel s 1, pwmLevel s 2] } := by
  have h : ((s.regs.pwm.set 0 (pwmLevel s 0)).set 1 (pwmLevel s 1)).set 2 (pwmLevel s 2) =
      #v[pwmLevel s 0, pwmLevel s 1, pwmLevel s 2] := by
    apply Vector.ext
    intro j hj
    interval_cases j <;> simp
  rw [← h]
  rfl

theorem writePwm_events (s : State) :
    (writePwm s).events =
      [.pwm 2 (pwmLevel s 2), .pwm 1 (pwmLevel s 1), .pwm 0 (pwmLevel s 0)] ++ s.events := rfl

@[simp] theorem writePwm_cfg (s : State) : (writePwm s).cfg = s.cfg := rfl
@[simp] theorem writePwm_env (s : State) : (writePwm s).env = s.env := rfl
@[simp] theorem writePwm_port (s : State) : (writePwm s).port = s.port := rfl

/-! ## The CV assignment (43_cv R98, R99) -/

/-- Loading CVA from the settings set changes CVA alone. -/
theorem cvaFromSettings_regs (s : State) :
    (cvaFromSettings s).regs =
      { s.regs with
        cva := legalCva (s.regs.param s.cfg.settingsSet 0).value.toNat
          (s.regs.param s.cfg.settingsSet 1).value.toNat
          (s.regs.param s.cfg.settingsSet 2).value.toNat } := rfl

/-- The depth of a clamped assignment is legal. -/
theorem legalCva_depth_le (m t d : Nat) : (legalCva m t d).depth.toNat ≤ 100 := by
  simp only [legalCva, depthMax, BitVec.toNat_ofNat]
  omega

end Sys2Proof.Machine
end

