-- ==== Sys2Proof/Tests/Slice0.lean ====
section
/-! SUPPORT. Tests of the model. The expected values are the spec's: the worked examples of its rules
and the vectors of 95_test_vectors (the name of a vector stands in the docstring), the words written
out from the formats of 30_encoding R54. `test_meets_…` theorems are the witnesses of the statements:
states and operands that meet a statement's hypotheses, at the ends of their ranges. -/

namespace Sys2Proof.Tests

open Sys2Proof.Machine

/-! ## The example instance (95_test_vectors) and small states -/

/-- The default instance with the example scan delays. -/
def ex : Params where
  totalPresets := 24
  pwmMax := 4095
  alphaQ16 := 62259
  kQ16 := 3277
  scopeSmooth := false
  scopeTrigLevel := .midrange
  scanDelayMin := 1
  scanDelayMax := 1024
  scanDelayThreshold := 64
  scanDelayReset := 8

/-- Reset of the example instance. -/
def s0 : State := State.resetOf ex

/-- A state after some register writes. -/
def put (s : State) (ws : List Write) : State := { s with regs := s.regs.applyAll ws }

/-- A state whose next draws of AdcRaw(c) are these. -/
def adcs (s : State) (c : Channel) (l : List (BitVec 12)) : State :=
  { s with env := { s.env with adc := s.env.adc.set c.val ⟨l, 0⟩ } }

/-- A state whose next draws of Pin(b) and Now() are these. -/
def polls (s : State) (b : Button) (l : List Bool) (n : List (BitVec 32)) : State :=
  { s with env := { s.env with pin := s.env.pin.set b.val ⟨l, 0⟩, now := ⟨n, 0⟩ } }

/-- A state with these words on the port. -/
def onPort (s : State) (ws : List Word) : State := { s with port := ws }

/-- Sixteen equal draws. -/
def steady (v : BitVec 12) : List (BitVec 12) := List.replicate 16 v

/-- ACC[c] of a channel steady at `v` (95_test_vectors). -/
def accAt (c : Channel) (v : Half) : List Write := [.accLo c 0, .accHi c v]

/-- The instruction answers a next state of which `p` holds. -/
def runs (i : Instr) (s : State) (p : State → Bool) : Bool :=
  match exec i s with
  | .next t => p t
  | .fault _ => false
  | .refused _ => false

/-- A step answers a next state of which `p` holds. -/
def steps (s : State) (p : State → Bool) : Bool :=
  match step s with
  | .next t => p t
  | .fault _ => false
  | .refused _ => false

/-! ## Decoding: a word of every command, field by field -/

theorem test_decode_nop : decode 0b00000000_000000000000000000000000 = .ok .nop := by decide
theorem test_decode_chInit :
    decode 0b00000001_000000_11_0000_000000101000 = .ok (.chInit 3 40) := by decide
theorem test_decode_chRead :
    decode 0b00000010_000000_10_0000_00000000000_1 = .ok (.chRead 2 true) := by decide
theorem test_decode_btnInit :
    decode 0b00000011_0000000_1_0000001111101000 = .ok (.btnInit 1 1000) := by decide
theorem test_decode_btnPoll :
    decode 0b00000100_0000000_1_0000000000000000 = .ok (.btnPoll 1) := by decide
theorem test_decode_pbSetRange :
    decode 0b00000101_11000_10_0_01100100_00000101 = .ok (.pbSetRange 24 2 100 5) := by decide
theorem test_decode_pbSetValue :
    decode 0b00000110_10001_01_0000000_10_00111111 = .ok (.pbSetValue 17 1 2 63) := by decide
theorem test_decode_pbSelect :
    decode 0b00000111_0000000000000000000_10111 = .ok (.pbSelect 23) := by decide
theorem test_decode_pbRearm : decode 0b00001000_000000000000000000000000 = .ok .pbRearm := by decide
theorem test_decode_pbUpdate :
    decode 0b00001001_00000000000000000000000_1 = .ok (.pbUpdate true) := by decide
theorem test_decode_cvaWrite :
    decode 0b00001010_0000000000000_1100100_01_10 = .ok (.cvaWrite 100 1 2) := by decide
theorem test_decode_scopeHalve :
    decode 0b00001011_000000000000000000000000 = .ok .scopeHalve := by decide
theorem test_decode_scopeDouble :
    decode 0b00001100_000000000000000000000000 = .ok .scopeDouble := by decide
theorem test_decode_scopeAcq :
    decode 0b00001101_000000000000000000000000 = .ok .scopeAcq := by decide
theorem test_decode_regRead :
    decode 0b00001110_00000000_0001000011000101 = .ok (.regRead 0x10C5) := by decide
theorem test_decode_errClear :
    decode 0b00001111_000000000000000000000000 = .ok .errClear := by decide

/-- One should-be-zero bit of each operand format, and the first illegal opcode (A13, B12, V16, E9, R67). -/
theorem test_decode_refuses :
    decode 0x00000001 = .error .reservedBits ∧ decode 0x01008000 = .error .reservedBits ∧
      decode 0x02000002 = .error .reservedBits ∧ decode 0x04000001 = .error .reservedBits ∧
      decode 0x05010100 = .error .reservedBits ∧ decode 0x06000400 = .error .reservedBits ∧
      decode 0x07000038 = .error .reservedBits ∧ decode 0x09000002 = .error .reservedBits ∧
      decode 0x0A000FFF = .error .reservedBits ∧ decode 0x0E010000 = .error .reservedBits ∧
      decode 0x10000000 = .error .illegalOpcode ∧ decode 0xFF000000 = .error .illegalOpcode := by
  decide

/-- The words of R69 for operands that fill every field. -/
theorem test_encode :
    encode (.chInit 3 40) = 0x01030028 ∧ encode (.btnInit 1 1000) = 0x030103E8 ∧
      encode (.pbSetRange 0 0 127 0) = 0x05007F00 ∧ encode (.pbSetValue 24 1 1 1) = 0x06C20101 ∧
      encode (.cvaWrite 127 3 2) = 0x0A0007FE ∧ encode (.regRead 0x10C6) = 0x0E0010C6 := by decide

/-- The bytes of a word and of a register value on a byte-serial link (20_memory R41), and a table word of 32 bits. -/
theorem test_bytes :
    bytesOfWord 0x01030028 = [0x28, 0x00, 0x03, 0x01] ∧
      decodeBytes [0x28, 0x00, 0x03, 0x01] = some (.ok (.chInit 3 40)) ∧
      decodeBytes [0x28, 0x00, 0x03] = none ∧
      bytesOfHalf 0x0326 = [0x26, 0x03] ∧ halfOfBytes [0x26, 0x03] = some 0x0326 ∧
      decodeTableWord 32 0x0600013F = some (.pbSetValue 0 0 1 63) ∧
      decodeTableWord 32 0x0600053F = none := by decide

/-! ## Well-formedness: an ill-formed term for each check, beside a legal one -/

theorem test_ill_formed_set :
    Instr.wellFormed ex (.pbSetRange 25 0 2 1) = false ∧
      Instr.wellFormed ex (.pbSetRange 24 0 2 1) = true := by decide
theorem test_ill_formed_slot :
    Instr.wellFormed ex (.pbSetValue 0 3 0 0) = false ∧
      Instr.wellFormed ex (.pbSetValue 0 2 0 0) = true := by decide
theorem test_ill_formed_range :
    Instr.wellFormed ex (.pbSetRange 0 0 5 5) = false ∧
      Instr.wellFormed ex (.pbSetRange 0 0 6 5) = true := by decide
theorem test_ill_formed_dmode :
    Instr.wellFormed ex (.pbSetValue 0 0 3 0) = false ∧
      Instr.wellFormed ex (.pbSetValue 0 0 2 0) = true := by decide
theorem test_ill_formed_preset :
    Instr.wellFormed ex (.pbSelect 24) = false ∧ Instr.wellFormed ex (.pbSelect 23) = true := by
  decide
theorem test_ill_formed_address :
    Instr.wellFormed ex (.regRead 0x0018) = false ∧ Instr.wellFormed ex (.regRead 0x0017) = true ∧
      Instr.wellFormed ex (.regRead 0x10C6) = false ∧ Instr.wellFormed ex (.regRead 0x10C5) = true ∧
      Instr.wellFormed ex (.regRead 0x20C8) = false ∧ Instr.wellFormed ex (.regRead 0x20C7) = true := by
  decide

/-! ## What each command does -/

/-- E1. -/
theorem test_nop : runs .nop s0 (fun t => t = s0) = true := by decide +kernel

/-- A1. -/
theorem test_chInit :
    runs (.chInit 3 40) (put s0 (accAt 3 7)) (fun t =>
      (t.regs.ch[3]).offset = 40 ∧ t.regs.acc 3 = 0) = true := by decide +kernel

/-- A2. -/
theorem test_chRead_smooth :
    runs (.chRead 0 true) (adcs s0 0 (steady 4095)) (fun t =>
      t.regs.acc 0 = 13419315 ∧ t.regs.result = 205) = true := by decide +kernel

/-- A8. -/
theorem test_chRead_raw :
    runs (.chRead 2 false) (adcs s0 2 (List.replicate 8 4095 ++ List.replicate 8 0)) (fun t =>
      t.regs.acc 2 = 6708019 ∧ t.regs.result = 2047) = true := by decide +kernel

/-- B11. -/
theorem test_btnInit :
    runs (.btnInit 1 1000) (put s0 [.btnState 1 .pressed .held 0xF0, .btnT0Lo 1 5]) (fun t =>
      t.regs.btn[1] = ⟨0, .idle, .none, 1000, 0, 0⟩) = true := by decide +kernel

/-- B4. -/
theorem test_btnPoll_pressed :
    runs (.btnPoll 0) (polls (put s0 [.btnState 0 .none .idle 0xF8]) 0 [false] [0]) (fun t =>
      (t.regs.btn[0]).evt = .pressed ∧ (t.regs.btn[0]).shift = 0xF0 ∧ t.regs.result = 1) = true := by
  decide +kernel

/-- B8: the elapsed test across a wrap of the counter, one millisecond early and just in time. -/
theorem test_btnPoll_hold :
    let s := put s0 [.btnState 1 .none .waiting 0x00, .btnT0Lo 1 0xFF00, .btnT0Hi 1 0xFFFF]
    runs (.btnPoll 1) (polls s 1 [false] [0xF3]) (fun t => (t.regs.btn[1]).stage = .waiting) = true ∧
      runs (.btnPoll 1) (polls s 1 [false] [0xF4]) (fun t => (t.regs.btn[1]).stage = .held) = true := by
  decide +kernel

/-- T2. -/
theorem test_pbSetRange :
    runs (.pbSetRange 0 0 127 0) (put s0 [.pval 0 0 .bare 200]) (fun t =>
      t.regs.param 0 0 = ⟨127, 0, 127, .bare⟩) = true := by decide +kernel

/-- T3, E8: the empty range raises BAD_RANGE, and an absent set BAD_INDEX before it. -/
theorem test_pbSetRange_raises :
    runs (.pbSetRange 0 0 5 5) s0 (fun t => t.regs.errCause = some .badRange ∧ t.regs.errCmdLo = 0x0505 ∧
      t.regs.errCmdHi = 0x0500 ∧ t.regs.params = s0.regs.params) = true ∧
    runs (.pbSetRange 25 0 1 1) s0 (fun t => t.regs.errCause = some .badIndex) = true := by
  decide +kernel

/-- T6. -/
theorem test_pbSetValue :
    runs (.pbSetValue 24 0 1 44) s0 (fun t => t.regs.param 24 0 = ⟨2, 0, 2, .numeric⟩) = true := by
  decide +kernel

/-- T4, T5. -/
theorem test_pbSetValue_raises :
    runs (.pbSetValue 0 0 3 10) s0 (fun t => t.regs.errCause = some .badEnum) = true ∧
      runs (.pbSetValue 0 3 1 0) s0 (fun t => t.regs.errCause = some .badIndex) = true := by
  decide +kernel

/-- T10. -/
theorem test_pbSelect :
    runs (.pbSelect 23) (put s0 [.latch #v[true, false, true]]) (fun t =>
      t.regs.active = 23 ∧ t.regs.latch = #v[false, false, false]) = true ∧
      runs (.pbSelect 24) s0 (fun t => t.regs.active = 0 ∧ t.regs.errCause = some .badIndex) = true := by
  decide +kernel

/-- T15. -/
theorem test_pbRearm :
    runs .pbRearm (put s0 [.latch #v[true, false, true]]) (fun t =>
      t.regs.latch = #v[false, false, false]) = true := by decide +kernel

/-- A state for PB_UPDATE: slot 0 of preset 0 with range [0, 127] and this value, the three pots and CH3
steady at these readings, and this CV assignment. -/
def knobs (v : BitVec 8) (cva : Cva) (p0 p1 p2 cv : Half) : State :=
  let s := put s0 ([.prange 0 0 127 0, .pval 0 0 .numeric v, .cva cva] ++ accAt 0 p0 ++ accAt 1 p1 ++
    accAt 2 p2 ++ accAt 3 cv)
  adcs (adcs (adcs (adcs s 0 (steady (p0.setWidth 12))) 1 (steady (p1.setWidth 12))) 2
    (steady (p2.setWidth 12))) 3 (steady (cv.setWidth 12))

/-- T12 (the source's scenario S1): the knob meets the stored value and takes it over. -/
theorem test_pbUpdate_takeover :
    runs (.pbUpdate false) (knobs 63 ⟨.off, 0, 0⟩ 2048 0 0 0) (fun t =>
      t.regs.latch[0] ∧ (t.regs.param 0 0).value = 63 ∧ t.regs.pwm[0] = 2031 ∧
      t.env.adc[3] = ⟨steady 0, 0⟩) = true := by decide +kernel

/-- V12: the CV blend overrides the locked slot. -/
theorem test_pbUpdate_blend :
    runs (.pbUpdate false) (knobs 10 ⟨.bipolar, 0, 50⟩ 2048 0 0 4095) (fun t =>
      !t.regs.latch[0] ∧ (t.regs.param 0 0).value = 126 ∧ t.regs.pwm[0] = 4062 ∧
      t.env.adc[3] = ⟨[], 16⟩) = true := by decide +kernel

/-- V15. -/
theorem test_cvaWrite :
    runs (.cvaWrite 127 3 2) s0 (fun t => readReg ex t.regs .cva = 0x064A) = true := by decide +kernel

/-- O19. -/
theorem test_scopeHalve :
    runs .scopeHalve (put s0 [.scopeDelay 3, .scopeWr 57]) (fun t =>
      t.regs.scopeDelay = 1 ∧ t.regs.scopeWr = 0) = true := by decide +kernel

/-- O20. -/
theorem test_scopeDouble :
    runs .scopeDouble (put s0 [.scopeDelay 600, .scopeWr 57]) (fun t =>
      t.regs.scopeDelay = 1024 ∧ t.regs.scopeWr = 0) = true := by decide +kernel

/-- O17, call 100: the ring index wraps. -/
theorem test_scopeAcq_long :
    runs .scopeAcq (adcs (put s0 [.scopeDelay 64, .scopeWr 99]) 3 (steady 990)) (fun t =>
      t.regs.buf[99] = 990 ∧ t.regs.scopeWr = 0 ∧ t.regs.scopeRmax = 4095 ∧ t.regs.scopeTrig = 10) =
      true := by decide +kernel

/-- O4 to O8: the trigger at the ends of its window. -/
theorem test_trigger_window :
    trigIndex (List.replicate 8 0 ++ List.replicate 192 4095) 2047 = 10 ∧
      trigIndex (List.replicate 9 0 ++ List.replicate 191 4095) 2047 = 9 ∧
      trigIndex (List.replicate 109 0 ++ List.replicate 91 4095) 2047 = 109 ∧
      trigIndex (List.replicate 110 0 ++ List.replicate 90 4095) 2047 = 10 ∧
      trigIndex ((List.range 200).map (20 * ·)) 1990 = 100 := by decide +kernel

/-- E7, E5. -/
theorem test_regRead :
    runs (.regRead 0x10C5) s0 (fun t => t.regs.result = 0x6400) = true ∧
      runs (.regRead 0x0018) s0 (fun t => t.regs.result = 0 ∧ t.regs.errCause = some .badAddress) =
        true := by decide +kernel

/-- A state after an illegal opcode, vector E10's start. -/
def erred : State := put s0 [.errCause (some .illegalOpcode), .errCmdHi 0x1000, .status true]

/-- E11. -/
theorem test_errClear : runs .errClear erred (fun t => t.regs = s0.regs) = true := by decide +kernel

/-- E2, E3, E10: what a step records. -/
theorem test_step_errors :
    steps (onPort s0 [0x00000001]) (fun t => t.regs.err ∧ t.regs.errCause = some .reservedBits ∧
      t.regs.errCmdLo = 1 ∧ t.regs.errCmdHi = 0) = true ∧
    steps (onPort s0 [0x1000FFFF]) (fun t => t.regs.err ∧ t.regs.errCause = some .illegalOpcode ∧
      t.regs.errCmdLo = 0xFFFF ∧ t.regs.errCmdHi = 0x1000) = true ∧
    steps (onPort erred [0x07000018]) (fun t => t.regs = erred.regs) = true := by decide +kernel

/-- E4, as the word placed where the next step takes its command. -/
theorem test_withFetchWord :
    steps (s0.withFetchWord 32 0x0E00000D) (fun t => t.regs.result = 10 ∧ t.port = []) = true := by
  decide +kernel

/-! ## Witnesses: states and operands that meet the statements' hypotheses -/

theorem test_meets_EncodeOfDecode : decode 0x05007F00 = .ok (.pbSetRange 0 0 127 0) := by decide

theorem test_meets_BytesCarryWords :
    ([1, 2, 3] : List Byte).length ≠ 4 ∧ ([1, 2, 3, 4, 5] : List Byte).length ≠ 4 ∧
      runs (.regRead 0x0012) s0 (fun t => dataOutput t = some 500) = true := by decide +kernel

theorem test_meets_StepRunsDecodedCommand :
    (onPort s0 [0x0E00000D, 0]).port = 0x0E00000D :: [0] ∧
      decode 0x0E00000D = .ok (.regRead 0x000D) := ⟨rfl, by decide⟩

theorem test_meets_StepRecordsIllegalWord :
    (onPort s0 [0x10000000, 0]).port = 0x10000000 :: [0] ∧
      (onPort erred [0x00FFFFFF]).port = 0x00FFFFFF :: [] ∧
      decode 0x10000000 = .error .illegalOpcode ∧ decode 0x00FFFFFF = .error .reservedBits :=
  ⟨rfl, rfl, by decide, by decide⟩

theorem test_meets_EveryStepCompletes : s0.port = [] := rfl

theorem test_meets_NopChangesNothing :
    1 ≤ (0x00000001 : Word).toNat ∧ (0x00000001 : Word).toNat ≤ 0x00FFFFFF ∧
      1 ≤ (0x00FFFFFF : Word).toNat ∧ (0x00FFFFFF : Word).toNat ≤ 0x00FFFFFF := by decide

/-- Both ends of every mapped range, and of every hole beside one. -/
theorem test_meets_RegReadOfAddress :
    [0x0000, 0x0017, 0x0020, 0x0032, 0x1000, 0x1005, 0x1008, 0x10C5, 0x2000, 0x20C7].all
      (fun a => addressLegal s0.cfg a) = true ∧
    [0x0018, 0x001F, 0x0033, 0x0FFF, 0x1006, 0x1007, 0x10C6, 0x10C8, 0x1FFF, 0x20C8, 0xFFFF].all
      (fun a => !addressLegal s0.cfg a) = true := by decide +kernel

theorem test_meets_ErrClearAcknowledges :
    (s0.regs.err = false ∧ s0.Inv) ∧
      (onPort s0 [0x0F000001]).port = 0x0F000001 :: [] ∧
      (onPort s0 [0x0FFFFFFF]).port = 0x0FFFFFFF :: [] ∧
      0x0F000001 ≤ (0x0F000001 : Word).toNat ∧ (0x0FFFFFFF : Word).toNat ≤ 0x0FFFFFFF := by
  decide +kernel

theorem test_meets_RegisterMap :
    Reg.present ex (.pval 24 2) = true ∧ Reg.present ex (.buf 199) = true ∧
      regAt ex 0x10C5 = some (.prange 24 2) ∧ regAt ex 0x0000 = some .status ∧
      regAt ex 0x20C7 = some (.buf 199) := by decide +kernel

theorem test_meets_DisplayReadHasNoEffect :
    regAt s0.cfg 0x0032 = some (.pwm 2) ∧ addressLegal s0.cfg 0x0033 = false := by decide +kernel

theorem test_meets_WriteEventTouchesOneRegister :
    Reg.scopeMode ∉ Write.touches (.scopeWr 0) ∧ Reg.chVal 1 ∉ Write.touches (.accLo 0 0) := by decide

theorem test_meets_ChInitRestartsChannel :
    ((put s0 [.chOffset 0 4095]).regs.ch[(0 : Channel).val]).offset = 4095 := by decide +kernel

theorem test_meets_ChReadFiltersSample :
    ∃ avg sample acc : Nat,
      avg = ((List.range 16).map fun k => (s0.adcDraw 0 k).toNat).sum / 16 ∧
      sample = avg - (s0.regs.ch[(0 : Channel).val]).offset.toNat ∧
      acc = min ((s0.regs.acc 0 * s0.cfg.alphaQ16.val + sample * s0.cfg.kQ16.val * 2 ^ 16) / 2 ^ 16)
        (4095 * 2 ^ 16) := ⟨_, _, _, rfl, rfl, rfl⟩

/-- A9, at both ends of the input range. -/
theorem test_meets_SteadyStateGainIsOne :
    [(0 : BitVec 12), 4095].all (fun v =>
      let s := adcs (put s0 (accAt 0 (v.setWidth 16))) 0 (steady v)
      decide (s.cfg.alphaQ16.val + s.cfg.kQ16.val = 65536 ∧ v.toNat ≤ 4095 ∧
        s.regs.acc 0 = v.toNat * 2 ^ 16 ∧ (s.regs.ch[(0 : Channel).val]).offset = 0) &&
        (List.range 16).all (fun k => s.adcDraw 0 k == v)) = true := by decide +kernel

theorem test_meets_FilterStaysBounded :
    ex.alphaQ16.val + ex.kQ16.val ≤ 65536 ∧ 4095 * 2 ^ 16 ≤ 4095 * 2 ^ 16 ∧ 4095 ≤ 4095 := by decide

/-- Two states that agree on channel 0 and differ elsewhere. -/
theorem test_meets_ChannelsAreIndependent :
    let t := adcs (put s0 (accAt 1 5)) 2 [7]
    s0.cfg = t.cfg ∧ s0.regs.ch[(0 : Channel).val] = t.regs.ch[(0 : Channel).val] ∧
      s0.env.adc[(0 : Channel).val] = t.env.adc[(0 : Channel).val] ∧ s0.regs ≠ t.regs := by
  decide +kernel

/-- A button about to shift in `lvl`, in this stage, with T0 = 100, HOLD = 500 and this time drawn. -/
def button (sh : BitVec 8) (st : Stage) (lvl : Bool) (now : BitVec 32) : State :=
  polls (put s0 [.btnState 0 .none st sh, .btnT0Lo 0 100]) 0 [lvl] [now]

/-- The three patterns of the held branch (R80). -/
theorem test_meets_PollWhileHeld :
    [((0x07 : BitVec 8), true, (0x0F : BitVec 8)), (0x80, false, 0x00), (0xF8, false, 0xF0)].all
      (fun x =>
        let s := button x.1 .held x.2.1 0
        decide ((s.regs.btn[(0 : Button).val]).stage = .held ∧ x.2.2.toNat =
          ((s.regs.btn[(0 : Button).val]).shift.toNat * 2 + (s.pinDraw 0).toNat) % 256)) = true := by
  decide +kernel

/-- The patterns of the edge branch, the hold test one millisecond early and just in time (R81, R82). -/
theorem test_meets_PollWhileNotHeld :
    [((0xF8 : BitVec 8), Stage.waiting, false, (0xF0 : BitVec 8)), (0x07, .idle, true, 0x0F),
        (0x80, .idle, false, 0x00), (0x80, .waiting, false, 0x00), (0x55, .waiting, true, 0xAB)].all
      (fun x =>
        let s := button x.1 x.2.1 x.2.2.1 0
        decide ((s.regs.btn[(0 : Button).val]).stage ≠ .held ∧ x.2.2.2.toNat =
          ((s.regs.btn[(0 : Button).val]).shift.toNat * 2 + (s.pinDraw 0).toNat) % 256)) = true ∧
    runs (.btnPoll 0) (button 0x80 .waiting false 599)
      (fun t => (t.regs.btn[0]).stage = .waiting) = true ∧
    runs (.btnPoll 0) (button 0x80 .waiting false 600)
      (fun t => (t.regs.btn[0]).stage = .held) = true := by decide +kernel

theorem test_meets_ElapsedTestSurvivesWrap :
    (0 : BitVec 32).toNat ≤ (0xFFFFFFFF : BitVec 32).toNat ∧
      (500 : BitVec 32).toNat ≤ (500 : BitVec 32).toNat ∧
      ((button 0x80 .waiting false 600).regs.btn[(0 : Button).val]).stage = .waiting ∧
      polledShift (button 0x80 .waiting false 600) 0 = 0x00 := by decide +kernel

theorem test_meets_HeldConfirmedOnlyFromHeld :
    runs (.btnPoll 0) (button 0x07 .held true 0)
      (fun t => (t.regs.btn[(0 : Button).val]).evt = .heldConfirmed) = true ∧
      ((button 0x07 .held true 0).regs.btn[(0 : Button).val]).stage = .held := by decide +kernel

/-- A Pressed and a Released at the first poll (m = 0), for each bound on k. -/
theorem test_meets_EdgeEventsAreSpaced :
    ((afterPolls 0 (0 + 1) (button 0xF8 .idle false 0)).regs.btn[(0 : Button).val]).evt = .pressed ∧
      ((afterPolls 0 (0 + 1) (button 0x07 .idle true 0)).regs.btn[(0 : Button).val]).evt = .released ∧
      1 ≤ 7 ∧ 7 < 8 ∧ 1 ≤ 3 ∧ 3 < 4 := by decide +kernel

theorem test_meets_CleanPressTiming :
    let s := polls (put s0 [.btnState 0 .none .idle 0xFF]) 0 (List.replicate 8 false) []
    (s.regs.btn[(0 : Button).val]).shift = 0xFF ∧ (s.regs.btn[(0 : Button).val]).stage = .idle ∧
      ∀ k, k < 8 → s.env.pin[(0 : Button).val].peek (Config.freePin 0) k = false :=
  ⟨by decide +kernel, by decide +kernel, fun k hk => by interval_cases k <;> rfl⟩

/-- The last set and slot, and the narrowest range at each end. -/
theorem test_meets_SetRangeClampsValue :
    (24 : BitVec 5).toNat < s0.cfg.nSets ∧ (2 : BitVec 2).toNat = (2 : Slot).val ∧
      (0 : BitVec 8).toNat < (1 : BitVec 8).toNat ∧
      (254 : BitVec 8).toNat < (255 : BitVec 8).toNat := by decide

/-- Each cause of PB_SET_RANGE at its boundary; the clauses exclude each other. -/
theorem test_meets_SetRangeRaises :
    (s0.cfg.nSets ≤ (25 : BitVec 5).toNat ∨ (0 : BitVec 2) = 3) ∧
      (s0.cfg.nSets ≤ (0 : BitVec 5).toNat ∨ (3 : BitVec 2) = 3) ∧
      ((24 : BitVec 5).toNat < s0.cfg.nSets ∧ (2 : BitVec 2) ≠ 3 ∧
        (5 : BitVec 8).toNat ≤ (5 : BitVec 8).toNat) := by decide

theorem test_meets_SetValueClampsValue :
    (24 : BitVec 5).toNat < s0.cfg.nSets ∧ (2 : BitVec 2).toNat = (2 : Slot).val ∧
      dmodeCode .namedOption = 2 ∧ dmodeCode .bare = 0 := by decide

theorem test_meets_SetValueRaises :
    (s0.cfg.nSets ≤ (25 : BitVec 5).toNat ∨ (0 : BitVec 2) = 3) ∧
      (s0.cfg.nSets ≤ (0 : BitVec 5).toNat ∨ (3 : BitVec 2) = 3) ∧
      ((24 : BitVec 5).toNat < s0.cfg.nSets ∧ (2 : BitVec 2) ≠ 3 ∧ (3 : BitVec 2) = 3) := by decide

theorem test_meets_SelectRearmsTakeover :
    (23 : BitVec 5).toNat < s0.cfg.totalPresets.val ∧
      s0.cfg.totalPresets.val ≤ (24 : BitVec 5).toNat := by decide

theorem test_meets_PotMappedIsTruncatingMap :
    0 ≤ 4095 ∧ 4095 ≤ 4095 ∧ (254 : BitVec 8).toNat < (255 : BitVec 8).toNat := by decide

theorem test_meets_MapBackEndsAndMonotone :
    (10 : BitVec 8).toNat < (11 : BitVec 8).toNat ∧ (10 : BitVec 8).toNat ≤ (10 : BitVec 8).toNat ∧
      (10 : BitVec 8).toNat ≤ (11 : BitVec 8).toNat ∧ (11 : BitVec 8).toNat ≤ (11 : BitVec 8).toNat := by
  decide

/-- T12 as a state of the invariant, at the knob's boundary readings 2048 and 4095. -/
theorem test_meets_UpdateTakesOver :
    [((2048 : Half), (63 : BitVec 8)), (4095, 127), (0, 0)].all (fun x =>
      let s := knobs 63 ⟨.off, 1, 50⟩ x.1 0 0 0
      let q := s.regs.param (updatedSet false s) 0
      decide s.Inv && decide ((0 : Slot) ≠ s.regs.cva.target) && decide (x.2.toNat = q.min.toNat +
        (chValue s (potOf 0) true).toNat * (q.max.toNat - q.min.toNat) / 4095)) = true := by
  decide +kernel

theorem test_meets_UpdateWritesPwm : (knobs 63 ⟨.off, 0, 0⟩ 2048 0 0 0).Inv := by decide +kernel

/-- V4, V3 and V13: the three modes, at the least and the greatest depth. -/
theorem test_meets_UpdateBlendsCv :
    [(CvMode.unipolar, (1 : BitVec 7)), (.bipolar, 100), (.off, 50)].all (fun x =>
      let s := knobs 63 ⟨x.1, 0, x.2⟩ 2048 0 0 4095
      let q := s.regs.param s.regs.active 0
      decide s.Inv && decide ((0 : Slot) = s.regs.cva.target) &&
        decide (0 < s.regs.cva.depth.toNat) && decide ((chValue s 3 true).toNat = 4095) &&
        decide ((63 : BitVec 8).toNat = q.min.toNat +
          (chValue s (potOf 0) true).toNat * (q.max.toNat - q.min.toNat) / 4095)) = true := by
  decide +kernel

theorem test_meets_SettingsUpdateLoadsCva :
    s0.Inv ∧ (23 : BitVec 5) ≠ s0.cfg.settingsSet ∧ (25 : BitVec 5) ≠ s0.cfg.settingsSet := by
  decide +kernel

theorem test_meets_UpdateFrame :
    s0.regs.cva.depth = 0 ∧ (1 : BitVec 5) ≠ updatedSet false s0 ∧
      (23 : BitVec 5) ≠ updatedSet true s0 := by decide +kernel

/-- R103 (b), (c): mn above 0, the CV and the half point mapped to one value; and the full scale. -/
theorem test_meets_CvBlendStaysInRange :
    (10 : BitVec 8).toNat < (100 : BitVec 8).toNat ∧ (10 : BitVec 8).toNat ≤ (55 : BitVec 8).toNat ∧
      (55 : BitVec 8).toNat ≤ (100 : BitVec 8).toNat ∧ 2048 ≤ 4095 ∧ 50 ≤ 100 ∧
      cvMapped 2048 50 10 100 = halfMapped 50 10 100 ∧
      cvBlendValue .bipolar 55 55 10 100 2048 50 = 87 ∧
      cvBlendValue .unipolar 0 255 0 255 4095 100 = 255 := by decide

/-- At the threshold itself, and at the ring's last entry. -/
theorem test_meets_LongScanAppendsSample :
    let s := put s0 [.scopeDelay 64, .scopeWr 99]
    s.cfg.scanDelayThreshold.val ≤ s.regs.scopeDelay.toNat ∧ s.regs.scopeWr.val = 99 := by
  decide +kernel

/-- Just below the threshold, with SCOPE_SMOOTH of either value, and the samples and filter states that
the statement's recurrences give. -/
theorem test_meets_FastScanFillsBuffer (smooth : Bool) :
    let s := put (State.resetOf { ex with scopeSmooth := smooth }) [.scopeDelay 63]
    ∃ sample acc : Nat → Nat,
      s.regs.scopeDelay.toNat < s.cfg.scanDelayThreshold.val ∧
      (∀ j, j < 200 → sample j =
        ((List.range 16).map fun k => (s.adcDraw 3 (16 * j + k)).toNat).sum / 16 -
          (s.regs.ch[3]).offset.toNat) ∧
      acc 0 = s.regs.acc 3 ∧
      ∀ j, j < 200 → acc (j + 1) =
        min ((acc j * s.cfg.alphaQ16.val + sample j * s.cfg.kQ16.val * 2 ^ 16) / 2 ^ 16)
          (4095 * 2 ^ 16) := by
  intro s
  let sample : Nat → Nat := fun j =>
    ((List.range 16).map fun k => (s.adcDraw 3 (16 * j + k)).toNat).sum / 16 -
      (s.regs.ch[3]).offset.toNat
  let acc : Nat → Nat := fun n => n.rec (s.regs.acc 3) fun j a =>
    min ((a * s.cfg.alphaQ16.val + sample j * s.cfg.kQ16.val * 2 ^ 16) / 2 ^ 16) (4095 * 2 ^ 16)
  exact ⟨sample, acc, by cases smooth <;> decide +kernel, fun _ _ => rfl, rfl, fun _ _ => rfl⟩

/-- The draws of O5: nine samples of 0, the rest 4095. -/
def square : State := adcs s0 3 (List.replicate 144 0 ++ List.replicate 3056 4095)

/-- O5, for FastScanStatistics and TriggerIsFirstCrossing: a fast scan whose buffer has the least sample
0, the greatest 4095 and its first crossing at index 9. -/
theorem test_meets_FastScanStatistics :
    runs .scopeAcq square (fun t =>
      let xs := t.regs.buf.toList.map BitVec.toNat
      decide (square.regs.scopeDelay.toNat < square.cfg.scanDelayThreshold.val) &&
        xs.contains 0 && xs.contains 4095 && xs.all (fun x => x ≤ 4095) &&
        decide ((t.regs.buf[8]?.getD 0).toNat < (0 + 4095) / 2) &&
        decide ((0 + 4095) / 2 ≤ (t.regs.buf[9]?.getD 0).toNat) &&
        decide (t.regs.scopeTrig = 9 ∧ t.regs.scopeAvg = 3910 ∧ t.regs.scopeRmin = 0xFFEC ∧
          t.regs.scopeRmax = 4120)) = true := by decide +kernel

/-- A long scan for TriggerIsFirstCrossing. -/
theorem test_meets_TriggerIsFirstCrossing :
    s0.cfg.scanDelayThreshold.val ≤ (put s0 [.scopeDelay 64]).regs.scopeDelay.toNat ∧
      (put s0 [.scopeDelay 63]).regs.scopeDelay.toNat < s0.cfg.scanDelayThreshold.val := by
  decide +kernel

theorem test_meets_ErroringCommandIsPrecise :
    [Instr.pbSetRange 25 0 2 1, .pbSetRange 0 0 5 5, .pbSetValue 0 3 0 0, .pbSetValue 0 0 3 0,
      .pbSelect 24, .regRead 0x0018].all (fun i => !i.wellFormed s0.cfg) = true := by decide

theorem test_meets_LegalCommandRaisesNothing :
    [Instr.nop, .pbSetRange 24 2 255 254, .pbSelect 23, .regRead 0x20C7].all
      (fun i => i.wellFormed s0.cfg && decide (i ≠ .errClear)) = true := by decide

theorem test_meets_FirstErrorIsKept :
    (onPort erred [0x10000000]).port = 0x10000000 :: [] ∧
      (onPort erred [0x07000018]).port = 0x07000018 :: [] ∧
      (onPort erred [0x10000000]).regs.err = true ∧ decode 0x10000000 = .error .illegalOpcode ∧
      decode 0x07000018 = .ok (.pbSelect 24) ∧ Instr.wellFormed erred.cfg (.pbSelect 24) = false := by
  decide +kernel

/-- A state of the invariant, and a step from it that answers a next state with a write event. -/
theorem test_meets_StepKeepsInvariants :
    (onPort s0 [0x08000000]).Inv ∧
      steps (onPort s0 [0x08000000]) (fun t => t.trace = [.latch #v[false, false, false]]) = true := by
  decide +kernel

/-- T2 too: the stored value is clamped into the range that the event before it wrote. -/
theorem test_meets_EveryWriteEventIsLegal :
    (onPort s0 [0x0C000000]).Inv ∧
      steps (onPort s0 [0x0C000000]) (fun t => t.trace = [.scopeDelay 16, .scopeWr 0]) = true ∧
      (put s0 [.pval 0 0 .bare 200] |> fun s => (onPort s [0x05007F00]).Inv ∧
        steps (onPort s [0x05007F00])
          (fun t => t.trace = [.prange 0 0 127 0] ++ .pval 0 0 .bare 127 :: []) = true) := by
  decide +kernel

/-- The least and the greatest number of presets. -/
theorem test_meets_ResetHasInvariants :
    ex.Legal ∧ Params.Legal { ex with totalPresets := 1, pwmMax := 1 } ∧
      Params.Legal { ex with totalPresets := 31, pwmMax := 65535, scanDelayMax := 65535 } := by decide

theorem test_meets_ResetValues :
    (0 : BitVec 5).toNat < ex.totalPresets.val ∧ (23 : BitVec 5).toNat < ex.totalPresets.val := by decide

theorem test_meets_OnlyNamedCommandsWrite :
    runs (.pbSelect 5) s0 (fun t => t.events = [.latch locked, .active 5] ∧ dataOutput t = none) = true ∧
      s0.events = [] := by decide +kernel

/-- A command of two write events, seen between them. -/
theorem test_meets_InterleavedCommandReachesStep :
    steps (onPort s0 [0x07000005]) (fun t => t.trace.length = 2) = true ∧
      displayRead (Interleaved.controls (1 + 1) ⟨onPort s0 [0x07000005], []⟩).block 0x0005 = 5 := by
  decide +kernel

end Sys2Proof.Tests
end

section
/-! PROOFS. What every command does to the state, said once: it evolves by register write events and
draws alone. From it, that every step completes (00_scope R5, 60_exceptions R121), that a command
performs only the write events of the column "written by" of 10_state R35, and that what it drives on
the data output is RESULT (00_scope R8). -/

namespace Sys2Proof.Machine

/-! ## The data output -/

theorem dataOutput_of_no_event (s : State) (h : s.events = []) : dataOutput s = none := by
  simp [dataOutput, h]

/-- A write event drives its own value if it is one of RESULT; otherwise the output is as it was. -/
theorem dataOutput_write (s : State) (w : Write) :
    dataOutput (s.write w) = w.drives.or (dataOutput s) := by
  cases hw : w.drives <;> simp [dataOutput, hw]

/-- A write event that drives nothing leaves RESULT. -/
theorem Regs.result_apply (r : Regs) (w : Write) :
    (r.apply w).result = w.drives.getD r.result := by
  cases w <;> rfl

/-! ## A run of write events and draws -/

/-- `t` is reached from `s` by draws and by write events that `ok` holds of. -/
inductive Evolves (ok : Write → Prop) (s : State) : State → Prop
  | refl : Evolves ok s s
  | write {t : State} {w : Write} (h : Evolves ok s t) (hw : ok w) : Evolves ok s (t.write w)
  | takeAdc {t : State} (c : Channel) (n : Nat) (h : Evolves ok s t) : Evolves ok s (t.takeAdc c n)
  | takePoll {t : State} (b : Button) (h : Evolves ok s t) : Evolves ok s (t.takePoll b)

namespace Evolves

variable {ok : Write → Prop} {s t : State}

theorem cfg_eq (h : Evolves ok s t) : t.cfg = s.cfg := by
  induction h with
  | refl => rfl
  | write _ _ ih => simpa using ih
  | takeAdc _ _ _ ih => simpa using ih
  | takePoll _ _ ih => simpa using ih

/-- The events of the run are added to those before it, and `ok` holds of each. -/
theorem events_eq (h : Evolves ok s t) :
    ∃ ws : List Write, t.events = ws ++ s.events ∧ ∀ w ∈ ws, ok w := by
  induction h with
  | refl => exact ⟨[], rfl, by simp⟩
  | @write t w _ hw ih =>
    obtain ⟨ws, hev, hok⟩ := ih
    exact ⟨w :: ws, by simp [hev], by simpa using ⟨hw, hok⟩⟩
  | takeAdc _ _ _ ih => simpa using ih
  | takePoll _ _ ih => simpa using ih

/-- A run drives nothing new on the data output, or what it drove last is the value RESULT holds. -/
theorem dataOutput_eq (h : Evolves ok s t) :
    dataOutput t = dataOutput s ∨ dataOutput t = some t.regs.result := by
  induction h with
  | refl => exact .inl rfl
  | @write t w _ _ ih =>
    rw [dataOutput_write, State.write_regs, Regs.result_apply]
    cases w.drives with
    | none => simpa using ih
    | some v => exact .inr rfl
  | takeAdc _ _ _ ih => exact ih
  | takePoll _ _ ih => exact ih

/-! ## The shared operations as runs -/

theorem chUpdate (h : Evolves ok s t) (c : Channel) (hlo : ∀ v, ok (.accLo c v))
    (hhi : ∀ v, ok (.accHi c v)) : Evolves ok s (chUpdate t c) :=
  ((h.takeAdc c nRaw).write (hlo _)).write (hhi _)

theorem raise (h : Evolves ok s t) (cause : ErrorCause) (w : Word) (hst : ok (.status true))
    (hc : ∀ v, ok (.errCause v)) (hlo : ∀ v, ok (.errCmdLo v)) (hhi : ∀ v, ok (.errCmdHi v)) :
    Evolves ok s (t.raise cause w) := by
  unfold State.raise
  split
  · exact h.write hst
  · exact (((h.write (hc _)).write (hlo _)).write (hhi _)).write hst

theorem writeT0 (h : Evolves ok s t) (b : Button) (t0 : BitVec 32) (hlo : ∀ v, ok (.btnT0Lo b v))
    (hhi : ∀ v, ok (.btnT0Hi b v)) : Evolves ok s (t.writeT0 b t0) := by
  unfold State.writeT0
  split
  · exact h
  · exact (h.write (hlo _)).write (hhi _)

theorem takeoverLatch (h : Evolves ok s t) (i : Slot) (pm v : BitVec 8) (hl : ∀ l, ok (.latch l)) :
    Evolves ok s (takeoverLatch t i pm v) := by
  unfold Machine.takeoverLatch
  split
  · exact h.write (hl _)
  · exact h

end Evolves

/-! ## The operations of one command, as runs of its own write events (10_state R35) -/

/-- `t` is reached from `s` by draws and by write events that command `i` may perform. -/
abbrev Performs (i : Instr) (s t : State) : Prop := Evolves (fun w => w.allowedIn i = true) s t

namespace Performs

variable {i : Instr} {s t : State}

theorem refl (i : Instr) (s : State) : Performs i s s := Evolves.refl

theorem write (h : Performs i s t) {w : Write} (hw : w.allowedIn i = true) :
    Performs i s (t.write w) :=
  Evolves.write h hw

theorem chUpdate (h : Performs i s t) (c : Channel) (hc : readsChannel c i = true) :
    Performs i s (chUpdate t c) :=
  Evolves.chUpdate h c (by simp [Write.allowedIn, hc]) (by simp [Write.allowedIn, hc])

/-- A command that may raise may write the four error registers. -/
theorem raise (h : Performs i s t) (cause : ErrorCause) (w : Word) (hi : mayRaise i = true) :
    Performs i s (t.raise cause w) :=
  Evolves.raise h cause w (by simp [Write.allowedIn, hi]) (by simp [Write.allowedIn, hi])
    (by simp [Write.allowedIn, hi]) (by simp [Write.allowedIn, hi])

theorem sampleInto (h : Performs .scopeAcq s t) (j : Fin 200) :
    Performs .scopeAcq s (sampleInto t j) :=
  (h.chUpdate cvCh rfl).write rfl

theorem fastSamples (h : Performs .scopeAcq s t) : Performs .scopeAcq s (fastSamples t) :=
  List.foldlRecOn _ _ h fun _ ht j _ => ht.sampleInto j

theorem fastAcq (h : Performs .scopeAcq s t) : Performs .scopeAcq s (fastAcq t) :=
  (((((h.fastSamples).write rfl).write rfl).write rfl).write rfl).write rfl

theorem longAcq (h : Performs .scopeAcq s t) : Performs .scopeAcq s (longAcq t) :=
  ((((h.sampleInto _).write rfl).write rfl).write rfl).write rfl

theorem slotStep {settings : Bool} (h : Performs (.pbUpdate settings) s t) (set : BitVec 5)
    (i : Slot) : Performs (.pbUpdate settings) s (slotStep settings set t i) := by
  have hlatch : ∀ pm v, Performs (.pbUpdate settings) s
      (Machine.takeoverLatch (Machine.chUpdate t (potOf i)) i pm v) := fun pm v =>
    Evolves.takeoverLatch (h.chUpdate (potOf i) rfl) i pm v fun _ => rfl
  rw [slotStep_eq]
  refine Performs.write ?_ rfl
  split
  · exact (hlatch _ _).chUpdate cvCh rfl
  · exact hlatch _ _

theorem slotSteps {settings : Bool} (h : Performs (.pbUpdate settings) s t) :
    Performs (.pbUpdate settings) s (slotSteps settings t) :=
  ((h.slotStep _ 0).slotStep _ 1).slotStep _ 2

theorem writePwm {settings : Bool} (h : Performs (.pbUpdate settings) s t) :
    Performs (.pbUpdate settings) s (writePwm t) :=
  ((h.write rfl).write rfl).write rfl

end Performs

/-! ## Every command completes, by write events of its own -/

/-- A command answers a next state, which it reaches by draws and write events of its own. -/
def Completes (i : Instr) (s : State) : Prop := ∃ t, exec i s = .next t ∧ Performs i s t

theorem pbSetRange_completes (set : BitVec 5) (slot : BitVec 2) (max min : BitVec 8) (s : State) :
    Completes (.pbSetRange set slot max min) s := by
  simp only [Completes, exec, execPbSetRange]
  split
  · exact ⟨_, rfl, (Performs.refl _ s).raise _ _ rfl⟩
  · split
    · exact ⟨_, rfl, (Performs.refl _ s).raise _ _ rfl⟩
    · exact ⟨_, rfl, ((Performs.refl _ s).write rfl).write rfl⟩

theorem pbSetValue_completes (set : BitVec 5) (slot dmode : BitVec 2) (value : BitVec 8)
    (s : State) : Completes (.pbSetValue set slot dmode value) s := by
  simp only [Completes, exec, execPbSetValue]
  split
  · exact ⟨_, rfl, (Performs.refl _ s).raise _ _ rfl⟩
  · split
    · exact ⟨_, rfl, (Performs.refl _ s).raise _ _ rfl⟩
    · exact ⟨_, rfl, (Performs.refl _ s).write rfl⟩

theorem pbSelect_completes (preset : BitVec 5) (s : State) : Completes (.pbSelect preset) s := by
  simp only [Completes, exec, execPbSelect]
  split
  · exact ⟨_, rfl, (Performs.refl _ s).raise _ _ rfl⟩
  · exact ⟨_, rfl, ((Performs.refl _ s).write rfl).write rfl⟩

theorem pbUpdate_completes (settings : Bool) (s : State) : Completes (.pbUpdate settings) s := by
  have hslots := (Performs.refl (.pbUpdate settings) s).slotSteps
  simp only [Completes, exec, execPbUpdate]
  refine ⟨_, rfl, Performs.writePwm ?_⟩
  split
  next hset => exact hslots.write hset
  next => exact hslots

theorem scopeAcq_completes (s : State) : Completes .scopeAcq s := by
  simp only [Completes, exec, execScopeAcq]
  split
  · exact ⟨_, rfl, (Performs.refl _ s).fastAcq⟩
  · exact ⟨_, rfl, (Performs.refl _ s).longAcq⟩

theorem regRead_completes (addr : BitVec 16) (s : State) : Completes (.regRead addr) s := by
  simp only [Completes, exec, execRegRead]
  split
  · exact ⟨_, rfl, (Performs.refl _ s).raise _ _ rfl⟩
  · exact ⟨_, rfl, (Performs.refl _ s).write rfl⟩

theorem btnPoll_completes (b : Button) (s : State) : Completes (.btnPoll b) s := by
  have hT0 : Performs (.btnPoll b) s ((s.takePoll b).writeT0 b (polledOutcome s b).t0) :=
    (Evolves.refl.takePoll b).writeT0 b _ (by simp [Write.allowedIn]) (by simp [Write.allowedIn])
  exact ⟨_, rfl, (hT0.write (by simp [Write.allowedIn])).write rfl⟩

/-- Every command completes, by draws and by write events that its column of R35 names. -/
theorem exec_completes (i : Instr) (s : State) : Completes i s := by
  cases i with
  | nop => exact ⟨s, rfl, .refl _ s⟩
  | chInit c offset =>
    exact ⟨_, rfl, (((Performs.refl _ s).write (by simp [Write.allowedIn])).write
      (by simp [Write.allowedIn])).write (by simp [Write.allowedIn])⟩
  | chRead c smooth =>
    exact ⟨_, rfl, ((Performs.refl _ s).chUpdate c (by simp [readsChannel])).write rfl⟩
  | btnInit b hold =>
    exact ⟨_, rfl, ((((Performs.refl _ s).write (by simp [Write.allowedIn])).write
      (by simp [Write.allowedIn])).write (by simp [Write.allowedIn])).write
      (by simp [Write.allowedIn])⟩
  | btnPoll b => exact btnPoll_completes b s
  | pbSetRange set slot max min => exact pbSetRange_completes set slot max min s
  | pbSetValue set slot dmode value => exact pbSetValue_completes set slot dmode value s
  | pbSelect preset => exact pbSelect_completes preset s
  | pbRearm => exact ⟨_, rfl, (Performs.refl _ s).write rfl⟩
  | pbUpdate settings => exact pbUpdate_completes settings s
  | cvaWrite depth target mode => exact ⟨_, rfl, (Performs.refl _ s).write rfl⟩
  | scopeHalve => exact ⟨_, rfl, ((Performs.refl _ s).write rfl).write rfl⟩
  | scopeDouble => exact ⟨_, rfl, ((Performs.refl _ s).write rfl).write rfl⟩
  | scopeAcq => exact scopeAcq_completes s
  | regRead addr => exact regRead_completes addr s
  | errClear => exact ⟨_, rfl, ((((Performs.refl _ s).write rfl).write rfl).write rfl).write rfl⟩

/-! ## The statements -/

/-- Settles O9: a step waits, records an illegal word, or runs a command, which completes. -/
theorem everyStepCompletes : Obligations.EveryStepCompletes := by
  unfold Obligations.EveryStepCompletes
  refine ⟨fun s => ?_, fun s hport => ?_⟩
  · rcases step_cases s _ rfl with ⟨_, hs⟩ | ⟨w, rest, cause, _, _, hs⟩ | ⟨w, rest, i, _, _, hs⟩
    · exact ⟨_, hs, rfl⟩
    · exact ⟨_, hs, by simp⟩
    · obtain ⟨t, ht, hrun⟩ := exec_completes i { s with port := rest, events := [] }
      exact ⟨t, hs.trans ht, hrun.cfg_eq⟩
  · simp [step, (fetch_eq_none s).2 hport, State.idle]

/-- Settles O58: a command is a run of its own write events, and only RESULT's drive the output. -/
theorem onlyNamedCommandsWrite : Obligations.OnlyNamedCommandsWrite := by
  unfold Obligations.OnlyNamedCommandsWrite
  intro s t i hexec
  have hrun : Performs i s t := by
    obtain ⟨t', ht', hrun⟩ := exec_completes i s
    cases hexec.symm.trans ht'
    exact hrun
  obtain ⟨ws, hev, hok⟩ := hrun.events_eq
  refine ⟨ws, hev, hok, fun hnil => ?_⟩
  simpa [dataOutput_of_no_event s hnil] using hrun.dataOutput_eq

end Sys2Proof.Machine
end

section
/-! PROOFS. What REG_READ, CH_READ and BTN_POLL do, each from one lemma on the shared operation it is
made of (45_system R114, 40_analog R71, R74, 41_button R77 to R82). -/

namespace Sys2Proof.Machine

/-! ## A result (00_scope R8) -/

section Produce

variable (s : State) (v : Half)

@[simp] theorem State.produce_cfg : (s.produce v).cfg = s.cfg := rfl
@[simp] theorem State.produce_regs : (s.produce v).regs = { s.regs with result := v } := rfl
@[simp] theorem State.produce_env : (s.produce v).env = s.env := rfl
@[simp] theorem State.produce_port : (s.produce v).port = s.port := rfl
@[simp] theorem State.produce_events : (s.produce v).events = .result v :: s.events := rfl
@[simp] theorem dataOutput_produce : dataOutput (s.produce v) = some v := rfl

end Produce

/-! ## The mapped addresses (20_memory R38) -/

theorem nSets_le (p : Params) : p.nSets ≤ 32 := p.totalPresets.isLt

theorem addressLegal_iff (p : Params) (addr : BitVec 16) :
    addressLegal p addr = true ↔
      addr.toNat ≤ 0x0017 ∨ (0x0020 ≤ addr.toNat ∧ addr.toNat ≤ 0x0032) ∨
      (0x1000 ≤ addr.toNat ∧ addr.toNat < 0x1000 + 8 * p.nSets ∧ addr.toNat % 8 ≤ 5) ∨
      (0x2000 ≤ addr.toNat ∧ addr.toNat ≤ 0x20C7) := by
  simp [addressLegal, or_assoc]

theorem lowRegs_isSome (a : Nat) : (lowRegs[a]?).isSome = true ↔ a < 0x0010 := by
  simp [lowRegs]

/-- Slot 3 of a set is unmapped, the two addresses of each other slot are mapped. -/
theorem paramRegAt_isSome (a : Nat) : (paramRegAt a).isSome = true ↔ a % 8 ≤ 5 := by
  unfold paramRegAt
  split
  · split <;> simp <;> omega
  · simp; omega

/-- The mapped addresses are the ranges that the map lists. -/
theorem regAt_isSome (p : Params) (addr : BitVec 16) :
    (regAt p addr).isSome = addressLegal p addr := by
  -- the map's chain of tests becomes one formula on the address
  have hsets := nSets_le p
  rw [Bool.eq_iff_iff, addressLegal_iff]
  simp only [regAt, apply_ite Option.isSome, apply_ite (· = true), lowRegs_isSome,
    paramRegAt_isSome, Option.isSome_some, Option.isSome_none, Bool.false_eq_true, ite_self,
    ite_prop_iff_or, and_true, and_false, false_or, or_false]
  omega

/-! ## REG_READ (45_system R114) -/

theorem State.raise_noDraw (s : State) (cause : ErrorCause) (w : Word) :
    NoDraw s (s.raise cause w) :=
  ⟨⟨State.raise_cfg s cause w, State.raise_port s cause w⟩, State.raise_env s cause w⟩

theorem exec_regRead_of_some (s : State) (addr : BitVec 16) (g : Reg)
    (h : regAt s.cfg addr = some g) :
    exec (.regRead addr) s = .next (s.produce (displayRead s addr)) := by
  simp [exec, execRegRead, displayRead, memRead, h]

theorem exec_regRead_of_none (s : State) (addr : BitVec 16) (h : regAt s.cfg addr = none) :
    exec (.regRead addr) s = .next (s.raise .badAddress (encode (.regRead addr))) := by
  simp [exec, execRegRead, h]

/-- Settles O11: an address is legal exactly where the map has a register. -/
theorem regReadOfAddress : Obligations.RegReadOfAddress := by
  unfold Obligations.RegReadOfAddress
  intro s addr
  rw [← regAt_isSome]
  cases hg : regAt s.cfg addr with
  | none => exact ⟨by simp, fun _ => ⟨_, exec_regRead_of_none s addr hg, State.raise_regs _ _ _,
      State.raise_noDraw _ _ _⟩⟩
  | some g => exact ⟨fun _ => ⟨_, exec_regRead_of_some s addr g hg, State.produce_regs _ _,
      ⟨⟨rfl, rfl⟩, rfl⟩, State.produce_events _ _, dataOutput_produce _ _⟩, by simp⟩

/-! ## CH_READ (40_analog R71, R74) -/

theorem exec_chRead (s : State) (c : Channel) (smooth : Bool) :
    exec (.chRead c smooth) s =
      .next ((chUpdate s c).produce ((chValue s c smooth).setWidth 16)) := rfl

/-- Averaging and subtracting the offset, in the numbers of R71. -/
theorem chSample_eq (s : State) (c : Channel) :
    chSample s c = ((List.range 16).map fun k => (s.adcDraw c k).toNat).sum / 16 -
      (s.regs.ch[c.val]).offset.toNat := rfl

theorem chAcc_eq (s : State) (c : Channel) :
    chAcc s c = min ((s.regs.acc c * s.cfg.alphaQ16.val +
      chSample s c * s.cfg.kQ16.val * 2 ^ 16) / 2 ^ 16) (4095 * 2 ^ 16) := rfl

/-- The value of a read, as the number that RESULT takes. -/
theorem chValue_setWidth (s : State) (c : Channel) (smooth : Bool) :
    (chValue s c smooth).setWidth 16 = BitVec.ofNat 16
      (if smooth then min 4095 ((chAcc s c + 2 ^ 15) / 2 ^ 16) else chSample s c) := by
  have hle := chSample_le s c
  apply BitVec.eq_of_toNat_eq
  cases smooth with
  | false =>
    simp only [chValue, Bool.false_eq_true, if_false, BitVec.toNat_setWidth, BitVec.toNat_ofNat]
    omega
  | true => simp only [chValue, if_true, BitVec.toNat_setWidth, BitVec.toNat_ofNat, filtered_toNat]

/-- The halves of ACC that a read writes, as numbers of the accumulator. -/
theorem accHalves (s : State) (c : Channel) :
    lowHalf (BitVec.ofNat 32 (chAcc s c)) = BitVec.ofNat 16 (chAcc s c) ∧
      highHalf (BitVec.ofNat 32 (chAcc s c)) = BitVec.ofNat 16 (chAcc s c / 2 ^ 16) := by
  have hacc : (BitVec.ofNat 32 (chAcc s c)).toNat = chAcc s c := by
    have hle := chAcc_le s c
    rw [BitVec.toNat_ofNat, Nat.mod_eq_of_lt (by omega)]
  rw [lowHalf_eq_ofNat, highHalf_eq_ofNat, hacc]
  exact ⟨rfl, rfl⟩

/-- Settles O20: the read of the filter, its accumulator and its value each as a number. -/
theorem chReadFiltersSample : Obligations.ChReadFiltersSample := by
  unfold Obligations.ChReadFiltersSample
  rintro s c smooth _ _ _ rfl rfl rfl
  rw [← chSample_eq, ← chAcc_eq]
  obtain ⟨hlo, hhi⟩ := accHalves s c
  have hval := chValue_setWidth s c smooth
  have hacc : (chUpdate s c).regs.acc c = chAcc s c := by rw [chUpdate_acc, if_pos rfl]
  refine ⟨_, exec_chRead s c smooth, ?_, hacc, ?_, dataOutput_produce _ _, rfl, rfl, rfl⟩
  · rw [State.produce_regs, chUpdate_eq, hlo, hhi, hval]
  · rw [State.produce_events, chUpdate_eq, hlo, hhi]
    rfl

/-! ## BTN_POLL (41_button R77 to R82) -/

/-- The newest level enters bit 0, the oldest leaves at bit 7 (41_button R77). -/
theorem shiftIn_toNat (shift : BitVec 8) (level : Bool) :
    (shiftIn shift level).toNat = (shift.toNat * 2 + level.toNat) % 256 := by
  have hbit := level.toNat_lt
  have hlevel : ((BitVec.ofBool level).setWidth 8).toNat = level.toNat := by
    cases level <;> rfl
  have hshift : (shift <<< 1).toNat = (shift.toNat % 2 ^ 7) <<< 1 := by
    simp only [BitVec.toNat_shiftLeft, Nat.shiftLeft_eq]
    omega
  rw [shiftIn, BitVec.toNat_or, hlevel, hshift, ← Nat.shiftLeft_add_eq_or_of_lt (by omega),
    Nat.shiftLeft_eq]
  omega

theorem polledShift_eq (s : State) (b : Button) (sh : BitVec 8)
    (h : sh.toNat = ((s.regs.btn[b.val]).shift.toNat * 2 + (s.pinDraw b).toNat) % 256) :
    polledShift s b = sh :=
  BitVec.eq_of_toNat_eq (by rw [polledShift, shiftIn_toNat, h])

/-- The halves of T0 are the two registers that hold it (10_state R27). -/
theorem t0_halves (r : Regs) (b : Button) :
    lowHalf (r.t0 b) = (r.btn[b.val]).t0Lo ∧ highHalf (r.t0 b) = (r.btn[b.val]).t0Hi := by
  have hlo := (r.btn[b.val]).t0Lo.isLt
  constructor <;> apply BitVec.eq_of_toNat_eq
  · rw [lowHalf_toNat, Regs.t0, joinHalves_toNat]
    omega
  · rw [highHalf_toNat, Regs.t0, joinHalves_toNat]
    omega

/-- The write events of the timestamp, newest first: none where it did not change. -/
theorem State.writeT0_events (s : State) (b : Button) (t0 : BitVec 32) :
    (s.writeT0 b t0).events =
      (if t0 = s.regs.t0 b then [] else [.btnT0Hi b (highHalf t0), .btnT0Lo b (lowHalf t0)]) ++
        s.events := by
  unfold State.writeT0
  split <;> rfl

/-- The state after a poll of button `b`. -/
def polled (s : State) (b : Button) : State :=
  let o := polledOutcome s b
  (((s.takePoll b).writeT0 b o.t0).write (.btnState b o.evt o.stage (polledShift s b))).produce
    ((eventCode o.evt).setWidth 16)

theorem exec_btnPoll (s : State) (b : Button) : exec (.btnPoll b) s = .next (polled s b) := rfl

section Polled

variable (s : State) (b : Button)

@[simp] theorem polled_cfg : (polled s b).cfg = s.cfg := by simp [polled]
@[simp] theorem polled_port : (polled s b).port = s.port := by simp [polled]
@[simp] theorem polled_env : (polled s b).env = { s.env with
    pin := s.env.pin.set b.val (s.env.pin[b.val].advance 1), now := s.env.now.advance 1 } := by
  simp [polled]

/-- A poll changes the button's registers, but for HOLD, and RESULT. -/
theorem polled_regs : (polled s b).regs = { s.regs with
    btn := s.regs.btn.set b.val ⟨polledShift s b, (polledOutcome s b).stage, (polledOutcome s b).evt,
      (s.regs.btn[b.val]).hold, lowHalf (polledOutcome s b).t0, highHalf (polledOutcome s b).t0⟩
    result := (eventCode (polledOutcome s b).evt).setWidth 16 } := by
  simp [polled, State.writeT0_regs]

theorem polled_events : (polled s b).events =
    [.result ((eventCode (polledOutcome s b).evt).setWidth 16),
      .btnState b (polledOutcome s b).evt (polledOutcome s b).stage (polledShift s b)] ++
    (if (polledOutcome s b).t0 = s.regs.t0 b then []
      else [.btnT0Hi b (highHalf (polledOutcome s b).t0),
        .btnT0Lo b (lowHalf (polledOutcome s b).t0)]) ++ s.events := by
  change [_, _] ++ ((s.takePoll b).writeT0 b _).events = _
  rw [State.writeT0_events]
  rfl

theorem polled_dataOutput : dataOutput (polled s b) = some (polled s b).regs.result := by
  simp [polled]

end Polled

/-! ### What a poll decides -/

/-- The held branch, field by field (41_button R80). -/
theorem pollHeld_eq (sh : BitVec 8) (t0 : BitVec 32) :
    pollHeld sh t0 =
      ⟨if sh = 0x0F then .heldConfirmed else if sh = 0x00 then .holding else .none,
        if sh = 0x0F then .idle else .held, t0⟩ := by
  unfold pollHeld
  split
  · rfl
  · split <;> rfl

theorem eventCode_held (confirmed holding : Prop) [Decidable confirmed] [Decidable holding] :
    (eventCode (if confirmed then .heldConfirmed else if holding then .holding else .none)).setWidth 16
      = if confirmed then 4#16 else if holding then 3#16 else 0#16 := by
  split_ifs <;> rfl

theorem eventCode_edge (pressed released : Prop) [Decidable pressed] [Decidable released] :
    (eventCode (if pressed then .pressed else if released then .released else .none)).setWidth 16
      = if pressed then 1#16 else if released then 2#16 else 0#16 := by
  split_ifs <;> rfl

/-- The subtraction of the clock's 32-bit counts, in numbers (41_button R82). -/
theorem elapsed_eq (now t0 : BitVec 32) :
    elapsed now t0 = (now.toNat + 2 ^ 32 - t0.toNat) % 2 ^ 32 := by
  have := t0.isLt
  rw [elapsed, BitVec.toNat_sub]
  congr 1
  omega

/-- The stage after the edge branch (41_button R81). -/
def edgeStage (sh : BitVec 8) (st : Stage) (t0 now : BitVec 32) (hold : Half) : Stage :=
  if sh = 0xF0 ∨ sh = 0x0F then .idle
  else if sh = 0x00 then
    (if st = .idle then .waiting
     else if hold.toNat ≤ (now.toNat + 2 ^ 32 - t0.toNat) % 2 ^ 32 then .held
     else .waiting)
  else st

/-- The edge branch, field by field, for a stage that is not Held (41_button R81). -/
theorem pollEdge_eq (sh : BitVec 8) (st : Stage) (t0 now : BitVec 32) (hold : Half)
    (hst : st ≠ .held) :
    pollEdge sh st t0 now hold =
      ⟨if sh = 0xF0 then .pressed else if sh = 0x0F then .released else .none,
        edgeStage sh st t0 now hold, if sh = 0x00 ∧ st = .idle then now else t0⟩ := by
  unfold pollEdge edgeStage
  rw [← elapsed_eq]
  by_cases hF0 : sh = 0xF0
  · simp [hF0]
  by_cases h0F : sh = 0x0F
  · simp [h0F]
  rw [if_neg hF0, if_neg h0F, if_neg hF0, if_neg h0F, if_neg (not_or.2 ⟨hF0, h0F⟩)]
  by_cases h00 : sh = 0x00
  · cases st with
    | held => exact absurd rfl hst
    | idle => simp [h00]
    | waiting =>
      by_cases hlong : hold.toNat ≤ elapsed now t0
      · simp [h00, hlong]
      · simp [h00, hlong]
  · rw [if_neg h00, if_neg h00, if_neg fun h => h00 h.1]

/-- Settles O25: the poll decides by the held branch, which keeps T0. -/
theorem pollWhileHeld : Obligations.PollWhileHeld := by
  unfold Obligations.PollWhileHeld
  intro s b sh hheld hsh
  have hshift := polledShift_eq s b sh hsh
  obtain ⟨hlo, hhi⟩ := t0_halves s.regs b
  have hout : polledOutcome s b = pollHeld sh (s.regs.t0 b) := by
    rw [polledOutcome, hshift, hheld, pollOutcome, if_pos rfl]
  have hregs := polled_regs s b
  have hevents := polled_events s b
  rw [hout, pollHeld_eq, hshift] at hregs hevents
  simp only [eventCode_held, hlo, hhi, if_true] at hregs hevents
  exact ⟨polled s b, _, _, exec_btnPoll s b, rfl, rfl, hregs, by rw [hregs]; exact hevents,
    polled_dataOutput s b, polled_env s b, polled_cfg s b, polled_port s b⟩

/-- Settles O26: the poll decides by the edge branch, which changes T0 only on Idle to Waiting. -/
theorem pollWhileNotHeld : Obligations.PollWhileNotHeld := by
  unfold Obligations.PollWhileNotHeld
  intro s b sh hheld hsh
  have hshift := polledShift_eq s b sh hsh
  have hout : polledOutcome s b = pollEdge sh s.regs.btn[b.val].stage (s.regs.t0 b) s.nowDraw
      s.regs.btn[b.val].hold := by
    rw [polledOutcome, hshift, pollOutcome, if_neg hheld]
  have hregs := polled_regs s b
  have hevents := polled_events s b
  rw [hout, pollEdge_eq _ _ _ _ _ hheld, hshift] at hregs hevents
  simp only [eventCode_edge, lowHalf_eq_ofNat, highHalf_eq_ofNat] at hregs hevents
  exact ⟨polled s b, _, _, _, exec_btnPoll s b, rfl, rfl, rfl, hregs, by rw [hregs]; exact hevents,
    polled_dataOutput s b, polled_env s b, polled_cfg s b, polled_port s b⟩

end Sys2Proof.Machine
end

section
/-! PROOFS. Every command is a run of legal write events that keeps the invariants (10_state R34,
70_reset R140). A write event by itself keeps each register in its own range; the three relations
that span registers (a stored value and its range, the halves of ACC, ERR and what it guards) hold at
the ends of the shared operations, not between their events. -/

namespace Sys2Proof.Machine

variable {p : Params} {r : Regs} {s t u : State}

/-! ## A parameter entry after a write event -/

/-- Entry `(k, j)` after entry `(set, i)` is replaced. -/
theorem Regs.param_set (set k : BitVec 5) (i j : Slot) (q : Param) :
    ({ r with params :=
        r.params.set set.toNat (r.params[set.toNat].set i.val q) } : Regs).param k j =
      if k = set ∧ j = i then q else r.param k j := by
  by_cases hk : k = set
  · subst hk
    simp [Regs.param, Vector.getElem_set, Fin.val_inj, eq_comm]
  · have hv : set.toNat ≠ k.toNat := fun e => hk (BitVec.eq_of_toNat_eq e.symm)
    simp [Regs.param, Vector.getElem_set_ne, hv, hk]

theorem Regs.param_apply_pval (set k : BitVec 5) (i j : Slot) (d : DMode) (v : BitVec 8) :
    (r.apply (.pval set i d v)).param k j =
      if k = set ∧ j = i then { r.param set i with dmode := d, value := v } else r.param k j :=
  Regs.param_set set k i j _

theorem Regs.param_apply_prange (set k : BitVec 5) (i j : Slot) (mx mn : BitVec 8) :
    (r.apply (.prange set i mx mn)).param k j =
      if k = set ∧ j = i then { r.param set i with max := mx, min := mn } else r.param k j :=
  Regs.param_set set k i j _

/-! ## The invariant as each register's range and the relations between registers -/

/-- A stored value is within its entry's range (10_state R32). -/
def Param.InRange (q : Param) : Prop := q.min.toNat ≤ q.value.toNat ∧ q.value.toNat ≤ q.max.toNat

/-- The relations of R34 that span registers, which a command may break between two of its write
events. -/
structure Regs.Related (p : Params) (r : Regs) : Prop where
  inRange : ∀ set : BitVec 5, set.toNat < p.nSets → ∀ i : Slot, (r.param set i).InRange
  acc : ∀ c : Channel, r.acc c ≤ 4095 * 2 ^ 16
  noError : r.err = false → r.errCause = none ∧ r.errCmdLo = 0 ∧ r.errCmdHi = 0

/-- The high half of an accumulator of at most ADC_MAX in 16.16 is at most ADC_MAX. -/
theorem accHi_le_of_acc_le (c : Channel) (h : r.acc c ≤ 4095 * 2 ^ 16) :
    (r.ch[c.val]).accHi.toNat ≤ 4095 := by
  rw [Regs.acc, joinHalves_toNat] at h
  omega

theorem Regs.inv_iff : r.Inv p ↔ r.EachLegal p ∧ r.Related p := by
  constructor
  · rintro ⟨hactive, hdepth, hparam, hdelay, htrig, hacc, hpwm, herr⟩
    exact ⟨⟨hactive, hdepth, fun k hk i => (hparam k hk i).1, hdelay, htrig,
      fun c => accHi_le_of_acc_le c (hacc c), hpwm⟩, fun k hk i => (hparam k hk i).2, hacc, herr⟩
  · rintro ⟨⟨hactive, hdepth, hrange, hdelay, htrig, -, hpwm⟩, hrel⟩
    exact ⟨hactive, hdepth, fun k hk i => ⟨hrange k hk i, hrel.inRange k hk i⟩, hdelay, htrig,
      hrel.acc, hpwm, hrel.noError⟩

/-- Every existing entry of a state of the invariant is legal. -/
theorem State.Inv.param_legal (h : s.Inv) {set : BitVec 5} (hset : set.toNat < s.cfg.nSets)
    (i : Slot) : (s.regs.param set i).Legal := by
  obtain ⟨-, -, -, hparam, -⟩ := h
  exact hparam set hset i

/-- The active preset is a set that exists. -/
theorem State.Inv.active_lt (h : s.Inv) : s.regs.active.toNat < s.cfg.nSets := by
  obtain ⟨-, hactive, -⟩ := h
  exact Nat.lt_succ_of_lt hactive

/-- A legal write event keeps every register in its own range: its own by the event's legality, any
other unchanged. -/
theorem Regs.EachLegal.apply (h : r.EachLegal p) {w : Write} (hw : w.Legal p r) :
    (r.apply w).EachLegal p := by
  obtain ⟨hactive, hdepth, hrange, hdelay, htrig, hacc, hpwm⟩ := h
  cases w with
  | active v => exact ⟨hw, hdepth, hrange, hdelay, htrig, hacc, hpwm⟩
  | cva v => exact ⟨hactive, hw, hrange, hdelay, htrig, hacc, hpwm⟩
  | scopeDelay v => exact ⟨hactive, hdepth, hrange, hw, htrig, hacc, hpwm⟩
  | scopeTrig v => exact ⟨hactive, hdepth, hrange, hdelay, hw, hacc, hpwm⟩
  | accLo c v =>
    refine ⟨hactive, hdepth, hrange, hdelay, htrig, fun d => ?_, hpwm⟩
    have := hacc d
    simp only [Regs.apply_accLo, Vector.getElem_set]
    split <;> simp_all
  | accHi c v =>
    refine ⟨hactive, hdepth, hrange, hdelay, htrig, fun d => ?_, hpwm⟩
    simp only [Regs.apply_accHi, Vector.getElem_set]
    split
    · exact hw
    · exact hacc d
  | chOffset c v =>
    refine ⟨hactive, hdepth, hrange, hdelay, htrig, fun d => ?_, hpwm⟩
    have := hacc d
    simp only [Regs.apply_chOffset, Vector.getElem_set]
    split <;> simp_all
  | pwm i v =>
    refine ⟨hactive, hdepth, hrange, hdelay, htrig, hacc, fun j => ?_⟩
    simp only [Regs.apply_pwm, Vector.getElem_set]
    split
    · exact hw
    · exact hpwm j
  | pval set i d v =>
    refine ⟨hactive, hdepth, fun k hk j => ?_, hdelay, htrig, hacc, hpwm⟩
    rw [Regs.param_apply_pval]
    split
    next hkj => obtain ⟨rfl, rfl⟩ := hkj; exact hrange k hk j
    next => exact hrange k hk j
  | prange set i mx mn =>
    refine ⟨hactive, hdepth, fun k hk j => ?_, hdelay, htrig, hacc, hpwm⟩
    rw [Regs.param_apply_prange]
    split
    · exact hw.2
    · exact hrange k hk j
  | status | errCause | errCmdLo | errCmdHi | result | latch | scopeWr | scopeAvg | scopeRmin
  | scopeRmax | btnState | btnHold | btnT0Lo | btnT0Hi | buf =>
    exact ⟨hactive, hdepth, hrange, hdelay, htrig, hacc, hpwm⟩

/-! ## Runs of legal write events -/

/-- `t` is reached from `s` by draws and by write events, each legal at the registers it finds.
It is `Evolves` with a condition that may speak of the registers before the event. -/
inductive LegalRun (s : State) : State → Prop
  | refl : LegalRun s s
  | write {t : State} {w : Write} (h : LegalRun s t)
      (hw : w.Legal t.cfg t.regs := by exact trivial) : LegalRun s (t.write w)
  | takeAdc {t : State} (c : Channel) (n : Nat) (h : LegalRun s t) : LegalRun s (t.takeAdc c n)
  | takePoll {t : State} (b : Button) (h : LegalRun s t) : LegalRun s (t.takePoll b)

namespace LegalRun

theorem cfg_eq (h : LegalRun s t) : t.cfg = s.cfg := by
  induction h with
  | refl => rfl
  | write _ _ ih => exact ih
  | takeAdc _ _ _ ih => exact ih
  | takePoll _ _ ih => exact ih

theorem eachLegal (h : LegalRun s t) (hs : s.regs.EachLegal s.cfg) : t.regs.EachLegal t.cfg := by
  induction h with
  | refl => exact hs
  | write _ hw ih => exact ih.apply hw
  | takeAdc _ _ _ ih => exact ih
  | takePoll _ _ ih => exact ih

theorem trans (h : LegalRun s t) (h' : LegalRun t u) : LegalRun s u := by
  induction h' with
  | refl => exact h
  | write _ hw ih => exact ih.write hw
  | takeAdc c n _ ih => exact ih.takeAdc c n
  | takePoll b _ ih => exact ih.takePoll b

/-- The write events of a run lead to its registers, and each is legal where it happens. -/
theorem trace_legal (h : LegalRun s t) (hs : s.events = []) :
    t.regs = s.regs.applyAll t.trace ∧
      ∀ (before after : List Write) (w : Write), t.trace = before ++ w :: after →
        w.Legal s.cfg (s.regs.applyAll before) := by
  induction h with
  | refl => simp [State.trace, hs]
  | @write t w hrun hw ih =>
    obtain ⟨hregs, hlegal⟩ := ih
    rw [State.trace_write]
    refine ⟨by simp [hregs], fun before after w' h => ?_⟩
    rcases List.eq_nil_or_concat after with rfl | ⟨after, last, rfl⟩
    · obtain ⟨rfl, hw'⟩ := List.append_inj' h rfl
      obtain rfl : w = w' := by simpa using hw'
      rwa [← hregs, ← hrun.cfg_eq]
    · refine hlegal before after w' (List.append_inj' (t₁ := [w]) (t₂ := [last]) ?_ rfl).1
      simpa using h
  | takeAdc _ _ _ ih => exact ih
  | takePoll _ _ ih => exact ih

end LegalRun

/-- Where every write event of a sequence is legal, each register is in its range after any
number of them. -/
theorem Regs.EachLegal.applyAll_take (h : r.EachLegal p) (ws : List Write)
    (hlegal : ∀ (before after : List Write) (w : Write), ws = before ++ w :: after →
      w.Legal p (r.applyAll before)) (k : Nat) : (r.applyAll (ws.take k)).EachLegal p := by
  induction k with
  | zero => exact h
  | succ k ih =>
    by_cases hk : k < ws.length
    · have hsplit : ws = ws.take k ++ ws[k] :: ws.drop (k + 1) := by
        rw [List.getElem_cons_drop, List.take_append_drop]
      rw [← List.take_concat_get' ws k hk, Regs.applyAll_append]
      exact ih.apply (hlegal _ _ _ hsplit)
    · rwa [List.take_of_length_le (by omega), ← List.take_of_length_le (Nat.not_lt.1 hk)]

/-! ## The relations between registers -/

/-- Whether a write event keeps the relations between registers by itself, if it is legal. The
others come in the groups of a shared operation. -/
def Write.standsAlone : Write → Bool
  | .status e => e
  | .errCause _ => false
  | .errCmdLo _ => false
  | .errCmdHi _ => false
  | .accLo _ _ => false
  | .accHi _ _ => false
  | .prange _ _ _ _ => false
  | _ => true

theorem Regs.Related.apply (h : r.Related p) {w : Write} (hw : w.Legal p r)
    (halone : w.standsAlone = true) : (r.apply w).Related p := by
  obtain ⟨hrange, hacc, herr⟩ := h
  cases w with
  | status e =>
    obtain rfl : e = true := halone
    exact ⟨hrange, hacc, by simp⟩
  | errCause | errCmdLo | errCmdHi | accLo | accHi | prange => cases halone
  | chOffset c v =>
    refine ⟨hrange, fun d => ?_, herr⟩
    have := hacc d
    simp only [Regs.acc, Regs.apply_chOffset, Vector.getElem_set] at this ⊢
    split <;> simp_all
  | pval set i d v =>
    refine ⟨fun k hk j => ?_, hacc, herr⟩
    rw [Regs.param_apply_pval]
    split
    · exact hw.2
    · exact hrange k hk j
  | result | active | latch | cva | scopeDelay | scopeWr | scopeAvg | scopeRmin | scopeRmax
  | scopeTrig | btnState | btnHold | btnT0Lo | btnT0Hi | pwm | buf =>
    exact ⟨hrange, hacc, herr⟩

/-! ## Runs that end in the invariant -/

/-- `t` is reached from `s` by legal write events and draws, and meets the invariant. -/
structure SafeRun (s t : State) : Prop where
  run : LegalRun s t
  inv : t.Inv

namespace SafeRun

theorem refl (h : s.Inv) : SafeRun s s := ⟨.refl, h⟩

/-- A run that goes on by legal write events to where the relations hold is safe. -/
theorem extend (h : SafeRun s t) (hrun : LegalRun t u) (hrel : u.regs.Related t.cfg) :
    SafeRun s u := by
  have hcfg := hrun.cfg_eq
  exact ⟨h.run.trans hrun, hcfg ▸ h.inv.1,
    Regs.inv_iff.2 ⟨hrun.eachLegal (Regs.inv_iff.1 h.inv.2).1, hcfg ▸ hrel⟩⟩

theorem related (h : SafeRun s t) : t.regs.Related t.cfg := (Regs.inv_iff.1 h.inv.2).2

theorem write (h : SafeRun s t) {w : Write} (hw : w.Legal t.cfg t.regs := by exact trivial)
    (halone : w.standsAlone = true := by rfl) : SafeRun s (t.write w) :=
  h.extend (LegalRun.refl.write hw) (h.related.apply hw halone)

theorem takePoll (h : SafeRun s t) (b : Button) : SafeRun s (t.takePoll b) :=
  h.extend (LegalRun.refl.takePoll b) h.related

theorem chUpdate (h : SafeRun s t) (c : Channel) : SafeRun s (chUpdate t c) := by
  have hacc := chAcc_le t c
  refine h.extend ((LegalRun.refl.takeAdc c nRaw).write.write ?_)
    ⟨h.related.inRange, fun d => ?_, h.related.noError⟩
  · simp only [Write.Legal, highHalf_toNat, BitVec.toNat_ofNat]
    omega
  · rw [chUpdate_acc]
    split
    · exact hacc
    · exact h.related.acc d

/-- Recording an error sets ERR, so what the error registers hold breaks no relation. -/
theorem raise (h : SafeRun s t) (cause : ErrorCause) (w : Word) : SafeRun s (t.raise cause w) := by
  have hrun : LegalRun t (t.raise cause w) := by
    unfold State.raise
    split
    · exact LegalRun.refl.write
    · exact LegalRun.refl.write.write.write.write
  refine h.extend hrun ?_
  rw [State.raise_regs]
  exact ⟨h.related.inRange, h.related.acc, by simp [Regs.recorded]⟩

theorem clearError (h : SafeRun s t) : SafeRun s t.clearError :=
  h.extend LegalRun.refl.write.write.write.write
    ⟨h.related.inRange, h.related.acc, fun _ => ⟨rfl, rfl, rfl⟩⟩

theorem writeT0 (h : SafeRun s t) (b : Button) (t0 : BitVec 32) : SafeRun s (t.writeT0 b t0) := by
  unfold State.writeT0
  split
  · exact h
  · exact h.write.write

theorem takeoverLatch (h : SafeRun s t) (i : Slot) (pm v : BitVec 8) :
    SafeRun s (takeoverLatch t i pm v) := by
  unfold Machine.takeoverLatch
  split
  · exact h.write
  · exact h

/-- The filter of a channel restarted at 0, low half first. -/
theorem restart (h : SafeRun s t) (c : Channel) :
    SafeRun s ((t.write (.accLo c 0)).write (.accHi c 0)) := by
  refine h.extend (LegalRun.refl.write.write (Nat.zero_le _))
    ⟨h.related.inRange, fun d => ?_, h.related.noError⟩
  have hd := h.related.acc d
  by_cases hcd : c.val = d.val
  · simp [Regs.acc, hcd]
  · simpa [Regs.acc, Vector.getElem_set_ne, hcd] using hd

/-- A new range and, in the next event, the stored value clamped into it (42_takeover R85). -/
theorem setRange (h : SafeRun s t) {set : BitVec 5} (i : Slot) {mx mn : BitVec 8} (d : DMode)
    (v : BitVec 8) (hset : set.toNat < t.cfg.nSets) (hrange : mn.toNat < mx.toNat) :
    SafeRun s ((t.write (.prange set i mx mn)).write (.pval set i d (clampByte v mn mx))) := by
  have hclamp := clampByte_toNat v mn mx
  refine h.extend (.write (.write .refl ⟨hset, hrange⟩) ⟨hset, ?_⟩)
    ⟨fun k hk j => ?_, h.related.acc, h.related.noError⟩
  · rw [State.write_regs, Regs.param_apply_prange, if_pos ⟨rfl, rfl⟩, hclamp]
    simp only
    omega
  · simp only [State.write_regs, Regs.param_apply_pval, Regs.param_apply_prange]
    split
    · simp only [Param.InRange, hclamp, and_self, if_true]
      omega
    · exact h.related.inRange k hk j

end SafeRun

/-! ## Values that a command computes are in their ranges -/

/-- Clamping into a range of bytes gives a byte of that range. -/
theorem ofInt_clampInt_mem (x : Int) {mn mx : BitVec 8} (h : mn.toNat ≤ mx.toNat) :
    mn.toNat ≤ (BitVec.ofInt 8 (clampInt x mn.toNat mx.toNat)).toNat ∧
      (BitVec.ofInt 8 (clampInt x mn.toNat mx.toNat)).toNat ≤ mx.toNat := by
  have hmx := mx.isLt
  simp only [clampInt, BitVec.toNat_ofInt]
  omega

/-- A read of the filter changes no parameter entry. -/
theorem chUpdate_param (c : Channel) (set : BitVec 5) (i : Slot) :
    (chUpdate s c).regs.param set i = s.regs.param set i := rfl

/-- The latch step changes no parameter entry. -/
theorem takeoverLatch_param (i j : Slot) (pm v : BitVec 8) (set : BitVec 5) :
    (takeoverLatch s i pm v).regs.param set j = s.regs.param set j := by
  rw [takeoverLatch_regs]
  rfl

/-- What the blend gives from a value in range is in range (43_cv R100 to R102). -/
theorem cvBlendValue_mem (mode : CvMode) {v mn mx : BitVec 8} (pm : BitVec 8) (cv d : Nat)
    (hv : mn.toNat ≤ v.toNat ∧ v.toNat ≤ mx.toNat) :
    mn.toNat ≤ (cvBlendValue mode v pm mn mx cv d).toNat ∧
      (cvBlendValue mode v pm mn mx cv d).toNat ≤ mx.toNat := by
  cases mode with
  | off => exact hv
  | bipolar => exact ofInt_clampInt_mem _ (hv.1.trans hv.2)
  | unipolar => exact ofInt_clampInt_mem _ (hv.1.trans hv.2)

/-- The value that one slot's step writes is in the slot's range: it follows the knob or stays,
and may be blended. -/
theorem slotValue_mem (settings : Bool) {set : BitVec 5} {i : Slot}
    (h : (s.regs.param set i).InRange) :
    (s.regs.param set i).min.toNat ≤ (slotValue settings set s i).toNat ∧
      (slotValue settings set s i).toNat ≤ (s.regs.param set i).max.toNat := by
  have hknob := ofInt_clampInt_mem
    (mapInt (chValue s (potOf i) true).toNat 0 adcMax (s.regs.param set i).min.toNat
      (s.regs.param set i).max.toNat) (h.1.trans h.2)
  simp only [slotValue]
  split
  · refine cvBlendValue_mem _ _ _ _ ?_
    split
    · exact hknob
    · exact h
  · split
    · exact hknob
    · exact h

/-- The block's map takes a point of the source range into the target range (00_scope R9). -/
theorem mapInt_mem {x inLo inHi outLo outHi : Int} (hin : inLo < inHi) (hout : outLo ≤ outHi)
    (hlo : inLo ≤ x) (hhi : x ≤ inHi) :
    outLo ≤ mapInt x inLo inHi outLo outHi ∧ mapInt x inLo inHi outLo outHi ≤ outHi := by
  have hpos : 0 < inHi - inLo := by omega
  have hdiv : 0 ≤ (x - inLo) * (outHi - outLo) / (inHi - inLo) :=
    Int.ediv_nonneg (Int.mul_nonneg (by omega) (by omega)) hpos.le
  have hle : (x - inLo) * (outHi - outLo) / (inHi - inLo) ≤ outHi - outLo := by
    refine Int.ediv_le_of_le_mul hpos ?_
    rw [Int.mul_comm]
    exact Int.mul_le_mul_of_nonneg_left (by omega) (by omega)
  unfold mapInt
  omega

/-- The PWM level of a legal entry is at most PWM_MAX (42_takeover R93). -/
theorem mapBack_le (p : Params) {q : Param} (h : q.Legal) :
    (mapBack p q.value q.min q.max).toNat ≤ p.pwmMax.val := by
  obtain ⟨hrange, hlo, hhi⟩ := h
  have hmax := p.pwmMax.isLt
  have hmem := mapInt_mem (x := q.value.toNat) (inLo := q.min.toNat) (inHi := q.max.toNat)
    (outLo := 0) (outHi := p.pwmMax.val) (by omega) (by omega) (by omega) (by omega)
  simp only [mapBack, BitVec.toNat_ofInt]
  omega

theorem settingsSet_lt (p : Params) : p.settingsSet.toNat < p.nSets := by
  have := p.totalPresets.isLt
  simp only [Params.settingsSet, Params.nSets, BitVec.toNat_ofNat]
  omega

/-- The set that PB_UPDATE runs on exists. -/
theorem updatedSet_lt (settings : Bool) (h : s.Inv) :
    (updatedSet settings s).toNat < s.cfg.nSets := by
  cases settings with
  | true => exact settingsSet_lt s.cfg
  | false => exact State.Inv.active_lt h

/-! ## The parts of the commands -/

namespace SafeRun

theorem slotStep (h : SafeRun s t) (settings : Bool) {set : BitVec 5} (i : Slot)
    (hset : set.toNat < t.cfg.nSets) : SafeRun s (slotStep settings set t i) := by
  have hvalue := slotValue_mem settings (h.related.inRange set hset i)
  have hlatch : ∀ pm v, SafeRun s (Machine.takeoverLatch (Machine.chUpdate t (potOf i)) i pm v) :=
    (h.chUpdate (potOf i)).takeoverLatch i
  rw [slotStep_eq]
  split
  · refine ((hlatch _ _).chUpdate cvCh).write ⟨?_, ?_⟩ rfl
    · simpa using hset
    · rwa [chUpdate_param, takeoverLatch_param, chUpdate_param]
  · refine (hlatch _ _).write ⟨?_, ?_⟩ rfl
    · simpa using hset
    · rwa [takeoverLatch_param, chUpdate_param]

theorem slotSteps (h : SafeRun s t) (settings : Bool) : SafeRun s (slotSteps settings t) := by
  have hset := updatedSet_lt settings h.inv
  exact ((h.slotStep settings 0 hset).slotStep settings 1 (by simpa using hset)).slotStep settings 2
    (by simpa using hset)

/-- The PWM levels are those of the active preset, a legal entry. -/
theorem writePwm (h : SafeRun s t) : SafeRun s (writePwm t) := by
  have hlevel : ∀ i, (pwmLevel t i).toNat ≤ t.cfg.pwmMax.val := fun i =>
    mapBack_le t.cfg (State.Inv.param_legal h.inv (State.Inv.active_lt h.inv) i)
  exact ((h.write (w := .pwm 0 _) (hlevel 0)).write (w := .pwm 1 _) (hlevel 1)).write (hlevel 2)

theorem sampleInto (h : SafeRun s t) (j : Fin 200) : SafeRun s (sampleInto t j) :=
  (h.chUpdate cvCh).write

theorem fastSamples (h : SafeRun s t) : SafeRun s (fastSamples t) :=
  List.foldlRecOn _ _ h fun _ ht j _ => ht.sampleInto j

theorem fastStats (h : SafeRun s t) : SafeRun s (fastStats t) :=
  h.write.write.write

theorem fastTrigger (h : SafeRun s t) : SafeRun s (fastTrigger t) := by
  refine (h.write ?_).write
  have := trigIndex_range (samples t.regs.buf)
    (trigLevel t.cfg (samples t.regs.buf) t.regs.scopeAvg)
  simp only [Write.Legal, BitVec.toNat_ofNat]
  omega

theorem longAcq (h : SafeRun s t) : SafeRun s (longAcq t) :=
  (h.sampleInto _).write.write.write.write (w := .scopeTrig 10) (by simp [Write.Legal])

end SafeRun

/-! ## Every command is a safe run -/

/-- The entry that SET and SLOT name exists. -/
theorem paramIndex_some {set k : BitVec 5} {slot : BitVec 2} {i : Slot}
    (h : paramIndex p set slot = some (k, i)) : k.toNat < p.nSets := by
  simp only [paramIndex, Option.ite_none_right_eq_some, Option.map_eq_some_iff, Prod.mk.injEq] at h
  obtain ⟨hset, -, -, rfl, -⟩ := h
  exact hset

theorem pbSetRange_safeRun (set : BitVec 5) (slot : BitVec 2) (max min : BitVec 8) (h : s.Inv)
    (ht : exec (.pbSetRange set slot max min) s = .next t) : SafeRun s t := by
  simp only [exec, execPbSetRange] at ht
  split at ht
  next => cases ht; exact (SafeRun.refl h).raise _ _
  next k i hindex =>
    split at ht
    next => cases ht; exact (SafeRun.refl h).raise _ _
    next hlt => cases ht; exact (SafeRun.refl h).setRange i _ _ (paramIndex_some hindex) (by omega)

theorem pbSetValue_safeRun (set : BitVec 5) (slot dmode : BitVec 2) (value : BitVec 8) (h : s.Inv)
    (ht : exec (.pbSetValue set slot dmode value) s = .next t) : SafeRun s t := by
  simp only [exec, execPbSetValue] at ht
  split at ht
  next => cases ht; exact (SafeRun.refl h).raise _ _
  next k i hindex =>
    split at ht
    next => cases ht; exact (SafeRun.refl h).raise _ _
    next d hd =>
      cases ht
      have hk := paramIndex_some hindex
      obtain ⟨hrange, -, -⟩ := State.Inv.param_legal h hk i
      exact (SafeRun.refl h).write ⟨hk, ofInt_clampInt_mem _ hrange.le⟩ rfl

theorem pbSelect_safeRun (preset : BitVec 5) (h : s.Inv)
    (ht : exec (.pbSelect preset) s = .next t) : SafeRun s t := by
  simp only [exec, execPbSelect] at ht
  split at ht
  next => cases ht; exact (SafeRun.refl h).raise _ _
  next hlt =>
    cases ht
    exact ((SafeRun.refl h).write (w := .active preset) (Nat.not_le.1 hlt)).write

theorem pbUpdate_safeRun (settings : Bool) (h : s.Inv)
    (ht : exec (.pbUpdate settings) s = .next t) : SafeRun s t := by
  have hslots := (SafeRun.refl h).slotSteps settings
  simp only [exec, execPbUpdate] at ht
  cases ht
  refine SafeRun.writePwm ?_
  split
  · exact hslots.write (legalCva_depth_le _ _ _)
  · exact hslots

theorem scopeHalve_safeRun (h : s.Inv) (ht : exec .scopeHalve s = .next t) : SafeRun s t := by
  obtain ⟨⟨-, -, -, hmin, hmax⟩, -, -, -, ⟨hlo, hhi⟩, -⟩ := id h
  cases ht
  refine ((SafeRun.refl h).write ?_).write
  simp only [Write.Legal, BitVec.toNat_ofNat]
  omega

theorem scopeDouble_safeRun (h : s.Inv) (ht : exec .scopeDouble s = .next t) : SafeRun s t := by
  obtain ⟨⟨-, -, -, hmin, hmax⟩, -, -, -, ⟨hlo, hhi⟩, -⟩ := id h
  cases ht
  refine ((SafeRun.refl h).write ?_).write
  simp only [Write.Legal, BitVec.toNat_ofNat]
  omega

theorem scopeAcq_safeRun (h : s.Inv) (ht : exec .scopeAcq s = .next t) : SafeRun s t := by
  simp only [exec, execScopeAcq] at ht
  split at ht
  · obtain rfl : fastAcq s = t := Host.Outcome.next.inj ht
    exact (SafeRun.refl h).fastSamples.fastStats.fastTrigger
  · cases ht; exact (SafeRun.refl h).longAcq

theorem regRead_safeRun (addr : BitVec 16) (h : s.Inv)
    (ht : exec (.regRead addr) s = .next t) : SafeRun s t := by
  simp only [exec, execRegRead] at ht
  split at ht
  · cases ht; exact (SafeRun.refl h).raise _ _
  · cases ht; exact (SafeRun.refl h).write

/-- Every command, from a state of the invariant, is a run of legal write events back to it. -/
theorem exec_safeRun (i : Instr) (h : s.Inv) (ht : exec i s = .next t) : SafeRun s t := by
  have hrefl := SafeRun.refl h
  cases i with
  | nop => cases ht; exact hrefl
  | chInit c offset => cases ht; exact hrefl.write.restart c
  | chRead c smooth => cases ht; exact (hrefl.chUpdate c).write
  | btnInit b hold =>
    cases ht
    exact hrefl.write.write.write.write
  | btnPoll b =>
    cases ht
    exact ((hrefl.takePoll b).writeT0 b _).write.write
  | pbSetRange set slot max min => exact pbSetRange_safeRun set slot max min h ht
  | pbSetValue set slot dmode value => exact pbSetValue_safeRun set slot dmode value h ht
  | pbSelect preset => exact pbSelect_safeRun preset h ht
  | pbRearm => cases ht; exact hrefl.write
  | pbUpdate settings => exact pbUpdate_safeRun settings h ht
  | cvaWrite depth target mode => cases ht; exact hrefl.write (legalCva_depth_le _ _ _)
  | scopeHalve => exact scopeHalve_safeRun h ht
  | scopeDouble => exact scopeDouble_safeRun h ht
  | scopeAcq => exact scopeAcq_safeRun h ht
  | regRead addr => exact regRead_safeRun addr h ht
  | errClear => cases ht; exact hrefl.clearError

/-- A step is a safe run from where its command starts: the word taken, no write event yet. -/
theorem step_safeRun (h : s.Inv) (ht : step s = .next t) :
    ∃ rest, SafeRun { s with port := rest, events := [] } t := by
  rcases step_cases s _ ht with ⟨-, ho⟩ | ⟨w, rest, cause, -, -, ho⟩ | ⟨w, rest, i, -, -, ho⟩
  · cases ho
    exact ⟨s.port, .refl h⟩
  · cases ho
    have hstart : State.Inv { s with port := rest, events := [] } := h
    exact ⟨rest, (SafeRun.refl hstart).raise cause w⟩
  · exact ⟨rest, exec_safeRun i h ho.symm⟩

/-! ## The statements -/

/-- Settles O55: every command is a safe run. -/
theorem stepKeepsInvariants : Obligations.StepKeepsInvariants := by
  unfold Obligations.StepKeepsInvariants
  intro s t h ht
  obtain ⟨rest, hrun⟩ := step_safeRun h ht
  exact hrun.inv

/-- Settles O59: the events of a safe run are legal where they happen, and legal events keep each
register in its range. -/
theorem everyWriteEventIsLegal : Obligations.EveryWriteEventIsLegal := by
  unfold Obligations.EveryWriteEventIsLegal
  intro s t h ht
  obtain ⟨rest, hrun⟩ := step_safeRun h ht
  obtain ⟨-, hlegal⟩ := hrun.run.trace_legal rfl
  exact ⟨hlegal, (Regs.inv_iff.1 h.2).1.applyAll_take t.trace hlegal⟩

end Sys2Proof.Machine
end

section
/-! PROOFS. The registers as their 16-bit values show them: the fields in their places (10_state
R13 to R33), the derived registers (R24, R29), what one write event can change of them (R43), and the
invariants at reset (R34, R132). -/

namespace Sys2Proof.Machine

variable {p : Params} {r : Regs}

/-! ## Fields in their places (10_state R13 to R33) -/

/-- Concatenation in numbers: the low part has the low bits. -/
theorem toNat_append_eq_add {m n : Nat} (hi : BitVec m) (lo : BitVec n) :
    (hi ++ lo).toNat = hi.toNat * 2 ^ n + lo.toNat := by
  rw [BitVec.toNat_append, ← Nat.shiftLeft_add_eq_or_of_lt lo.isLt, Nat.shiftLeft_eq]

theorem causeCode_le (c : Option ErrorCause) : causeCode c ≤ 6 := by
  rcases c with - | (_ | _ | _ | _ | _ | _) <;> simp [causeCode]

theorem readReg_latch_toNat : (readReg p r .latch).toNat =
    r.latch[0].toNat + 2 * r.latch[1].toNat + 4 * r.latch[2].toNat := by
  simp only [readReg, toNat_append_eq_add, BitVec.toNat_ofBool, BitVec.toNat_ofNat]
  omega

theorem readReg_cva_toNat : (readReg p r .cva).toNat =
    (cvModeCode r.cva.mode).toNat + 4 * r.cva.target.val + 16 * r.cva.depth.toNat := by
  have := r.cva.target.isLt
  simp only [readReg, toNat_append_eq_add, BitVec.toNat_ofNat]
  omega

theorem readReg_btnState_toNat (b : Button) : (readReg p r (.btnState b)).toNat =
    (r.btn[b.val]).shift.toNat + 256 * (stageCode (r.btn[b.val]).stage).toNat +
      1024 * (eventCode (r.btn[b.val]).evt).toNat := by
  simp only [readReg, toNat_append_eq_add, BitVec.toNat_ofNat]
  omega

theorem readReg_pval_toNat (set : BitVec 5) (i : Slot) : (readReg p r (.pval set i)).toNat =
    (r.param set i).value.toNat + 256 * (dmodeCode (r.param set i).dmode).toNat := by
  simp only [readReg, toNat_append_eq_add, BitVec.toNat_ofNat]
  omega

theorem readReg_prange_toNat (set : BitVec 5) (i : Slot) : (readReg p r (.prange set i)).toNat =
    (r.param set i).min.toNat + 256 * (r.param set i).max.toNat := by
  simp only [readReg, toNat_append_eq_add]
  omega

theorem readReg_errCause_toNat : (readReg p r .errCause).toNat = causeCode r.errCause := by
  have := causeCode_le r.errCause
  simp only [readReg, BitVec.toNat_ofNat]
  omega

theorem readReg_scopeWr_toNat : (readReg p r .scopeWr).toNat = r.scopeWr.val := by
  have := r.scopeWr.isLt
  simp only [readReg, BitVec.toNat_ofNat]
  omega

theorem readReg_status_toNat : (readReg p r .status).toNat = r.err.toNat := by
  rw [readReg, BitVec.toNat_setWidth_of_le (by decide), BitVec.toNat_ofBool]

/-- Settles O15: the codes by evaluation, each register by the sum of its fields at their places. -/
theorem fieldsInTheirPlaces : Obligations.FieldsInTheirPlaces := by
  unfold Obligations.FieldsInTheirPlaces
  refine ⟨by decide, by decide, by decide, by decide, by decide, fun p r => ?_⟩
  exact ⟨readReg_status_toNat, readReg_errCause_toNat, BitVec.toNat_setWidth_of_le (by decide),
    readReg_latch_toNat, readReg_cva_toNat, readReg_scopeWr_toNat,
    BitVec.toNat_setWidth_of_le (by decide), readReg_btnState_toNat,
    fun _ => BitVec.toNat_setWidth_of_le (by decide), readReg_pval_toNat, readReg_prange_toNat,
    fun _ => BitVec.toNat_setWidth_of_le (by decide)⟩

/-! ## The derived registers (10_state R24, R29) -/

theorem reset_scopeDelay_toNat (p : Params) :
    (Regs.reset p).scopeDelay.toNat = p.scanDelayReset.val := by
  have := p.scanDelayReset.isLt
  simp only [Regs.reset, BitVec.toNat_ofNat]
  omega

theorem readReg_scopeMode_toNat : (readReg p r .scopeMode).toNat =
    if p.scanDelayThreshold.val ≤ r.scopeDelay.toNat then 1 else 0 := by
  rw [readReg, BitVec.toNat_setWidth_of_le (by decide), BitVec.toNat_ofBool, isLong]
  split <;> simp_all

theorem readReg_scopeLen_toNat : (readReg p r .scopeLen).toNat =
    if p.scanDelayThreshold.val ≤ r.scopeDelay.toNat then 100 else 200 := by
  simp only [readReg, scopeLen, isLong, decide_eq_true_eq]
  split <;> rfl

/-- Settles O16: both registers are functions of SCOPE_DELAY, which reset gives SCAN_DELAY_RESET. -/
theorem scopeModeAndLength : Obligations.ScopeModeAndLength := by
  unfold Obligations.ScopeModeAndLength
  refine ⟨fun p r => ⟨readReg_scopeMode_toNat, readReg_scopeLen_toNat⟩, fun p => ?_⟩
  rw [← reset_scopeDelay_toNat]
  exact ⟨readReg_scopeMode_toNat, readReg_scopeLen_toNat⟩

theorem reset_acc (p : Params) (c : Channel) : (Regs.reset p).acc c = 0 := by
  simp [Regs.acc, Regs.reset]

/-- Settles O17: CH_VAL is the rounded filter of ACC, and a smoothed read returns that of the ACC it
writes. -/
theorem channelValueIsRoundedFilter : Obligations.ChannelValueIsRoundedFilter := by
  unfold Obligations.ChannelValueIsRoundedFilter
  refine ⟨fun p r c => ⟨?_, ?_⟩, fun s c => ⟨_, exec_chRead s c true, ?_⟩⟩
  · rw [readReg, BitVec.toNat_setWidth_of_le (by decide), filtered_toNat]
  · rw [readReg, reset_acc]
    rfl
  · have hacc : (chUpdate s c).regs.acc c = chAcc s c := by rw [chUpdate_acc, if_pos rfl]
    change (filtered (chAcc s c)).setWidth 16 = (filtered ((chUpdate s c).regs.acc c)).setWidth 16
    rw [hacc]

/-! ## What one write event can change (10_state R10, R43) -/

/-- Settles O18: an event of an indexed register keeps every other index and, at its own index, the
fields of every other register. -/
theorem writeEventTouchesOneRegister : Obligations.WriteEventTouchesOneRegister := by
  unfold Obligations.WriteEventTouchesOneRegister
  intro p r w g h
  cases w with
  | status | errCause | errCmdLo | errCmdHi | result | active | latch | cva | scopeDelay | scopeWr
  | scopeAvg | scopeRmin | scopeRmax | scopeTrig =>
    cases g <;> simp [Write.touches] at h <;> rfl
  | btnState b | btnHold b | btnT0Lo b | btnT0Hi b =>
    cases g with
    | btnState d | btnHold d | btnT0Lo d | btnT0Hi d =>
      by_cases hd : b = d
      · subst hd
        simp_all [readReg, Write.touches]
      · simp [readReg, Vector.getElem_set_ne, Fin.val_ne_of_ne hd]
    | _ => rfl
  | accLo c | accHi c | chOffset c =>
    cases g with
    | chVal d | accLo d | accHi d | chOffset d =>
      by_cases hd : c = d
      · subst hd
        simp_all [readReg, Regs.acc, Write.touches]
      · simp [readReg, Regs.acc, Vector.getElem_set_ne, Fin.val_ne_of_ne hd]
    | _ => rfl
  | pwm i v =>
    cases g with
    | pwm j =>
      have hj : i ≠ j := fun e => h (e ▸ List.mem_cons_self)
      simp [readReg, Vector.getElem_set_ne, Fin.val_ne_of_ne hj]
    | _ => rfl
  | pval set i d v =>
    cases g with
    | pval k j =>
      have hkj : ¬(k = set ∧ j = i) := by simpa [Write.touches] using h
      simp only [readReg, Regs.param_apply_pval, if_neg hkj]
    | prange k j =>
      simp only [readReg, Regs.param_apply_pval]
      split
      next hkj => obtain ⟨rfl, rfl⟩ := hkj; rfl
      next => rfl
    | _ => rfl
  | prange set i mx mn =>
    cases g with
    | pval k j =>
      simp only [readReg, Regs.param_apply_prange]
      split
      next hkj => obtain ⟨rfl, rfl⟩ := hkj; rfl
      next => rfl
    | prange k j =>
      have hkj : ¬(k = set ∧ j = i) := by simpa [Write.touches] using h
      simp only [readReg, Regs.param_apply_prange, if_neg hkj]
    | _ => rfl
  | buf j v =>
    cases g with
    | buf k =>
      have hk : j ≠ k := fun e => h (e ▸ List.mem_cons_self)
      simp [readReg, Vector.getElem_set_ne, Fin.val_ne_of_ne hk]
    | _ => rfl

/-! ## Reset (10_state R34, R35, 70_reset R132) -/

/-- The entries after reset: those of the settings set in the set after the last preset, a
preset's in the others. -/
theorem reset_param (p : Params) (set : BitVec 5) (i : Slot) :
    (Regs.reset p).param set i =
      if set.toNat = p.totalPresets.val then Param.resetSettings[i.val] else Param.resetPreset := by
  simp only [Regs.param, Regs.reset, Vector.getElem_set, Vector.getElem_replicate,
    eq_comm (a := set.toNat)]
  split
  · rfl
  · exact Vector.getElem_replicate _

theorem resetPreset_legal : Param.resetPreset.Legal := by decide

theorem resetSettings_legal : ∀ i : Slot, (Param.resetSettings[i.val]).Legal := by decide

theorem reset_inv (h : p.Legal) : (Regs.reset p).Inv p := by
  obtain ⟨hpresets, hpwm, hmin, hlo, hhi⟩ := h
  refine ⟨hpresets, Nat.zero_le _, fun set _ i => ?_, ?_, by simp [Regs.reset], fun c => ?_,
    fun i => ?_, fun _ => ⟨rfl, rfl, rfl⟩⟩
  · rw [reset_param]
    split
    · exact resetSettings_legal i
    · exact resetPreset_legal
  · rw [reset_scopeDelay_toNat]
    exact ⟨hlo, hhi⟩
  · rw [reset_acc]
    exact Nat.zero_le _
  · fin_cases i <;> exact Nat.zero_le _

/-- The free scan delays at reset are within their legal ranges (D25, log 2). -/
theorem config_scanDelays :
    1 ≤ Config.scanDelayMin ∧ Config.scanDelayMin ≤ Config.scanDelayReset ∧
      Config.scanDelayReset ≤ Config.scanDelayMax ∧ Config.scanDelayMax < 65536 := by
  have hmin : Config.scanDelayMin = 1 + Config.freeScanDelayMin % 65535 := rfl
  have hmax : Config.scanDelayMax - Config.scanDelayMin < 65536 - Config.scanDelayMin := by
    rw [Config.scanDelayMax, Nat.add_sub_cancel_left]
    exact Nat.mod_lt _ (by omega)
  have hreset : Config.scanDelayReset - Config.scanDelayMin <
      Config.scanDelayMax - Config.scanDelayMin + 1 := by
    rw [Config.scanDelayReset, Nat.add_sub_cancel_left]
    exact Nat.mod_lt _ (by omega)
  have hle : Config.scanDelayMin ≤ Config.scanDelayMax := Nat.le_add_right _ _
  have hle' : Config.scanDelayMin ≤ Config.scanDelayReset := Nat.le_add_right _ _
  omega

theorem config_legal : Config.params.Legal := by
  obtain ⟨hmin, hlo, hhi, hmax⟩ := config_scanDelays
  refine ⟨by decide, by decide, ?_⟩
  simp only [Config.params, Fin.ofNat]
  omega

/-- Settles O56: the reset value of each register is legal, and so are the
parameters of `State.reset`. -/
theorem resetHasInvariants : Obligations.ResetHasInvariants := by
  unfold Obligations.ResetHasInvariants
  exact ⟨fun p h => ⟨h, reset_inv h⟩, config_legal, reset_inv config_legal⟩

end Sys2Proof.Machine
end

section
/-! PROOFS. The register space and the agents that see it (20_memory): the bytes of a byte-serial link
(R41, R42), the register map (R38), the display port's reads (R39), and the write events of a command
performed one by one (R45, R46, 45_system R116). -/

namespace Sys2Proof.Machine

variable {p : Params} {s t : State}

/-! ## The write events of a command, one by one (20_memory R45, R46) -/

/-- A run adds write events at the end of the trace, and they lead to its registers. -/
theorem Evolves.trace_eq {ok : Write → Prop} (h : Evolves ok s t) :
    ∃ ws : List Write, t.trace = s.trace ++ ws ∧ t.regs = s.regs.applyAll ws := by
  induction h with
  | refl => exact ⟨[], by simp⟩
  | @write t w _ _ ih =>
    obtain ⟨ws, htrace, hregs⟩ := ih
    exact ⟨ws ++ [w], by simp [State.trace_write, htrace], by simp [hregs]⟩
  | takeAdc _ _ _ ih => exact ih
  | takePoll _ _ ih => exact ih

/-- A step is a run from where its command starts: the word taken, no write event yet. -/
theorem step_evolves (ht : step s = .next t) :
    ∃ rest ok, Evolves ok { s with port := rest, events := [] } t := by
  rcases step_cases s _ ht with ⟨-, ho⟩ | ⟨w, rest, cause, -, -, ho⟩ | ⟨w, rest, i, -, -, ho⟩
  · cases ho
    exact ⟨s.port, fun _ => True, .refl⟩
  · cases ho
    exact ⟨rest, fun _ => True, Evolves.refl.raise cause w trivial (fun _ => trivial)
      (fun _ => trivial) fun _ => trivial⟩
  · obtain ⟨t', ht', hrun⟩ := exec_completes i { s with port := rest, events := [] }
    cases ho.trans ht'
    exact ⟨rest, _, hrun⟩

theorem step_cfg (ht : step s = .next t) : t.cfg = s.cfg := by
  obtain ⟨rest, ok, hrun⟩ := step_evolves ht
  exact hrun.cfg_eq

/-- The write events of a step lead to its registers. -/
theorem step_regs_eq_applyAll_trace (ht : step s = .next t) :
    t.regs = s.regs.applyAll t.trace := by
  obtain ⟨rest, ok, hrun⟩ := step_evolves ht
  obtain ⟨ws, htrace, hregs⟩ := hrun.trace_eq
  rw [hregs, htrace]
  rfl

/-- With nothing pending, the control agent's move starts the next command and changes no register. -/
theorem Interleaved.control_start (ht : step s = .next t) :
    Interleaved.control ⟨s, []⟩ = ⟨{ t with regs := s.regs }, t.trace⟩ := by
  simp [Interleaved.control, ht]

/-- `k` moves of the control agent perform the next `k` pending write events. -/
theorem Interleaved.controls_pending (k : Nat) (b : State) (ws : List Write) (hk : k ≤ ws.length) :
    Interleaved.controls k ⟨b, ws⟩ =
      ⟨{ b with regs := b.regs.applyAll (ws.take k) }, ws.drop k⟩ := by
  induction k generalizing b ws with
  | zero => rfl
  | succ k ih =>
    cases ws with
    | nil => simp at hk
    | cons w ws => exact ih _ ws (Nat.le_of_succ_le_succ hk)

/-- One move starts the command, `k` moves more perform its first `k` write events. -/
theorem Interleaved.controls_succ (ht : step s = .next t) (k : Nat) (hk : k ≤ t.trace.length) :
    Interleaved.controls (k + 1) ⟨s, []⟩ =
      ⟨{ t with regs := s.regs.applyAll (t.trace.take k) }, t.trace.drop k⟩ := by
  rw [Interleaved.controls, Interleaved.control_start ht]
  exact Interleaved.controls_pending k _ _ hk

/-- Settles O60: after all its write events the registers are the step's, and after `k` of them those
the first `k` lead to. -/
theorem interleavedCommandReachesStep : Obligations.InterleavedCommandReachesStep := by
  unfold Obligations.InterleavedCommandReachesStep
  intro s t ht
  refine ⟨?_, fun k a hk => ?_⟩
  · rw [Interleaved.controls_succ ht _ le_rfl, List.take_length, List.drop_length,
      ← step_regs_eq_applyAll_trace ht]
  · rw [Interleaved.controls_succ ht k hk, displayRead, step_cfg ht]

/-! ## The register map (20_memory R38) -/

/-- The registers from address 0 up stand in the order of their addresses. -/
theorem lowRegs_map_addrOf : lowRegs.map addrOf = List.range 16 := rfl

/-- The two registers of an entry: PVAL at the even address, PRANGE at the odd one. -/
theorem paramRegAt_eq {a : Nat} {set : BitVec 5} {i : Slot} (hset : a / 8 = set.toNat)
    (hslot : a % 8 / 2 = i.val) :
    paramRegAt a = some (if a % 2 = 0 then .pval set i else .prange set i) := by
  have hi := i.isLt
  simp only [paramRegAt, hset, hslot, hi, dite_true, BitVec.ofNat_toNat, BitVec.setWidth_eq]
  split <;> rfl

/-- The map in the region of the sets that exist. -/
theorem regAt_of_param {a : BitVec 16} (hlo : 0x1000 ≤ a.toNat)
    (hhi : a.toNat < 0x1000 + 8 * p.nSets) : regAt p a = paramRegAt (a.toNat - 0x1000) := by
  simp (disch := omega) only [regAt, if_neg, if_pos]

/-- The map in the region of the scope buffer. -/
theorem regAt_of_buf {a : BitVec 16} {j : Fin 200} (ha : a.toNat = 0x2000 + j.val) :
    regAt p a = some (.buf j) := by
  have hsets := nSets_le p
  have hj : a.toNat - 0x2000 = j.val := by omega
  simp (disch := omega) only [regAt, if_neg, if_pos, hj, Fin.ofNat_val_eq_self]

theorem addrOf_lt (g : Reg) : addrOf g < 2 ^ 16 := by
  cases g <;> simp only [addrOf] <;> omega

/-- Each register that is present is found at its address. -/
theorem regAt_addrOf {g : Reg} (hg : g.present p = true) :
    regAt p (BitVec.ofNat 16 (addrOf g)) = some g := by
  have ha : (BitVec.ofNat 16 (addrOf g)).toNat = addrOf g := Nat.mod_eq_of_lt (addrOf_lt g)
  cases g with
  | btnState b | btnHold b | btnT0Lo b | btnT0Hi b => fin_cases b <;> rfl
  | chVal c | accLo c | accHi c | chOffset c => fin_cases c <;> rfl
  | pwm i => fin_cases i <;> rfl
  | pval set i =>
    generalize BitVec.ofNat 16 _ = a at ha ⊢
    simp only [Reg.present, decide_eq_true_eq, addrOf] at hg ha
    rw [regAt_of_param, paramRegAt_eq (set := set) (i := i), if_pos] <;> omega
  | prange set i =>
    generalize BitVec.ofNat 16 _ = a at ha ⊢
    simp only [Reg.present, decide_eq_true_eq, addrOf] at hg ha
    rw [regAt_of_param, paramRegAt_eq (set := set) (i := i), if_neg] <;> omega
  | buf j => exact regAt_of_buf ha
  | _ => rfl

/-- The registers from address 0 up stand in the order of their addresses. -/
theorem addrOf_lowRegs : ∀ a : Fin 16, addrOf lowRegs[a.val] = a.val := by decide

theorem present_of_mem_lowRegs : ∀ g ∈ lowRegs, g.present p = true := by
  simp [lowRegs, Reg.present]

/-- The addresses of the status, scope and button registers. -/
theorem exists_addrOf_eq_low {n : Nat} (h : n ≤ 0x0017) :
    ∃ g : Reg, g.present p = true ∧ addrOf g = n := by
  have hregion : n < 0x10 ∨ (0x10 ≤ n ∧ n < 0x12) ∨ (0x12 ≤ n ∧ n < 0x14) ∨
      (0x14 ≤ n ∧ n % 2 = 0) ∨ (0x14 ≤ n ∧ n % 2 = 1) := by omega
  rcases hregion with hn | ⟨hlo, hhi⟩ | ⟨hlo, hhi⟩ | ⟨hlo, heven⟩ | ⟨hlo, hodd⟩
  · exact ⟨lowRegs[n], present_of_mem_lowRegs _ (List.getElem_mem _), addrOf_lowRegs ⟨n, hn⟩⟩
  · exact ⟨.btnState ⟨n - 0x10, by omega⟩, rfl, Nat.add_sub_cancel' hlo⟩
  · exact ⟨.btnHold ⟨n - 0x12, by omega⟩, rfl, Nat.add_sub_cancel' hlo⟩
  · exact ⟨.btnT0Lo ⟨(n - 0x14) / 2, by omega⟩, rfl, by simp only [addrOf]; omega⟩
  · exact ⟨.btnT0Hi ⟨(n - 0x14) / 2, by omega⟩, rfl, by simp only [addrOf]; omega⟩

/-- The addresses of the channel and PWM registers. -/
theorem exists_addrOf_eq_analog {n : Nat} (h : 0x0020 ≤ n ∧ n ≤ 0x0032) :
    ∃ g : Reg, g.present p = true ∧ addrOf g = n := by
  have hregion : (0x20 ≤ n ∧ n < 0x24) ∨ (0x24 ≤ n ∧ n < 0x28) ∨ (0x28 ≤ n ∧ n < 0x2C) ∨
      (0x2C ≤ n ∧ n < 0x30) ∨ (0x30 ≤ n ∧ n < 0x33) := by omega
  rcases hregion with ⟨hlo, hhi⟩ | ⟨hlo, hhi⟩ | ⟨hlo, hhi⟩ | ⟨hlo, hhi⟩ | ⟨hlo, hhi⟩
  · exact ⟨.chVal ⟨n - 0x20, by omega⟩, rfl, Nat.add_sub_cancel' hlo⟩
  · exact ⟨.accLo ⟨n - 0x24, by omega⟩, rfl, Nat.add_sub_cancel' hlo⟩
  · exact ⟨.accHi ⟨n - 0x28, by omega⟩, rfl, Nat.add_sub_cancel' hlo⟩
  · exact ⟨.chOffset ⟨n - 0x2C, by omega⟩, rfl, Nat.add_sub_cancel' hlo⟩
  · exact ⟨.pwm ⟨n - 0x30, by omega⟩, rfl, Nat.add_sub_cancel' hlo⟩

/-- The addresses of the parameter entries of the sets that exist. -/
theorem exists_addrOf_eq_param {n : Nat} (hlo : 0x1000 ≤ n) (hhi : n < 0x1000 + 8 * p.nSets)
    (hslot : n % 8 ≤ 5) : ∃ g : Reg, g.present p = true ∧ addrOf g = n := by
  have hsets := nSets_le p
  obtain ⟨set, hset⟩ : ∃ set : BitVec 5, set.toNat = (n - 0x1000) / 8 :=
    ⟨BitVec.ofNatLT _ (by omega), BitVec.toNat_ofNatLT _ _⟩
  have hpresent : decide (set.toNat < p.nSets) = true := decide_eq_true (by omega)
  rcases Nat.mod_two_eq_zero_or_one n with heven | hodd
  · exact ⟨.pval set ⟨n % 8 / 2, by omega⟩, hpresent, by simp only [addrOf]; omega⟩
  · exact ⟨.prange set ⟨n % 8 / 2, by omega⟩, hpresent, by simp only [addrOf]; omega⟩

/-- Each mapped address is that of a register that is present. -/
theorem exists_addrOf_eq {a : BitVec 16} (h : addressLegal p a = true) :
    ∃ g : Reg, g.present p = true ∧ addrOf g = a.toNat := by
  rcases (addressLegal_iff p a).1 h with hlow | hanalog | ⟨hlo, hhi, hslot⟩ | ⟨hlo, hhi⟩
  · exact exists_addrOf_eq_low hlow
  · exact exists_addrOf_eq_analog hanalog
  · exact exists_addrOf_eq_param hlo hhi hslot
  · exact ⟨.buf ⟨a.toNat - 0x2000, by omega⟩, rfl, by simp only [addrOf]; omega⟩

/-- The register found at an address is one that is present, and has that address. -/
theorem addrOf_of_regAt {a : BitVec 16} {g : Reg} (h : regAt p a = some g) :
    g.present p = true ∧ addrOf g = a.toNat := by
  have hlegal : addressLegal p a = true := by rw [← regAt_isSome, h, Option.isSome_some]
  obtain ⟨g', hpresent, haddr⟩ := exists_addrOf_eq hlegal
  have hfound : regAt p a = some g' := by
    simpa [haddr] using regAt_addrOf hpresent
  cases h.symm.trans hfound
  exact ⟨hpresent, haddr⟩

/-- Settles O13: a register is found at its address, and each mapped address is that of a register. -/
theorem registerMap : Obligations.RegisterMap := by
  unfold Obligations.RegisterMap
  exact fun p => ⟨fun _ hg => regAt_addrOf hg, fun _ _ h => addrOf_of_regAt h, regAt_isSome p⟩

/-! ## The display port's reads (20_memory R39) -/

theorem displayRead_of_some {a : BitVec 16} {g : Reg} (h : regAt s.cfg a = some g) :
    displayRead s a = readReg s.cfg s.regs g := by
  simp [displayRead, memRead, h]

theorem displayRead_of_none {a : BitVec 16} (h : regAt s.cfg a = none) : displayRead s a = 0 := by
  simp [displayRead, memRead, h]

/-- Settles O14: the display agent's move keeps the whole machine, and an unmapped address has no
register. -/
theorem displayReadHasNoEffect : Obligations.DisplayReadHasNoEffect := by
  unfold Obligations.DisplayReadHasNoEffect
  refine fun y a => ⟨rfl, fun g hg => congrArg some (displayRead_of_some hg), fun hillegal => ?_⟩
  have hnone : regAt y.block.cfg a = none := by
    rwa [← regAt_isSome, Option.isSome_eq_false_iff, Option.isNone_iff_eq_none] at hillegal
  exact congrArg some (displayRead_of_none hnone)

/-! ## The bytes of a byte-serial link (20_memory R41, R42) -/

theorem wordOfBytes_bytesOfWord (w : Word) : wordOfBytes (bytesOfWord w) = some w := by
  refine congrArg some (BitVec.eq_of_toNat_eq ?_)
  have := w.isLt
  simp only [toNat_append_eq_add, field, BitVec.extractLsb'_toNat, Nat.shiftRight_eq_div_pow]
  omega

/-- Four bytes are one word, the first byte lowest. -/
theorem wordOfBytes_toNat (b0 b1 b2 b3 : Byte) : ∃ w, wordOfBytes [b0, b1, b2, b3] = some w ∧
    w.toNat = b0.toNat + b1.toNat * 2 ^ 8 + b2.toNat * 2 ^ 16 + b3.toNat * 2 ^ 24 := by
  refine ⟨_, rfl, ?_⟩
  simp only [toNat_append_eq_add]
  omega

theorem wordOfBytes_eq_none {bs : List Byte} (h : bs.length ≠ 4) : wordOfBytes bs = none := by
  unfold wordOfBytes
  split
  · exact absurd rfl h
  · rfl

theorem halfOfBytes_bytesOfHalf (v : Half) : halfOfBytes (bytesOfHalf v) = some v := by
  refine congrArg some (BitVec.eq_of_toNat_eq ?_)
  have := v.isLt
  simp only [toNat_append_eq_add, BitVec.extractLsb'_toNat, Nat.shiftRight_eq_div_pow]
  omega

/-- The value that two bytes carry is carried by those two bytes. -/
theorem bytesOfHalf_append (b0 b1 : Byte) : bytesOfHalf (b1 ++ b0 : BitVec 16) = [b0, b1] := by
  have hlo : (b1 ++ b0 : BitVec 16).extractLsb' 0 8 = b0 := BitVec.extractLsb'_append_eq_right
  have hhi : (b1 ++ b0 : BitVec 16).extractLsb' 8 8 = b1 := BitVec.extractLsb'_append_eq_left
  rw [bytesOfHalf, hlo, hhi]

/-- Settles O6: a word is the sum of its four bytes at their places, a register value of its two, and
the two links carry register values. -/
theorem bytesCarryWords : Obligations.BytesCarryWords := by
  unfold Obligations.BytesCarryWords
  refine ⟨wordOfBytes_bytesOfWord, wordOfBytes_toNat, fun _ => wordOfBytes_eq_none,
    halfOfBytes_bytesOfHalf,
    fun b0 b1 => ⟨_, rfl, (toNat_append_eq_add b1 b0).trans (Nat.add_comm _ _),
      bytesOfHalf_append b0 b1⟩,
    fun s a => halfOfBytes_bytesOfHalf _, fun s v hv => ?_⟩
  rw [dataOutputBytes, hv]
  exact halfOfBytes_bytesOfHalf v

end Sys2Proof.Machine
end

section
/-! PROOFS. Decoding and encoding (30_encoding R53 to R69): fields and places undo each other, a word
is decoded by the row of its opcode, and a row's mask and match say which of its words are its
command. From these, that decoding and encoding are inverse, and which words are illegal and why. -/

namespace Sys2Proof.Laws

open Sys2Proof.Machine

/-! ## Fields and places (30_encoding R64) -/

theorem field_or (a b : Word) (lo n : Nat) :
    field (a ||| b) lo n = field a lo n ||| field b lo n := by
  ext j hj
  simp [field]

theorem field_ofNat (k lo n : Nat) :
    field (BitVec.ofNat 32 k) lo n = BitVec.ofNat n ((k % 2 ^ 32) >>> lo) := rfl

/-- An operand is read back at its place. -/
theorem field_place_same {lo n : Nat} (v : BitVec n) (h : lo + n ≤ 32) :
    field (place lo v) lo n = v := by
  ext j hj
  have hlt : lo + j < 32 := by omega
  simp [field, place, hlt, BitVec.getLsbD_eq_getElem hj]

/-- An operand leaves the fields beside its place 0. -/
theorem field_place_disjoint {lo lo' n m : Nat} (v : BitVec m)
    (h : lo' + m ≤ lo ∨ lo + n ≤ lo') : field (place lo' v) lo n = 0#n := by
  ext j hj
  have hout : lo + j < lo' ∨ v.getLsbD (lo + j - lo') = false := by
    rcases h with h | h
    · exact .inr (BitVec.getLsbD_of_ge v _ (by omega))
    · exact .inl (by omega)
  rcases hout with hout | hout <;> simp [field, place, hout]

/-- A field put back at its place is the word with every other bit cleared. -/
theorem place_field (w : Word) (lo n : Nat) :
    place lo (field w lo n) = w &&& place lo (BitVec.allOnes n) := by
  ext j hj
  by_cases hlo : j < lo
  · simp [place, hlo]
  · have hj' : lo + (j - lo) = j := by omega
    simp [place, field, hlo, hj', BitVec.getLsbD_eq_getElem hj, Bool.and_comm]

/-! ## Operands that are a channel, a button or a flag (30_encoding R56, R57, R61) -/

theorem ofNat_finOfNat {k n : Nat} [NeZero k] (v : BitVec n) (h : k = 2 ^ n) :
    BitVec.ofNat n (Fin.ofNat k v.toNat).val = v := by
  subst h
  apply BitVec.eq_of_toNat_eq
  simp

theorem ofBool_beq_one (b : BitVec 1) : BitVec.ofBool (b == 1#1) = b := by
  revert b; decide

theorem beq_one_ofBool (b : Bool) : (BitVec.ofBool b == 1#1) = b := by
  cases b <;> rfl

/-! ## The command of a row (30_encoding R65) -/

theorem opcodeOf_eq (w : Word) : opcodeOf w = w.toNat / 2 ^ 24 := by
  have hw := w.isLt
  simp only [opcodeOf, field, BitVec.extractLsb'_toNat, Nat.shiftRight_eq_div_pow]
  omega

/-- The command that the fields of `w` give in the row of opcode `op`, whatever the opcode and the
should-be-zero bits of `w` are. -/
def rowCommand (w : Word) : Nat → Option Instr
  | 0x00 => some .nop
  | 0x01 => some (.chInit (Fin.ofNat 4 (field w 16 2).toNat) (field w 0 12))
  | 0x02 => some (.chRead (Fin.ofNat 4 (field w 16 2).toNat) (field w 0 1 == 1#1))
  | 0x03 => some (.btnInit (Fin.ofNat 2 (field w 16 1).toNat) (field w 0 16))
  | 0x04 => some (.btnPoll (Fin.ofNat 2 (field w 16 1).toNat))
  | 0x05 => some (.pbSetRange (field w 19 5) (field w 17 2) (field w 8 8) (field w 0 8))
  | 0x06 => some (.pbSetValue (field w 19 5) (field w 17 2) (field w 8 2) (field w 0 8))
  | 0x07 => some (.pbSelect (field w 0 5))
  | 0x08 => some .pbRearm
  | 0x09 => some (.pbUpdate (field w 0 1 == 1#1))
  | 0x0A => some (.cvaWrite (field w 4 7) (field w 2 2) (field w 0 2))
  | 0x0B => some .scopeHalve
  | 0x0C => some .scopeDouble
  | 0x0D => some .scopeAcq
  | 0x0E => some (.regRead (field w 0 16))
  | 0x0F => some .errClear
  | _ => none

theorem rowCommand_eq_none {op : Nat} (w : Word) (h : 0x10 ≤ op) : rowCommand w op = none := by
  obtain ⟨k, rfl⟩ := Nat.exists_eq_add_of_le' h
  rfl

theorem rowCommand_isSome (w : Word) (op : Nat) : (rowCommand w op).isSome = true ↔ op < 0x10 := by
  by_cases h : op < 0x10
  · simp only [h, iff_true]
    interval_cases op <;> rfl
  · simp [h, rowCommand_eq_none w (Nat.not_lt.1 h)]

theorem opcodeNumber_of_rowCommand {w : Word} {op : Nat} {i : Instr}
    (h : rowCommand w op = some i) : opcodeNumber i = op := by
  unfold rowCommand at h
  split at h <;> cases h <;> rfl

/-- A command's word gives the command back in the command's row: its operands do not overlap. -/
theorem rowCommand_encode (i : Instr) : rowCommand (encode i) (opcodeNumber i) = some i := by
  cases i with
  | nop | pbRearm | scopeHalve | scopeDouble | scopeAcq | errClear => rfl
  | chInit | chRead | btnInit | btnPoll | pbSetRange | pbSetValue | pbSelect | pbUpdate | cvaWrite
  | regRead =>
    simp [rowCommand, opcodeNumber, encode, field_or, field_ofNat, field_place_same,
      field_place_disjoint, beq_one_ofBool]

/-- The fields of a format are its bits outside the row's mask, so the word of the command that `w`
gives in a row has the row's match in place of `w`'s bits under the mask. -/
theorem encode_of_rowCommand {w : Word} {op : Nat} {i : Instr} (h : rowCommand w op = some i) :
    encode i = rowMatch i ||| (w &&& ~~~rowMask i) := by
  have hnone : w &&& ~~~(0xFFFFFFFF : Word) = 0 := BitVec.and_zero
  have hop : op < 0x10 := (rowCommand_isSome w op).1 (by simp [h])
  interval_cases op <;> cases h
  all_goals simp only [encode, rowMatch, rowMask, place_field, ofNat_finOfNat, ofBool_beq_one,
    BitVec.or_assoc, ← BitVec.and_or_distrib_left, Nat.reducePow, hnone]
  all_goals rfl

/-! ## Decoding by rows (30_encoding R66) -/

theorem checkRow_eq_ok (m k w : Word) (i j : Instr) :
    checkRow m k w i = .ok j ↔ w &&& k = m ∧ i = j := by
  unfold checkRow
  split <;> simp [*]

theorem checkRow_eq_error (m k w : Word) (i : Instr) (cause : ErrorCause) :
    checkRow m k w i = .error cause ↔ w &&& k ≠ m ∧ cause = .reservedBits := by
  unfold checkRow
  split <;> simp [*, eq_comm (a := ErrorCause.reservedBits)]

/-- Decoding finds the row of the word's opcode and checks the word against it. -/
theorem decode_eq (w : Word) :
    decode w = (rowCommand w (opcodeOf w)).elim (.error .illegalOpcode)
      fun i => checkRow (rowMatch i) (rowMask i) w i := by
  unfold decode
  generalize opcodeOf w = op
  by_cases h : op < 0x10
  · interval_cases op <;> rfl
  · obtain ⟨k, rfl⟩ := Nat.exists_eq_add_of_le' (Nat.not_lt.1 h)
    rfl

theorem decode_eq_ok (w : Word) (i : Instr) : decode w = .ok i ↔
    rowCommand w (opcodeOf w) = some i ∧ w &&& rowMask i = rowMatch i := by
  rw [decode_eq]
  cases rowCommand w (opcodeOf w) with
  | none => simp
  | some j =>
    simp only [Option.elim_some, checkRow_eq_ok, Option.some.injEq]
    constructor
    · rintro ⟨hmatch, rfl⟩; exact ⟨rfl, hmatch⟩
    · rintro ⟨rfl, hmatch⟩; exact ⟨hmatch, rfl⟩

theorem decode_eq_illegalOpcode (w : Word) :
    decode w = .error .illegalOpcode ↔ rowCommand w (opcodeOf w) = none := by
  rw [decode_eq]
  cases rowCommand w (opcodeOf w) <;> simp [checkRow_eq_error]

theorem decode_eq_reservedBits (w : Word) : decode w = .error .reservedBits ↔
    ∃ i, rowCommand w (opcodeOf w) = some i ∧ w &&& rowMask i ≠ rowMatch i := by
  rw [decode_eq]
  cases rowCommand w (opcodeOf w) <;> simp [checkRow_eq_error]

/-! ## Every command's word, from the facts of the single rows -/

theorem opcodeField : ∀ i : Instr, OpcodeField.Statement i
  | .nop => OpcodeField.nop
  | .chInit c offset => OpcodeField.chInit c offset
  | .chRead c smooth => OpcodeField.chRead c smooth
  | .btnInit b hold => OpcodeField.btnInit b hold
  | .btnPoll b => OpcodeField.btnPoll b
  | .pbSetRange set slot max min => OpcodeField.pbSetRange set slot max min
  | .pbSetValue set slot dmode value => OpcodeField.pbSetValue set slot dmode value
  | .pbSelect preset => OpcodeField.pbSelect preset
  | .pbRearm => OpcodeField.pbRearm
  | .pbUpdate settings => OpcodeField.pbUpdate settings
  | .cvaWrite depth target mode => OpcodeField.cvaWrite depth target mode
  | .scopeHalve => OpcodeField.scopeHalve
  | .scopeDouble => OpcodeField.scopeDouble
  | .scopeAcq => OpcodeField.scopeAcq
  | .regRead addr => OpcodeField.regRead addr
  | .errClear => OpcodeField.errClear

theorem opcodeOf_encode (i : Instr) : opcodeOf (encode i) = opcodeNumber i := by
  rw [opcodeOf_eq]
  exact opcodeField i

theorem encode_and_rowMask : ∀ i : Instr, encode i &&& rowMask i = rowMatch i
  | .nop => RowMatch.nop
  | .chInit c offset => RowMatch.chInit c offset
  | .chRead c smooth => RowMatch.chRead c smooth
  | .btnInit b hold => RowMatch.btnInit b hold
  | .btnPoll b => RowMatch.btnPoll b
  | .pbSetRange set slot max min => RowMatch.pbSetRange set slot max min
  | .pbSetValue set slot dmode value => RowMatch.pbSetValue set slot dmode value
  | .pbSelect preset => RowMatch.pbSelect preset
  | .pbRearm => RowMatch.pbRearm
  | .pbUpdate settings => RowMatch.pbUpdate settings
  | .cvaWrite depth target mode => RowMatch.cvaWrite depth target mode
  | .scopeHalve => RowMatch.scopeHalve
  | .scopeDouble => RowMatch.scopeDouble
  | .scopeAcq => RowMatch.scopeAcq
  | .regRead addr => RowMatch.regRead addr
  | .errClear => RowMatch.errClear

/-! ## Decoding and encoding are inverse -/

/-- Settles O1: a command's word matches its row, and the row's fields give the command back. -/
theorem decodeOfEncode : Obligations.DecodeOfEncode := by
  unfold Obligations.DecodeOfEncode
  intro i
  rw [decode_eq_ok, opcodeOf_encode]
  exact ⟨rowCommand_encode i, encode_and_rowMask i⟩

/-- Settles O2: a word that decodes has its row's match under the mask and its command's operands
elsewhere, and so has the command's word. -/
theorem encodeOfDecode : Obligations.EncodeOfDecode := by
  unfold Obligations.EncodeOfDecode
  intro w i hdecode
  obtain ⟨hcommand, hmatch⟩ := (decode_eq_ok w i).1 hdecode
  calc encode i = (w &&& rowMask i) ||| (w &&& ~~~rowMask i) := by
        rw [encode_of_rowCommand hcommand, hmatch]
    _ = w := by rw [← BitVec.and_or_distrib_left, BitVec.or_not_self, BitVec.and_allOnes]

/-! ## The illegal words (30_encoding R66, R67) -/

/-- Settles O3: the opcodes that have a row are those below 0x10. -/
theorem illegalOpcodeWords : Obligations.IllegalOpcodeWords := by
  unfold Obligations.IllegalOpcodeWords
  intro w
  rw [decode_eq_illegalOpcode, ← opcodeOf_eq, ← Nat.not_lt, ← rowCommand_isSome w]
  simp

theorem getLsbD_of_high (w : Word) {j : Nat} (hj : 24 ≤ j) :
    w.getLsbD j = (opcodeOf w).testBit (j - 24) := by
  rw [opcodeOf_eq, Nat.testBit_div_two_pow, Nat.sub_add_cancel hj, BitVec.testBit_toNat]

theorem rowMatch_eq (i : Instr) : rowMatch i = BitVec.ofNat 32 (opcodeNumber i * 2 ^ 24) := by
  cases i <;> simp only [rowMatch, opcodeNumber] <;> decide

theorem rowMatch_getLsbD (i : Instr) {j : Nat} (hj : j < 32) :
    (rowMatch i).getLsbD j = (decide (24 ≤ j) && (opcodeNumber i).testBit (j - 24)) := by
  rw [rowMatch_eq, BitVec.getLsbD_ofNat, Nat.testBit_mul_two_pow]
  simp [hj]

/-- A row's mask is the opcode's bits and the bits that the layout of its format marks "0". -/
theorem rowMask_getLsbD (i : Instr) : ∀ j < 32,
    (rowMask i).getLsbD j = (decide (24 ≤ j) || shouldBeZero (opcodeNumber i) j) := by
  cases i <;> simp only [rowMask, opcodeNumber] <;> decide

/-- A word with a row's opcode differs from the row only in a should-be-zero bit that is set. -/
theorem and_rowMask_getLsbD_iff {w : Word} {i : Instr} (hop : opcodeNumber i = opcodeOf w) {j : Nat}
    (hj : j < 32) : (w &&& rowMask i).getLsbD j = (rowMatch i).getLsbD j ↔
      (j < 24 → shouldBeZero (opcodeOf w) j = true → w.getLsbD j = false) := by
  rw [BitVec.getLsbD_and, rowMask_getLsbD i j hj, rowMatch_getLsbD i hj, hop]
  by_cases hlow : j < 24
  · cases shouldBeZero (opcodeOf w) j <;> simp [hlow, Nat.not_le.2 hlow]
  · simp [hlow, Nat.not_lt.1 hlow, getLsbD_of_high w (Nat.not_lt.1 hlow)]

theorem and_rowMask_eq_rowMatch_iff {w : Word} {i : Instr} (hop : opcodeNumber i = opcodeOf w) :
    w &&& rowMask i = rowMatch i ↔
      ∀ j < 24, shouldBeZero (opcodeOf w) j = true → w.getLsbD j = false := by
  constructor
  · intro h j hj
    exact (and_rowMask_getLsbD_iff hop (by omega)).1 (by rw [h]) hj
  · intro h
    apply BitVec.eq_of_getLsbD_eq
    intro j hj
    exact (and_rowMask_getLsbD_iff hop hj).2 (h j)

/-- Settles O4: a word that finds a row and does not match it has a should-be-zero bit set. -/
theorem reservedBitsWords : Obligations.ReservedBitsWords := by
  unfold Obligations.ReservedBitsWords
  intro w
  rw [decode_eq_reservedBits, ← opcodeOf_eq, ← rowCommand_isSome w, Option.isSome_iff_exists]
  constructor
  · rintro ⟨i, hrow, hne⟩
    rw [ne_eq, and_rowMask_eq_rowMatch_iff (opcodeNumber_of_rowCommand hrow)] at hne
    exact ⟨⟨i, hrow⟩, by simpa using hne⟩
  · rintro ⟨⟨i, hrow⟩, j, hj, hzero, hset⟩
    refine ⟨i, hrow, fun hmatch => ?_⟩
    rw [and_rowMask_eq_rowMatch_iff (opcodeNumber_of_rowCommand hrow)] at hmatch
    simp [hmatch j hj hzero] at hset

/-! ## Words of the spec's examples -/

theorem decode_of_encode_eq {w : Word} {i : Instr} (h : encode i = w) : decode w = .ok i :=
  h ▸ decodeOfEncode i

/-- Settles O5: the legal words are their commands' encodings; the first refused word has bit 0 of
its format set, the second an opcode without a row. -/
theorem exampleWordsDecode : Obligations.ExampleWordsDecode := by
  unfold Obligations.ExampleWordsDecode
  have hreserved : decode 0x00000001 = .error .reservedBits :=
    (reservedBitsWords _).2 ⟨by decide, 0, by decide, by decide, by decide⟩
  have hillegal : decode 0x1000FFFF = .error .illegalOpcode := (illegalOpcodeWords _).2 (by decide)
  refine ⟨?_, ?_, ?_, ?_, ?_, ?_, ?_, ?_, ?_, ?_, ?_, hreserved, hillegal⟩ <;>
    exact decode_of_encode_eq rfl

end Sys2Proof.Laws
end

section
/-! PROOFS. Recording errors (30_encoding R68, 60_exceptions R121, R122): what a step over an
illegal word does, and that a command either is well-formed and leaves the error registers, or breaks
a field-value rule and does nothing but record it. -/

namespace Sys2Proof.Machine

variable {s t : State}

/-! ## A word that does not decode (60_exceptions R121, R122) -/

theorem step_of_illegal {w : Word} {rest : List Word} {cause : ErrorCause}
    (hport : s.port = w :: rest) (hdecode : decode w = .error cause) :
    step s = .next (({ s with port := rest, events := [] } : State).raise cause w) := by
  simp [step, fetch_cons s w rest hport, hdecode]

/-- The write events of an error in the order they happen, ERR last. -/
theorem State.raise_trace (s : State) (cause : ErrorCause) (w : Word) :
    (s.raise cause w).trace = s.trace ++ (if s.regs.err then [.status true] else
      [.errCause (some cause), .errCmdLo (BitVec.ofNat 16 w.toNat),
        .errCmdHi (BitVec.ofNat 16 (w.toNat / 2 ^ 16)), .status true]) := by
  rw [State.trace, State.raise_events, lowHalf_eq_ofNat, highHalf_eq_ofNat]
  split <;> simp [State.trace]

/-- Settles O8: the step is the recording of the decoder's cause. -/
theorem stepRecordsIllegalWord : Obligations.StepRecordsIllegalWord := by
  unfold Obligations.StepRecordsIllegalWord
  intro s w rest cause hport hdecode
  exact ⟨_, step_of_illegal hport hdecode, State.raise_regs _ _ _, State.raise_cfg _ _ _,
    State.raise_env _ _ _, State.raise_port _ _ _, State.raise_trace _ _ _⟩

/-! ## The four error registers -/

/-- ERR, CAUSE and the recorded word (10_state R13 to R15). -/
def Regs.errors (r : Regs) : Bool × Option ErrorCause × Half × Half :=
  (r.err, r.errCause, r.errCmdLo, r.errCmdHi)

theorem Regs.errors_eq_iff (r r' : Regs) : r'.errors = r.errors ↔ r'.err = r.err ∧
    r'.errCause = r.errCause ∧ r'.errCmdLo = r.errCmdLo ∧ r'.errCmdHi = r.errCmdHi := by
  simp [Regs.errors]

/-- A command that neither raises nor acknowledges writes no error register (10_state R35). -/
theorem Regs.errors_apply {i : Instr} (hraise : mayRaise i = false) (hclear : i ≠ .errClear)
    (r : Regs) {w : Write} (hw : w.allowedIn i = true) : (r.apply w).errors = r.errors := by
  cases w with
  | status e => cases e <;> simp [Write.allowedIn, hraise, hclear] at hw
  | errCause | errCmdLo | errCmdHi => simp [Write.allowedIn, hraise, hclear] at hw
  | _ => rfl

/-- A run of write events that each leave the error registers leaves them. -/
theorem Evolves.errors_eq {ok : Write → Prop} (h : Evolves ok s t)
    (hok : ∀ (r : Regs) (w : Write), ok w → (r.apply w).errors = r.errors) :
    t.regs.errors = s.regs.errors := by
  induction h with
  | refl => rfl
  | write _ hw ih => exact (hok _ _ hw).trans ih
  | takeAdc _ _ _ ih => exact ih
  | takePoll _ _ ih => exact ih

/-! ## Ill-formed commands raise, well-formed commands keep the error registers (30_encoding R68) -/

/-- The command does nothing but record an error of its own, with its word. -/
def Raises (i : Instr) (s : State) : Prop :=
  ∃ cause, exec i s = .next (s.raise cause (encode i)) ∧
    cause ≠ .illegalOpcode ∧ cause ≠ .reservedBits

/-- The command completes and leaves the error registers. -/
def KeepsErrors (i : Instr) (s : State) : Prop :=
  ∃ t, exec i s = .next t ∧ t.regs.errors = s.regs.errors

/-- What a command does is decided by the field-value rules. -/
def FollowsRules (i : Instr) (s : State) : Prop :=
  (i.wellFormed s.cfg = true ∧ KeepsErrors i s) ∨ (i.wellFormed s.cfg = false ∧ Raises i s)

theorem slotOf_isSome (slot : BitVec 2) : (slotOf slot).isSome = decide (slot ≠ 3#2) := by
  revert slot; decide

theorem dmodeOf_isSome (dmode : BitVec 2) : (dmodeOf dmode).isSome = decide (dmode ≠ 3#2) := by
  revert dmode; decide

/-- SET and SLOT name an entry exactly where they are legal. -/
theorem paramIndex_isSome (p : Params) (set : BitVec 5) (slot : BitVec 2) :
    (paramIndex p set slot).isSome = indexLegal p set slot := by
  unfold paramIndex indexLegal
  split <;> simp [slotOf_isSome, *]

theorem pbSetRange_followsRules (set : BitVec 5) (slot : BitVec 2) (max min : BitVec 8)
    (s : State) : FollowsRules (.pbSetRange set slot max min) s := by
  unfold FollowsRules
  rw [Instr.wellFormed, ← paramIndex_isSome]
  cases hindex : paramIndex s.cfg set slot with
  | none => exact .inr ⟨rfl, .badIndex, by simp [exec, execPbSetRange, hindex]⟩
  | some entry =>
    by_cases hle : max.toNat ≤ min.toNat
    · exact .inr ⟨by simpa using hle, .badRange, by simp [exec, execPbSetRange, hindex, hle]⟩
    · refine .inl ⟨by simpa using hle, ?_⟩
      simp only [KeepsErrors, exec, execPbSetRange, hindex, if_neg hle]
      exact ⟨_, rfl, rfl⟩

theorem pbSetValue_followsRules (set : BitVec 5) (slot dmode : BitVec 2) (value : BitVec 8)
    (s : State) : FollowsRules (.pbSetValue set slot dmode value) s := by
  unfold FollowsRules
  rw [Instr.wellFormed, ← paramIndex_isSome, ← dmodeOf_isSome]
  cases hindex : paramIndex s.cfg set slot with
  | none => exact .inr ⟨rfl, .badIndex, by simp [exec, execPbSetValue, hindex]⟩
  | some entry =>
    cases hmode : dmodeOf dmode with
    | none => exact .inr ⟨rfl, .badEnum, by simp [exec, execPbSetValue, hindex, hmode]⟩
    | some d =>
      refine .inl ⟨rfl, ?_⟩
      simp only [KeepsErrors, exec, execPbSetValue, hindex, hmode]
      exact ⟨_, rfl, rfl⟩

theorem pbSelect_followsRules (preset : BitVec 5) (s : State) :
    FollowsRules (.pbSelect preset) s := by
  unfold FollowsRules
  rw [Instr.wellFormed]
  by_cases hle : s.cfg.totalPresets.val ≤ preset.toNat
  · exact .inr ⟨by simpa using hle, .badIndex, by simp [exec, execPbSelect, hle]⟩
  · refine .inl ⟨by simpa using hle, ?_⟩
    simp only [KeepsErrors, exec, execPbSelect, if_neg hle]
    exact ⟨_, rfl, rfl⟩

theorem regRead_followsRules (addr : BitVec 16) (s : State) : FollowsRules (.regRead addr) s := by
  unfold FollowsRules
  rw [Instr.wellFormed, ← regAt_isSome]
  cases hreg : regAt s.cfg addr with
  | none => exact .inr ⟨rfl, .badAddress, exec_regRead_of_none s addr hreg, by simp⟩
  | some g => exact .inl ⟨rfl, _, exec_regRead_of_some s addr g hreg, rfl⟩

/-- The field-value rules bind only the commands that may raise. -/
theorem wellFormed_of_not_mayRaise {i : Instr} (hraise : mayRaise i = false) (p : Params) :
    i.wellFormed p = true := by
  cases i with
  | pbSetRange | pbSetValue | pbSelect | regRead => cases hraise
  | _ => rfl

/-- The write events of a command that neither raises nor acknowledges leave the error registers. -/
theorem followsRules_of_not_mayRaise {i : Instr} (hraise : mayRaise i = false)
    (hclear : i ≠ .errClear) (s : State) : FollowsRules i s := by
  obtain ⟨t, ht, hrun⟩ := exec_completes i s
  have hkeep := hrun.errors_eq fun r w hw => Regs.errors_apply hraise hclear r hw
  exact .inl ⟨wellFormed_of_not_mayRaise hraise s.cfg, t, ht, hkeep⟩

/-- Every command but ERR_CLEAR, which acknowledges, follows the field-value rules. -/
theorem exec_followsRules {i : Instr} (hclear : i ≠ .errClear) (s : State) : FollowsRules i s := by
  cases i with
  | pbSetRange set slot max min => exact pbSetRange_followsRules set slot max min s
  | pbSetValue set slot dmode value => exact pbSetValue_followsRules set slot dmode value s
  | pbSelect preset => exact pbSelect_followsRules preset s
  | regRead addr => exact regRead_followsRules addr s
  | _ => exact followsRules_of_not_mayRaise rfl hclear s

/-- Settles O52: an ill-formed command only records its error. -/
theorem erroringCommandIsPrecise : Obligations.ErroringCommandIsPrecise := by
  unfold Obligations.ErroringCommandIsPrecise
  intro s i hill
  have hclear : i ≠ .errClear := by rintro rfl; cases hill
  rcases exec_followsRules hclear s with ⟨hwf, -⟩ | ⟨-, cause, hexec, hopcode, hreserved⟩
  · simp [hill] at hwf
  · exact ⟨_, cause, hexec, State.raise_regs _ _ _, hopcode, hreserved, State.raise_noDraw _ _ _⟩

/-- Settles O53: a well-formed command leaves the error registers. -/
theorem legalCommandRaisesNothing : Obligations.LegalCommandRaisesNothing := by
  unfold Obligations.LegalCommandRaisesNothing
  intro s i hwf hclear
  rcases exec_followsRules hclear s with ⟨-, t, hexec, hkeep⟩ | ⟨hill, -⟩
  · exact ⟨t, hexec, (Regs.errors_eq_iff _ _).1 hkeep⟩
  · simp [hwf] at hill

end Sys2Proof.Machine
end

section
/-! PROOFS. The analog channels: CH_INIT and the filter's read (40_analog R71 to R76), and the fast
scan as 200 reads of CH3 in a row (44_scope R106 to R109). -/

namespace Sys2Proof.Machine

/-! ## CH_INIT (40_analog R73) -/

/-- The offset first, then ACC's two halves, low half first. -/
theorem exec_chInit (s : State) (c : Channel) (offset : BitVec 12) :
    exec (.chInit c offset) s =
      .next (((s.write (.chOffset c offset)).write (.accLo c 0)).write (.accHi c 0)) := rfl

/-- The operand C in the word of its number. -/
theorem place_channel (c : Channel) :
    place 16 (BitVec.ofNat 2 c.val) = BitVec.ofNat 32 (c.val * 2 ^ 16) := by
  fin_cases c <;> rfl

theorem encode_chInit (c : Channel) (offset : BitVec 12) : encode (.chInit c offset) =
    0x01000000#32 ||| BitVec.ofNat 32 (c.val * 2 ^ 16) ||| offset.setWidth 32 := by
  rw [encode, place_channel, place, BitVec.shiftLeft_zero]
  rfl

/-- An average of 16 conversions is at most ADC_MAX, so an offset of ADC_MAX leaves nothing of it. -/
theorem chSample_of_full_offset {s : State} {c : Channel} (h : (s.regs.ch[c.val]).offset = 4095) :
    chSample s c = 0 := by
  have hsum := sum_draws_le (s.adcDraw c) 16
  have hoffset : (4095 : BitVec 12).toNat = 4095 := rfl
  rw [chSample_eq, h, hoffset]
  omega

/-- Settles O19: three write events of one channel; the word is the command's encoding. -/
theorem chInitRestartsChannel : Obligations.ChInitRestartsChannel := by
  unfold Obligations.ChInitRestartsChannel
  refine ⟨fun s c offset => ⟨_, exec_chInit s c offset, ?_, ⟨⟨?_, ?_⟩, ?_⟩, ?_⟩,
    fun s c => chSample_of_full_offset,
    fun c offset => Laws.decode_of_encode_eq (encode_chInit c offset)⟩ <;> simp

/-! ## One read of the filter in numbers (40_analog R71) -/

section Produce

variable (s : State) (c : Channel) (v : Half)

/-- A result changes no channel. -/
theorem State.produce_ch : (s.produce v).regs.ch = s.regs.ch := rfl

theorem State.produce_result : (s.produce v).regs.result = v := rfl

/-- ACC after CH_READ is the filter's next step, whatever value the read returns. -/
theorem chUpdate_produce_acc : ((chUpdate s c).produce v).regs.acc c = chAcc s c := by
  rw [Regs.acc, State.produce_ch, ← Regs.acc, chUpdate_acc, if_pos rfl]

end Produce

/-- The value of a read as a number. -/
theorem chValue_toNat (s : State) (c : Channel) (smooth : Bool) : (chValue s c smooth).toNat =
    if smooth then min 4095 ((chAcc s c + 2 ^ 15) / 2 ^ 16) else chSample s c := by
  have hle := chSample_le s c
  rw [← BitVec.toNat_setWidth_of_le (by decide : 12 ≤ 16), chValue_setWidth, BitVec.toNat_ofNat,
    Nat.mod_eq_of_lt (by split <;> omega)]

/-- RESULT holds the value of a read as it is. -/
theorem chValue_setWidth_toNat (s : State) (c : Channel) (smooth : Bool) :
    ((chValue s c smooth).setWidth 16).toNat = (chValue s c smooth).toNat :=
  BitVec.toNat_setWidth_of_le (by decide)

/-! ## The steady state (40_analog R72) -/

/-- The average of 16 equal draws is their value. -/
theorem chSample_of_steady_draws {s : State} {c : Channel} {v : Nat}
    (hoffset : (s.regs.ch[c.val]).offset = 0) (hdraw : ∀ k < 16, (s.adcDraw c k).toNat = v) :
    chSample s c = v := by
  have hsum : ((List.range 16).map fun k => (s.adcDraw c k).toNat) = List.replicate 16 v := by
    rw [List.map_congr_left fun k hk => hdraw k (List.mem_range.1 hk)]
    rfl
  rw [chSample_eq, hsum, hoffset, List.sum_replicate]
  simp

/-- With alpha + k = 65536 the accumulator of a value is a fixed point of the filter's step. -/
theorem emaStep_fixed {p : Params} {v : Nat} (hgain : p.alphaQ16.val + p.kQ16.val = 65536)
    (hv : v ≤ 4095) : emaStep p (v * 2 ^ 16) v = v * 2 ^ 16 := by
  have hsum : v * 2 ^ 16 * p.alphaQ16.val + v * p.kQ16.val * 2 ^ 16 = v * 2 ^ 16 * 2 ^ 16 :=
    calc v * 2 ^ 16 * p.alphaQ16.val + v * p.kQ16.val * 2 ^ 16
        = v * 2 ^ 16 * (p.alphaQ16.val + p.kQ16.val) := by ring
      _ = v * 2 ^ 16 * 2 ^ 16 := congrArg (v * 2 ^ 16 * ·) hgain
  rw [emaStep, hsum, Nat.mul_div_cancel _ (by decide), adcMax]
  omega

/-- Settles O21: the sample is `v`, and the step leaves the accumulator of `v`. -/
theorem steadyStateGainIsOne : Obligations.SteadyStateGainIsOne := by
  unfold Obligations.SteadyStateGainIsOne
  intro s c smooth v hgain hv hacc hoffset hdraw
  have hsample := chSample_of_steady_draws hoffset hdraw
  have hstep : chAcc s c = v * 2 ^ 16 := by rw [chAcc, hsample, hacc, emaStep_fixed hgain hv]
  refine ⟨_, exec_chRead s c smooth, ?_, ?_⟩
  · rw [chUpdate_produce_acc, hacc, hstep]
  · rw [State.produce_result, chValue_setWidth_toNat, chValue_toNat, hstep, hsample]
    split <;> omega

/-! ## The range of the filter (40_analog R75) -/

/-- With alpha + k at most 65536 the step is at most ADC_MAX before any clamp. -/
theorem unclamped_step_le {p : Params} {acc sample : Nat}
    (hgain : p.alphaQ16.val + p.kQ16.val ≤ 65536) (hacc : acc ≤ 4095 * 2 ^ 16)
    (hsample : sample ≤ 4095) :
    (acc * p.alphaQ16.val + sample * p.kQ16.val * 2 ^ 16) / 2 ^ 16 ≤ 4095 * 2 ^ 16 := by
  apply Nat.div_le_of_le_mul
  calc acc * p.alphaQ16.val + sample * p.kQ16.val * 2 ^ 16
      ≤ 4095 * 2 ^ 16 * p.alphaQ16.val + 4095 * p.kQ16.val * 2 ^ 16 := by gcongr
    _ = 4095 * 2 ^ 16 * (p.alphaQ16.val + p.kQ16.val) := by ring
    _ ≤ 4095 * 2 ^ 16 * 65536 := by gcongr
    _ = 2 ^ 16 * (4095 * 2 ^ 16) := rfl

/-- Settles O22: the clamp bounds every read, and below gain 1 it has nothing to do. -/
theorem filterStaysBounded : Obligations.FilterStaysBounded := by
  unfold Obligations.FilterStaysBounded
  refine ⟨fun s c smooth => ⟨_, exec_chRead s c smooth, ?_, ?_⟩, fun p acc sample => unclamped_step_le⟩
  · rw [chUpdate_produce_acc]
    exact chAcc_le s c
  · rw [State.produce_result, chValue_setWidth_toNat]
    have := (chValue s c smooth).isLt
    omega

/-! ## One channel's read and the other channels (40_analog R76) -/

/-- The read channel's registers after a read: the stepped accumulator and the offset it had. -/
theorem chUpdate_ch_self (s : State) (c : Channel) : (chUpdate s c).regs.ch[c.val] =
    ⟨lowHalf (BitVec.ofNat 32 (chAcc s c)), highHalf (BitVec.ofNat 32 (chAcc s c)),
      (s.regs.ch[c.val]).offset⟩ := by
  simp [chUpdate_eq]

theorem chUpdate_adc_self (s : State) (c : Channel) :
    (chUpdate s c).env.adc[c.val] = s.env.adc[c.val].advance 16 := by
  simp

/-- Settles O23: the filter's step, the value and the source are functions of the channel's own part
of the state. -/
theorem channelsAreIndependent : Obligations.ChannelsAreIndependent := by
  unfold Obligations.ChannelsAreIndependent
  intro s1 s2 c smooth hcfg hch hadc
  have hacc := chAcc_congr s1 s2 c hcfg hch hadc
  have hvalue := chValue_congr s1 s2 c smooth hcfg hch hadc
  refine ⟨_, _, exec_chRead s1 c smooth, exec_chRead s2 c smooth, ?_, ?_, ?_, fun d hd => ⟨?_, ?_⟩⟩
  · rw [State.produce_ch, State.produce_ch, chUpdate_ch_self, chUpdate_ch_self, hacc, hch]
  · rw [State.produce_result, State.produce_result, hvalue]
  · rw [State.produce_env, State.produce_env, chUpdate_adc_self, chUpdate_adc_self, hadc]
  · rw [State.produce_ch, chUpdate_ch_ne s1 c d hd]
  · rw [State.produce_env, chUpdate_adc_ne s1 c d hd]

/-! ## The samples of a fast scan, one after another (44_scope R107) -/

/-- The state after the first `n` samples of a fast scan. -/
def sampled (s : State) (n : Nat) : State := ((List.finRange 200).take n).foldl sampleInto s

section Sampled

variable (s : State)

theorem sampled_zero : sampled s 0 = s := rfl

theorem fastSamples_eq : fastSamples s = sampled s 200 := by
  rw [sampled, List.take_of_length_le (by simp), fastSamples]

theorem take_finRange_succ (j : Fin 200) :
    (List.finRange 200).take (j.val + 1) = (List.finRange 200).take j.val ++ [j] := by
  rw [← List.take_concat_get' _ _ (by simp), List.getElem_finRange]
  rfl

theorem sampled_succ (j : Fin 200) : sampled s (j.val + 1) = sampleInto (sampled s j.val) j := by
  rw [sampled, take_finRange_succ, List.foldl_concat]
  rfl

theorem sampled_cfg (n : Nat) : (sampled s n).cfg = s.cfg := (samples_run _ s).1

theorem sampled_offset (n : Nat) (c : Channel) :
    ((sampled s n).regs.ch[c.val]).offset = (s.regs.ch[c.val]).offset := by
  obtain ⟨-, -, -, -, -, hoffset, -⟩ := samples_run ((List.finRange 200).take n) s
  exact hoffset c

/-- Each sample takes 16 draws of CH3. -/
theorem sampled_env {n : Nat} (hn : n ≤ 200) :
    (sampled s n).env = { s.env with adc := s.env.adc.set 3 (s.env.adc[3].advance (16 * n)) } := by
  obtain ⟨-, -, henv, -⟩ := samples_run ((List.finRange 200).take n) s
  rwa [List.length_take, List.length_finRange, Nat.min_eq_left hn] at henv

/-- Sample `n` is taken from draws `16 n` to `16 n + 15`. -/
theorem sampled_adcDraw {n : Nat} (hn : n ≤ 200) (k : Nat) :
    (sampled s n).adcDraw cvCh k = s.adcDraw cvCh (16 * n + k) := by
  simp [State.adcDraw, sampled_env s hn]

theorem sampled_chSample {n : Nat} (hn : n ≤ 200) : chSample (sampled s n) cvCh =
    ((List.range 16).map fun k => (s.adcDraw cvCh (16 * n + k)).toNat).sum / 16 -
      (s.regs.ch[cvCh.val]).offset.toNat := by
  simp only [chSample_eq, sampled_adcDraw s hn, sampled_offset]

/-- The filter after a sample is stepped from the filter before it. -/
theorem sampled_acc_succ (j : Fin 200) :
    (sampled s (j.val + 1)).regs.acc cvCh = chAcc (sampled s j.val) cvCh := by
  rw [sampled_succ, sampleInto_acc]

/-- Numbers that start at ACC and step by the filter's recurrence are its successive states. -/
theorem sampled_acc_eq {acc : Nat → Nat} (hacc0 : acc 0 = s.regs.acc cvCh)
    (hacc : ∀ j < 200, acc (j + 1) = emaStep s.cfg (acc j) (chSample (sampled s j) cvCh))
    {n : Nat} (hn : n ≤ 200) : (sampled s n).regs.acc cvCh = acc n := by
  induction n with
  | zero => rw [sampled_zero, hacc0]
  | succ n ih => rw [sampled_acc_succ s ⟨n, hn⟩, chAcc, ih (by omega), sampled_cfg, hacc n hn]

/-- An entry keeps the value of its own sample to the end of the scan. -/
theorem sampled_buf {n : Nat} (hn : n ≤ 200) (j : Fin 200) (hj : j.val < n) :
    (sampled s n).regs.buf[j.val] = chValue (sampled s j.val) cvCh s.cfg.scopeSmooth := by
  induction n with
  | zero => omega
  | succ n ih =>
    rw [sampled_succ s ⟨n, hn⟩, sampleInto_regs, sampled_cfg]
    rcases Nat.lt_succ_iff_lt_or_eq.1 hj with hlt | rfl
    · rw [← ih (by omega) hlt]
      exact Vector.getElem_set_ne hn (by omega) (by simp; omega)
    · exact Vector.getElem_set_self _

/-- The write events of sample `j`, oldest first (20_memory R45). -/
def sampleEvents (j : Fin 200) : List Write :=
  [.accLo cvCh (BitVec.ofNat 16 (chAcc (sampled s j.val) cvCh)),
    .accHi cvCh (BitVec.ofNat 16 (chAcc (sampled s j.val) cvCh / 2 ^ 16)),
    .buf j (chValue (sampled s j.val) cvCh s.cfg.scopeSmooth)]

theorem sampled_succ_events (j : Fin 200) :
    (sampled s (j.val + 1)).events = (sampleEvents s j).reverse ++ (sampled s j.val).events := by
  obtain ⟨hlo, hhi⟩ := accHalves (sampled s j.val) cvCh
  rw [sampled_succ, sampleInto_events, hlo, hhi, sampled_cfg]
  rfl

theorem sampled_events {n : Nat} (hn : n ≤ 200) : (sampled s n).events =
    (((List.finRange 200).take n).flatMap (sampleEvents s)).reverse ++ s.events := by
  induction n with
  | zero => rfl
  | succ n ih =>
    rw [sampled_succ_events s ⟨n, hn⟩, ih (by omega), take_finRange_succ ⟨n, hn⟩]
    simp

/-- The write events of all the samples of a fast scan, sample 0 first. -/
theorem sampled_200_events : (sampled s 200).events =
    ((List.finRange 200).flatMap (sampleEvents s)).reverse ++ s.events := by
  rw [sampled_events s le_rfl, List.take_of_length_le (by simp)]

end Sampled

/-! ## SCOPE_ACQ below the threshold (44_scope R106) -/

theorem exec_scopeAcq_of_fast {s : State}
    (h : s.regs.scopeDelay.toNat < s.cfg.scanDelayThreshold.val) :
    exec .scopeAcq s = .next (fastTrigger (fastStats (sampled s 200))) := by
  simp [exec, execScopeAcq, fastAcq, fastSamples_eq, h]

@[simp] theorem fastStats_env (s : State) : (fastStats s).env = s.env := rfl
@[simp] theorem fastTrigger_env (s : State) : (fastTrigger s).env = s.env := rfl

/-- The statistics and the trigger leave the filter, the buffer and the draws. -/
theorem fastTrigger_fastStats_frame (s : State) :
    (fastTrigger (fastStats s)).regs.ch = s.regs.ch ∧
      (fastTrigger (fastStats s)).regs.buf = s.regs.buf ∧
      (fastTrigger (fastStats s)).env = s.env := by
  rw [fastTrigger_regs, fastStats_regs, fastTrigger_env, fastStats_env]
  exact ⟨rfl, rfl, rfl⟩

/-- The write events of the statistics and the trigger, in the order AVG, RMIN, RMAX, TRIG, WR. -/
theorem fastTrigger_fastStats_events (s : State) :
    (fastTrigger (fastStats s)).events =
      [Write.scopeAvg (fastTrigger (fastStats s)).regs.scopeAvg,
        .scopeRmin (fastTrigger (fastStats s)).regs.scopeRmin,
        .scopeRmax (fastTrigger (fastStats s)).regs.scopeRmax,
        .scopeTrig (fastTrigger (fastStats s)).regs.scopeTrig, .scopeWr 0].reverse ++ s.events := rfl

/-- Settles O49: `sample` and `acc` are the samples and the filter of the scan's successive states. -/
theorem fastScanFillsBuffer : Obligations.FastScanFillsBuffer := by
  unfold Obligations.FastScanFillsBuffer
  intro s sample acc hfast hsample hacc0 hacc
  obtain ⟨hch, hbuf, henv⟩ := fastTrigger_fastStats_frame (sampled s 200)
  have hsampled : ∀ j < 200, chSample (sampled s j) cvCh = sample j := fun j hj => by
    rw [hsample j hj, sampled_chSample s (by omega)]
    rfl
  have hfilter : ∀ n ≤ 200, (sampled s n).regs.acc cvCh = acc n := fun n hn =>
    sampled_acc_eq s hacc0 (fun j hj => by rw [hsampled j hj, hacc j hj, emaStep, adcMax]) hn
  have hstep : ∀ j : Fin 200, chAcc (sampled s j.val) cvCh = acc (j.val + 1) := fun j => by
    rw [← sampled_acc_succ, hfilter _ j.isLt]
  have hentry : ∀ j : Fin 200, (fastTrigger (fastStats (sampled s 200))).regs.buf[j.val] =
      chValue (sampled s j.val) cvCh s.cfg.scopeSmooth := fun j => by
    simp only [hbuf, sampled_buf s le_rfl j j.isLt]
  have hsampleEvents : ∀ j : Fin 200, sampleEvents s j =
      [.accLo 3 (BitVec.ofNat 16 (acc (j.val + 1))),
        .accHi 3 (BitVec.ofNat 16 (acc (j.val + 1) / 2 ^ 16)),
        .buf j (fastTrigger (fastStats (sampled s 200))).regs.buf[j.val]] := fun j => by
    rw [sampleEvents, hstep, hentry]
  refine ⟨_, exec_scopeAcq_of_fast hfast, fun j => ?_, ?_, ?_, ?_⟩
  · rw [hentry, chValue_toNat, hstep, hsampled _ j.isLt]
  · rw [Regs.acc, hch, ← Regs.acc, hfilter 200 le_rfl]
  · rw [henv, sampled_env s le_rfl]
  · rw [fastTrigger_fastStats_events, sampled_200_events, funext hsampleEvents,
      List.reverse_append, List.append_assoc]

end Sys2Proof.Machine
end

section
/-! PROOFS. The debounced buttons (41_button): BTN_INIT (R78), the elapsed test (R82), and what follows
from R79 to R81 for one poll and for BTN_POLL repeated on one button (R83, R84). -/

namespace Sys2Proof.Machine

/-! ## BTN_INIT (41_button R78) -/

/-- The hold duration first, then the timestamp, low half first, then the state register. -/
theorem exec_btnInit (s : State) (b : Button) (hold : Half) : exec (.btnInit b hold) s =
    .next ((((s.write (.btnHold b hold)).write (.btnT0Lo b 0)).write (.btnT0Hi b 0)).write
      (.btnState b .none .idle 0x00)) := rfl

/-- Settles O24: four write events that between them set every field of the one button. -/
theorem btnInitClearsButton : Obligations.BtnInitClearsButton := by
  unfold Obligations.BtnInitClearsButton
  intro s b hold
  refine ⟨_, exec_btnInit s b hold, ?_, ⟨⟨?_, ?_⟩, ?_⟩, ?_⟩ <;> simp

/-! ## The button after one poll (41_button R79) -/

section PolledButton

variable (s : State) (b : Button)

theorem polled_btn : (polled s b).regs.btn[b.val] =
    ⟨polledShift s b, (polledOutcome s b).stage, (polledOutcome s b).evt,
      (s.regs.btn[b.val]).hold, lowHalf (polledOutcome s b).t0, highHalf (polledOutcome s b).t0⟩ := by
  simp only [polled_regs, Vector.getElem_set_self]

@[simp] theorem polled_shift : ((polled s b).regs.btn[b.val]).shift = polledShift s b := by
  rw [polled_btn]

@[simp] theorem polled_stage : ((polled s b).regs.btn[b.val]).stage = (polledOutcome s b).stage := by
  rw [polled_btn]

@[simp] theorem polled_evt : ((polled s b).regs.btn[b.val]).evt = (polledOutcome s b).evt := by
  rw [polled_btn]

@[simp] theorem polled_t0 : (polled s b).regs.t0 b = (polledOutcome s b).t0 := by
  rw [Regs.t0, polled_btn, joinHalves_low_high]

end PolledButton

/-! ## The event of a poll (41_button R80, R81) -/

/-- The event is decided by the new shift register and by whether the poll starts in Held. -/
theorem polledOutcome_evt (s : State) (b : Button) : (polledOutcome s b).evt =
    if (s.regs.btn[b.val]).stage = .held then
      (if polledShift s b = 0x0F then .heldConfirmed
        else if polledShift s b = 0x00 then .holding else .none)
    else if polledShift s b = 0xF0 then .pressed
    else if polledShift s b = 0x0F then .released else .none := by
  rw [polledOutcome, pollOutcome]
  by_cases hheld : (s.regs.btn[b.val]).stage = .held
  · rw [if_pos hheld, if_pos hheld, pollHeld_eq]
  · rw [if_neg hheld, if_neg hheld, pollEdge_eq _ _ _ _ _ hheld]

theorem evt_eq_heldConfirmed_iff (s : State) (b : Button) :
    (polledOutcome s b).evt = .heldConfirmed ↔
      (s.regs.btn[b.val]).stage = .held ∧ polledShift s b = 0x0F := by
  rw [polledOutcome_evt]
  split_ifs <;> simp_all

theorem evt_eq_pressed_iff (s : State) (b : Button) :
    (polledOutcome s b).evt = .pressed ↔
      (s.regs.btn[b.val]).stage ≠ .held ∧ polledShift s b = 0xF0 := by
  rw [polledOutcome_evt]
  split_ifs <;> simp_all

theorem evt_eq_released_iff (s : State) (b : Button) :
    (polledOutcome s b).evt = .released ↔
      (s.regs.btn[b.val]).stage ≠ .held ∧ polledShift s b = 0x0F := by
  rw [polledOutcome_evt]
  split_ifs <;> simp_all

/-- Settles O28: HeldConfirmed is an event of the held branch, Pressed and Released are not. -/
theorem heldConfirmedOnlyFromHeld : Obligations.HeldConfirmedOnlyFromHeld := by
  unfold Obligations.HeldConfirmedOnlyFromHeld
  intro s b
  refine ⟨polled s b, exec_btnPoll s b, fun hevt => ?_, fun hheld => ⟨fun hevt => ?_, fun hevt => ?_⟩⟩
  · rw [polled_evt, evt_eq_heldConfirmed_iff] at hevt
    exact hevt.1
  · rw [polled_evt, evt_eq_pressed_iff] at hevt
    exact hevt.1 hheld
  · rw [polled_evt, evt_eq_released_iff] at hevt
    exact hevt.1 hheld

/-! ## The elapsed test (41_button R82) -/

theorem elapsed_eq_emod (now t0 : BitVec 32) :
    (elapsed now t0 : Int) = ((now.toNat : Int) - t0.toNat) % 2 ^ 32 := by
  rw [elapsed_eq]
  omega

/-- Where the counter has not wrapped the test is the source's `now >= recordedTime + holdMillis`. -/
theorem le_elapsed_iff_of_le {now t0 : BitVec 32} (hold : Half) (h : t0.toNat ≤ now.toNat) :
    hold.toNat ≤ elapsed now t0 ↔ t0.toNat + hold.toNat ≤ now.toNat := by
  rw [elapsed_eq]
  omega

/-- A level held low for eight polls turns Waiting into Held exactly when the test passes. -/
theorem polledOutcome_stage_of_waiting {s : State} {b : Button}
    (hwaiting : (s.regs.btn[b.val]).stage = .waiting) (hlow : polledShift s b = 0x00) :
    (polledOutcome s b).stage =
      if (s.regs.btn[b.val]).hold.toNat ≤ elapsed s.nowDraw (s.regs.t0 b) then .held
      else .waiting := by
  rw [polledOutcome, hwaiting, hlow, pollOutcome, if_neg (by decide), pollEdge_eq _ _ _ _ _ (by decide),
    elapsed_eq]
  rfl

/-- Settles O27: the subtraction wraps with the counter, and Waiting to Held is decided by its result. -/
theorem elapsedTestSurvivesWrap : Obligations.ElapsedTestSurvivesWrap := by
  unfold Obligations.ElapsedTestSurvivesWrap
  refine ⟨elapsed_eq_emod, fun _ _ => le_elapsed_iff_of_le, fun s b hwaiting hlow => ?_⟩
  refine ⟨polled s b, exec_btnPoll s b, ?_⟩
  rw [polled_stage, polledOutcome_stage_of_waiting hwaiting hlow]
  simp

/-! ## BTN_POLL repeated on one button -/

section AfterPolls

variable (s : State) (b : Button)

@[simp] theorem afterPolls_zero : afterPolls b 0 s = s := rfl

theorem afterPolls_succ (n : Nat) : afterPolls b (n + 1) s = polled (afterPolls b n s) b := rfl

/-- Each poll takes one draw of the button's pin and one of the clock. -/
theorem afterPolls_draws (n : Nat) :
    (afterPolls b n s).env.pin[b.val] = s.env.pin[b.val].advance n ∧
      (afterPolls b n s).env.now = s.env.now.advance n := by
  induction n with
  | zero => simp [Source.advance]
  | succ n ih =>
    obtain ⟨hpin, hnow⟩ := ih
    simp [afterPolls_succ, hpin, hnow]

theorem afterPolls_pinDraw (n : Nat) :
    (afterPolls b n s).pinDraw b = s.env.pin[b.val].peek (Config.freePin b.val) n := by
  simp [State.pinDraw, (afterPolls_draws s b n).1]

theorem afterPolls_nowDraw (n : Nat) :
    (afterPolls b n s).nowDraw = s.env.now.peek Config.freeNow n := by
  simp [State.nowDraw, (afterPolls_draws s b n).2]

end AfterPolls

/-! ## The spacing of edge events (41_button R84 (a)) -/

/-- A level that is in the shift register moves up by one place in a poll. -/
theorem shiftIn_getLsbD_succ (shift : BitVec 8) (level : Bool) {i : Nat} (h : i + 1 < 8) :
    (shiftIn shift level).getLsbD (i + 1) = shift.getLsbD i := by
  simp [shiftIn, BitVec.getLsbD_eq_getElem (show i < 8 by omega), h]

/-- A level that is in the shift register moves up by `k` places in `k` polls. -/
theorem afterPolls_shift_getLsbD (s : State) (b : Button) (m : Nat) {i k : Nat} (h : i + k < 8) :
    ((afterPolls b (m + k) s).regs.btn[b.val]).shift.getLsbD (i + k) =
      ((afterPolls b m s).regs.btn[b.val]).shift.getLsbD i := by
  induction k with
  | zero => rfl
  | succ k ih =>
    rw [← Nat.add_assoc, ← Nat.add_assoc, afterPolls_succ, polled_shift, polledShift,
      shiftIn_getLsbD_succ _ _ (by omega), ih (by omega)]

/-- A level that is in the shift registers of two polls is the same in both, so they cannot hold words
that disagree on it. -/
theorem afterPolls_shift_ne {s : State} {b : Button} {m k : Nat} {old new : BitVec 8} (i : Nat)
    (h : i + k < 8) (hdiffer : new.getLsbD (i + k) ≠ old.getLsbD i)
    (hfirst : ((afterPolls b m s).regs.btn[b.val]).shift = old) :
    ((afterPolls b (m + k) s).regs.btn[b.val]).shift ≠ new := by
  rintro rfl
  exact hdiffer (hfirst ▸ afterPolls_shift_getLsbD s b m h)

theorem afterPolls_shift_of_pressed {s : State} {b : Button} {n : Nat} (hn : 1 ≤ n)
    (h : ((afterPolls b n s).regs.btn[b.val]).evt = .pressed) :
    ((afterPolls b n s).regs.btn[b.val]).shift = 0xF0 := by
  obtain ⟨n, rfl⟩ := Nat.exists_eq_add_of_le' hn
  rw [afterPolls_succ, polled_evt, evt_eq_pressed_iff] at h
  rw [afterPolls_succ, polled_shift, h.2]

theorem afterPolls_shift_of_released {s : State} {b : Button} {n : Nat} (hn : 1 ≤ n)
    (h : ((afterPolls b n s).regs.btn[b.val]).evt = .released) :
    ((afterPolls b n s).regs.btn[b.val]).shift = 0x0F := by
  obtain ⟨n, rfl⟩ := Nat.exists_eq_add_of_le' hn
  rw [afterPolls_succ, polled_evt, evt_eq_released_iff] at h
  rw [afterPolls_succ, polled_shift, h.2]

/-- The place of a level in the lower half of a shift register that is in the upper half `k` polls
later. -/
def crossing (k : Nat) : Nat := min 3 (7 - k)

theorem crossing_add_lt {k : Nat} (h : k < 8) : crossing k + k < 8 := by
  unfold crossing
  omega

/-- Each edge pattern has one level in its lower half and the other in its upper half. -/
theorem edge_differs_from_itself : ∀ k < 8, 1 ≤ k →
    (0xF0#8).getLsbD (crossing k + k) ≠ (0xF0#8).getLsbD (crossing k) ∧
      (0x0F#8).getLsbD (crossing k + k) ≠ (0x0F#8).getLsbD (crossing k) := by decide

/-- The edge patterns differ on the newest level of the earlier one while it is in the lower half. -/
theorem edges_differ : ∀ k < 4,
    (0x0F#8).getLsbD (0 + k) ≠ (0xF0#8).getLsbD 0 ∧
      (0xF0#8).getLsbD (0 + k) ≠ (0x0F#8).getLsbD 0 := by decide

/-- Settles O29: the levels that the shift registers of two close polls share tell the patterns apart. -/
theorem edgeEventsAreSpaced : Obligations.EdgeEventsAreSpaced := by
  unfold Obligations.EdgeEventsAreSpaced
  intro s b m k hk
  have hfirst : 1 ≤ m + 1 := by omega
  have hlast : 1 ≤ m + 1 + k := by omega
  refine ⟨fun hlt h h' => ?_, fun hlt h h' => ?_, fun hlt h h' => ?_, fun hlt h h' => ?_⟩
  · exact afterPolls_shift_ne (crossing k) (crossing_add_lt hlt)
      (edge_differs_from_itself k hlt hk).1
      (afterPolls_shift_of_pressed hfirst h) (afterPolls_shift_of_pressed hlast h')
  · exact afterPolls_shift_ne (crossing k) (crossing_add_lt hlt)
      (edge_differs_from_itself k hlt hk).2
      (afterPolls_shift_of_released hfirst h) (afterPolls_shift_of_released hlast h')
  · exact afterPolls_shift_ne 0 (by omega) (edges_differ k hlt).1
      (afterPolls_shift_of_pressed hfirst h) (afterPolls_shift_of_released hlast h')
  · exact afterPolls_shift_ne 0 (by omega) (edges_differ k hlt).2
      (afterPolls_shift_of_released hfirst h) (afterPolls_shift_of_pressed hlast h')

/-! ## A press on a clean line (41_button R83) -/

theorem shiftIn_false (shift : BitVec 8) : shiftIn shift false = shift <<< 1 :=
  BitVec.or_zero

/-- A poll that starts in Idle. -/
theorem polledOutcome_of_idle {s : State} {b : Button} (h : (s.regs.btn[b.val]).stage = .idle) :
    polledOutcome s b =
      if polledShift s b = 0xF0 then ⟨.pressed, .idle, s.regs.t0 b⟩
      else if polledShift s b = 0x0F then ⟨.released, .idle, s.regs.t0 b⟩
      else if polledShift s b = 0x00 then ⟨.none, .waiting, s.nowDraw⟩
      else ⟨.none, .idle, s.regs.t0 b⟩ := by
  rw [polledOutcome, h]
  rfl

/-- A line that was high, `n` low polls later: Pressed is at 4, the full low register at 8. -/
theorem ones_shiftLeft_patterns : ∀ n ≤ 8, (0xFF#8 <<< n = 0xF0 ↔ n = 4) ∧ 0xFF#8 <<< n ≠ 0x0F ∧
    (0xFF#8 <<< n = 0x00 ↔ n = 8) := by decide

section CleanPress

variable {s : State} {b : Button} (hshift : (s.regs.btn[b.val]).shift = 0xFF)
  (hidle : (s.regs.btn[b.val]).stage = .idle)
  (hlow : ∀ k, k < 8 → s.env.pin[b.val].peek (Config.freePin b.val) k = false)
include hshift hlow

/-- Each low poll moves one more 0 into a register of ones. -/
theorem cleanPress_shift {n : Nat} (hn : n ≤ 8) :
    ((afterPolls b n s).regs.btn[b.val]).shift = 0xFF#8 <<< n := by
  induction n with
  | zero => exact hshift
  | succ n ih =>
    rw [afterPolls_succ, polled_shift, polledShift, afterPolls_pinDraw, hlow n hn, shiftIn_false,
      ih (by omega), BitVec.shiftLeft_add]

theorem cleanPress_polledShift {n : Nat} (hn : n < 8) :
    polledShift (afterPolls b n s) b = 0xFF#8 <<< (n + 1) := by
  rw [← polled_shift, ← afterPolls_succ, cleanPress_shift hshift hlow hn]

/-- What poll `n + 1` of a clean press decides, when it starts in Idle. -/
theorem cleanPress_outcome {n : Nat} (hn : n < 8)
    (hstage : ((afterPolls b n s).regs.btn[b.val]).stage = .idle) :
    polledOutcome (afterPolls b n s) b =
      if n + 1 = 4 then ⟨.pressed, .idle, (afterPolls b n s).regs.t0 b⟩
      else if n + 1 = 8 then ⟨.none, .waiting, s.env.now.peek Config.freeNow n⟩
      else ⟨.none, .idle, (afterPolls b n s).regs.t0 b⟩ := by
  obtain ⟨hpressed, hreleased, hzero⟩ := ones_shiftLeft_patterns (n + 1) hn
  rw [polledOutcome_of_idle hstage, cleanPress_polledShift hshift hlow hn, if_neg hreleased,
    afterPolls_nowDraw]
  simp only [hpressed, hzero]

include hidle

theorem cleanPress_stage {n : Nat} (hn : n < 8) :
    ((afterPolls b n s).regs.btn[b.val]).stage = .idle := by
  induction n with
  | zero => exact hidle
  | succ n ih =>
    have hstage := ih (by omega)
    rw [afterPolls_succ, polled_stage, cleanPress_outcome hshift hlow (by omega) hstage,
      if_neg (by omega : ¬ n + 1 = 8)]
    split_ifs <;> rfl

end CleanPress

/-- Settles O30: the button stays in Idle for seven polls, so each poll is one that starts in Idle. -/
theorem cleanPressTiming : Obligations.CleanPressTiming := by
  unfold Obligations.CleanPressTiming
  intro s b hshift hidle hlow
  have hstage : ∀ n < 8, ((afterPolls b n s).regs.btn[b.val]).stage = .idle := fun n hn =>
    cleanPress_stage hshift hidle hlow hn
  refine ⟨fun n hpos hn => ?_, hstage, ?_, ?_⟩
  · obtain ⟨n, rfl⟩ := Nat.exists_eq_add_of_le' hpos
    rw [afterPolls_succ, polled_evt, cleanPress_outcome hshift hlow hn (hstage n hn)]
    split_ifs <;> rfl
  · rw [afterPolls_succ, polled_stage,
      cleanPress_outcome hshift hlow (by omega) (hstage 7 (by omega))]
    rfl
  · rw [afterPolls_succ, polled_t0,
      cleanPress_outcome hshift hlow (by omega) (hstage 7 (by omega))]
    rfl

end Sys2Proof.Machine
end

section
/-! PROOFS. The parameter bank: PB_SET_RANGE, PB_SET_VALUE, PB_SELECT and PB_REARM (42_takeover
R85 to R88). -/

namespace Sys2Proof.Machine

variable {s : State} {set : BitVec 5} {slot : BitVec 2}

/-! ## PB_SET_RANGE (42_takeover R85) -/

theorem exec_pbSetRange_of_legal {i : Slot} {max min : BitVec 8} (hset : set.toNat < s.cfg.nSets)
    (hslot : slot.toNat = i.val) (hrange : min.toNat < max.toNat) :
    exec (.pbSetRange set slot max min) s =
      .next ((s.write (.prange set i max min)).write (.pval set i (s.regs.param set i).dmode
        (clampByte (s.regs.param set i).value min max))) := by
  simp [exec, execPbSetRange, paramIndex_of_legal s.cfg set slot i hset hslot, Nat.not_le.2 hrange]

theorem exec_pbSetRange_of_badIndex (max min : BitVec 8)
    (h : s.cfg.nSets ≤ set.toNat ∨ slot = 3) : exec (.pbSetRange set slot max min) s =
      .next (s.raise .badIndex (encode (.pbSetRange set slot max min))) := by
  simp [exec, execPbSetRange, paramIndex_of_illegal s.cfg set slot h]

theorem exec_pbSetRange_of_badRange {i : Slot} {max min : BitVec 8}
    (hset : set.toNat < s.cfg.nSets) (hslot : slot.toNat = i.val) (hrange : max.toNat ≤ min.toNat) :
    exec (.pbSetRange set slot max min) s =
      .next (s.raise .badRange (encode (.pbSetRange set slot max min))) := by
  simp [exec, execPbSetRange, paramIndex_of_legal s.cfg set slot i hset hslot, hrange]

/-- A range and then a value written to one entry make one new entry of it. -/
theorem Regs.apply_prange_pval (r : Regs) (set : BitVec 5) (i : Slot) (mx mn v : BitVec 8)
    (d : DMode) : (r.apply (.prange set i mx mn)).apply (.pval set i d v) = { r with
      params := r.params.set set.toNat (r.params[set.toNat].set i.val ⟨v, mn, mx, d⟩) } := by
  simp

/-- Settles O31: PRANGE first, then PVAL with the value clamped into the new range. -/
theorem setRangeClampsValue : Obligations.SetRangeClampsValue := by
  unfold Obligations.SetRangeClampsValue
  intro s set slot i max min hset hslot hrange
  exact ⟨_, _, exec_pbSetRange_of_legal hset hslot hrange, clampByte_toNat _ _ _,
    Regs.apply_prange_pval _ _ _ _ _ _ _, ⟨⟨rfl, rfl⟩, rfl⟩, rfl⟩

/-- Settles O32: the index is looked up before the range is compared. -/
theorem setRangeRaises : Obligations.SetRangeRaises := by
  unfold Obligations.SetRangeRaises
  refine fun s set slot max min => ⟨fun hindex => ?_, fun hset hslot hrange => ?_⟩
  · exact ⟨_, exec_pbSetRange_of_badIndex max min hindex, State.raise_regs _ _ _,
      State.raise_noDraw _ _ _⟩
  · obtain ⟨i, hi⟩ := exists_slot_of_ne_three slot hslot
    exact ⟨_, exec_pbSetRange_of_badRange hset hi hrange, State.raise_regs _ _ _,
      State.raise_noDraw _ _ _⟩

/-! ## PB_SET_VALUE (42_takeover R86) -/

theorem exec_pbSetValue_of_legal {i : Slot} (d : DMode) (value : BitVec 8)
    (hset : set.toNat < s.cfg.nSets) (hslot : slot.toNat = i.val) :
    exec (.pbSetValue set slot (dmodeCode d) value) s = .next (s.write (.pval set i d
      (clampByte value (s.regs.param set i).min (s.regs.param set i).max))) := by
  simp [exec, execPbSetValue, paramIndex_of_legal s.cfg set slot i hset hslot]

theorem exec_pbSetValue_of_badIndex (dmode : BitVec 2) (value : BitVec 8)
    (h : s.cfg.nSets ≤ set.toNat ∨ slot = 3) : exec (.pbSetValue set slot dmode value) s =
      .next (s.raise .badIndex (encode (.pbSetValue set slot dmode value))) := by
  simp [exec, execPbSetValue, paramIndex_of_illegal s.cfg set slot h]

theorem exec_pbSetValue_of_badEnum {i : Slot} (value : BitVec 8) (hset : set.toNat < s.cfg.nSets)
    (hslot : slot.toNat = i.val) : exec (.pbSetValue set slot 3 value) s =
      .next (s.raise .badEnum (encode (.pbSetValue set slot 3 value))) := by
  simp only [exec, execPbSetValue, paramIndex_of_legal s.cfg set slot i hset hslot, dmodeOf_three]

/-- Settles O33: one PVAL with the mode and the value clamped into the entry's range. -/
theorem setValueClampsValue : Obligations.SetValueClampsValue := by
  unfold Obligations.SetValueClampsValue
  rintro s set slot i _ d value hset hslot rfl
  exact ⟨_, _, exec_pbSetValue_of_legal d value hset hslot, clampByte_toNat _ _ _, rfl,
    ⟨⟨rfl, rfl⟩, rfl⟩, rfl⟩

/-- Settles O34: the index is looked up before the display mode. -/
theorem setValueRaises : Obligations.SetValueRaises := by
  unfold Obligations.SetValueRaises
  refine fun s set slot dmode value => ⟨fun hindex => ?_, ?_⟩
  · exact ⟨_, exec_pbSetValue_of_badIndex dmode value hindex, State.raise_regs _ _ _,
      State.raise_noDraw _ _ _⟩
  · rintro hset hslot rfl
    obtain ⟨i, hi⟩ := exists_slot_of_ne_three slot hslot
    exact ⟨_, exec_pbSetValue_of_badEnum value hset hi, State.raise_regs _ _ _,
      State.raise_noDraw _ _ _⟩

/-! ## PB_SELECT and PB_REARM (42_takeover R87, R88) -/

theorem exec_pbSelect_of_lt {preset : BitVec 5} (h : preset.toNat < s.cfg.totalPresets.val) :
    exec (.pbSelect preset) s = .next ((s.write (.active preset)).write (.latch locked)) := by
  simp [exec, execPbSelect, Nat.not_le.2 h]

theorem exec_pbSelect_of_le {preset : BitVec 5} (h : s.cfg.totalPresets.val ≤ preset.toNat) :
    exec (.pbSelect preset) s = .next (s.raise .badIndex (encode (.pbSelect preset))) := by
  simp [exec, execPbSelect, h]

theorem exec_pbRearm (s : State) : exec .pbRearm s = .next (s.write (.latch locked)) := rfl

theorem encode_pbSelect (preset : BitVec 5) :
    encode (.pbSelect preset) = 0x07000000#32 ||| preset.setWidth 32 := by
  rw [encode, place, BitVec.shiftLeft_zero]
  rfl

/-- Settles O35: ACTIVE first, then the latches, whatever preset was active before. -/
theorem selectRearmsTakeover : Obligations.SelectRearmsTakeover := by
  unfold Obligations.SelectRearmsTakeover
  refine fun s preset => ⟨fun hlt => ?_, fun hle => ?_,
    Laws.decode_of_encode_eq (encode_pbSelect preset)⟩
  · exact ⟨_, exec_pbSelect_of_lt hlt, rfl, ⟨⟨rfl, rfl⟩, rfl⟩, rfl⟩
  · exact ⟨_, exec_pbSelect_of_le hle, State.raise_regs _ _ _, State.raise_noDraw _ _ _⟩

/-- Settles O36: one write event, of the latches. -/
theorem rearmClearsLatches : Obligations.RearmClearsLatches := by
  unfold Obligations.RearmClearsLatches
  exact ⟨Laws.decode_of_encode_eq (i := .pbRearm) rfl,
    fun s => ⟨_, exec_pbRearm s, rfl, ⟨⟨rfl, rfl⟩, rfl⟩, rfl⟩⟩

end Sys2Proof.Machine
end

section
/-! PROOFS. The maps of soft takeover and the CV blend in numbers: potMapped (42_takeover R90),
mapBack (R93), and the blend's mapped values (43_cv R101). -/

namespace Sys2Proof.Machine

/-! ## The block's map and its clamp (00_scope R7, R9) -/

/-- The map on natural numbers. -/
theorem mapInt_natCast {x inLo inHi outLo outHi : Nat} (hx : inLo ≤ x) (hin : inLo ≤ inHi)
    (hout : outLo ≤ outHi) : mapInt x inLo inHi outLo outHi =
      ((outLo + (x - inLo) * (outHi - outLo) / (inHi - inLo) : Nat) : Int) := by
  unfold mapInt
  push_cast [hx, hin, hout]
  ring

/-- A byte clamped into a range of bytes is the clamped number. -/
theorem ofInt_clampInt_toNat (x : Int) {mn mx : BitVec 8} (h : mn.toNat ≤ mx.toNat) :
    ((BitVec.ofInt 8 (clampInt x mn.toNat mx.toNat)).toNat : Int) =
      min (max x mn.toNat) mx.toNat := by
  have hmx := mx.isLt
  simp only [clampInt, BitVec.toNat_ofInt]
  omega

/-! ## potMapped (42_takeover R90) -/

/-- The truncating map of a reading of at most ADC_MAX reaches the range's end only at ADC_MAX. -/
theorem mul_div_adcMax_eq_iff {pot w : Nat} (hpot : pot ≤ 4095) (hw : 0 < w) :
    pot * w / 4095 = w ↔ pot = 4095 := by
  refine ⟨fun h => ?_, fun h => by rw [h, Nat.mul_div_cancel_left _ (by decide)]⟩
  by_contra hne
  have hlt : pot * w < 4095 * w := Nat.mul_lt_mul_of_pos_right (by omega) hw
  have := Nat.div_lt_of_lt_mul hlt
  omega

theorem mul_div_adcMax_le {pot w : Nat} (hpot : pot ≤ 4095) : pot * w / 4095 ≤ w :=
  Nat.div_le_of_le_mul (Nat.mul_le_mul_right w hpot)

/-- The clamp never changes the mapped knob. -/
theorem potMapped_toNat {pot : Nat} {mn mx : BitVec 8} (hpot : pot ≤ 4095)
    (h : mn.toNat ≤ mx.toNat) :
    (potMapped pot mn mx).toNat = mn.toNat + pot * (mx.toNat - mn.toNat) / 4095 := by
  have hmap := mapInt_natCast (x := pot) (inHi := 4095) (Nat.zero_le _) (Nat.zero_le _) h
  have hclamp := ofInt_clampInt_toNat (mapInt pot 0 4095 mn.toNat mx.toNat) h
  have hle : pot * (mx.toNat - mn.toNat) / 4095 ≤ mx.toNat - mn.toNat := mul_div_adcMax_le hpot
  simp only [Nat.cast_zero, Nat.cast_ofNat, Nat.sub_zero] at hmap
  rw [hmap] at hclamp
  simp only [potMapped, adcMax, Nat.cast_ofNat, hmap]
  omega

/-- Settles O37: the map stays in the range, so the end of the range is met where the map meets
it. -/
theorem potMappedIsTruncatingMap : Obligations.PotMappedIsTruncatingMap := by
  unfold Obligations.PotMappedIsTruncatingMap
  refine ⟨fun pot mn mx hpot hlt => ?_, by decide, by decide, by decide⟩
  have hmap := potMapped_toNat hpot hlt.le
  have hle : pot * (mx.toNat - mn.toNat) / 4095 ≤ mx.toNat - mn.toNat := mul_div_adcMax_le hpot
  have hend := mul_div_adcMax_eq_iff (w := mx.toNat - mn.toNat) hpot (by omega)
  refine ⟨hmap, by omega, by omega, ?_⟩
  rw [← BitVec.toNat_inj, ← hend]
  omega

/-! ## mapBack (42_takeover R93) -/

theorem mapBack_toNat (p : Params) {v mn mx : BitVec 8} (hlt : mn.toNat < mx.toNat)
    (hlo : mn.toNat ≤ v.toNat) (hhi : v.toNat ≤ mx.toNat) : (mapBack p v mn mx).toNat =
      (v.toNat - mn.toNat) * p.pwmMax.val / (mx.toNat - mn.toNat) := by
  have hmap := mapInt_natCast hlo hlt.le (Nat.zero_le p.pwmMax.val)
  have hle : (v.toNat - mn.toNat) * p.pwmMax.val / (mx.toNat - mn.toNat) ≤ p.pwmMax.val :=
    Nat.div_le_of_le_mul (Nat.mul_le_mul_right _ (by omega))
  simp only [Nat.cast_zero, Nat.sub_zero, Nat.zero_add] at hmap
  rw [mapBack, hmap, BitVec.ofInt_natCast, BitVec.toNat_ofNat,
    Nat.mod_eq_of_lt (hle.trans_lt p.pwmMax.isLt)]

/-- Settles O38: the ends and the order are those of the division. -/
theorem mapBackEndsAndMonotone : Obligations.MapBackEndsAndMonotone := by
  unfold Obligations.MapBackEndsAndMonotone
  refine fun p mn mx hlt => ⟨?_, ?_, fun v v' hlo hvv' hhi => ?_⟩
  · exact BitVec.eq_of_toNat_eq (by simp [mapBack_toNat p hlt le_rfl hlt.le])
  · rw [mapBack_toNat p hlt hlt.le le_rfl, Nat.mul_div_cancel_left _ (by omega)]
  · rw [mapBack_toNat p hlt hlo (by omega), mapBack_toNat p hlt (by omega) hhi]
    exact ⟨rfl, Nat.div_le_div_right (Nat.mul_le_mul_right _ (by omega))⟩

/-! ## The CV blend (43_cv R100 to R102) -/

/-- The blended value as the integer of R100, the mapped CV and half point as R101 gives them. -/
theorem cvBlendValue_toNat (mode : CvMode) (v pm : BitVec 8) {mn mx : BitVec 8} (cv d : Nat)
    (h : mn.toNat ≤ mx.toNat) : ((cvBlendValue mode v pm mn mx cv d).toNat : Int) =
      match mode with
      | .off => v.toNat
      | .bipolar => min (max (pm.toNat + cvMapped cv d mn mx) mn.toNat) mx.toNat
      | .unipolar =>
          min (max (pm.toNat + (cvMapped cv d mn mx - halfMapped d mn mx)) mn.toNat) mx.toNat := by
  cases mode with
  | off => rfl
  | bipolar => exact ofInt_clampInt_toNat _ h
  | unipolar => exact ofInt_clampInt_toNat _ h

theorem cvMapped_eq (cv d : Nat) (mn mx : BitVec 8) : cvMapped cv d mn mx =
    mn.toNat + ((cv : Int) * d / 100) * (mx.toNat - mn.toNat) / 4095 := by
  simp [cvMapped, cvScaled, mapInt, add_comm]

theorem halfMapped_eq (d : Nat) (mn mx : BitVec 8) : halfMapped d mn mx =
    mn.toNat + (4095 * (d : Int) / 100 / 2) * (mx.toNat - mn.toNat) / 4095 := by
  simp [halfMapped, halfPoint, mapInt, add_comm]

end Sys2Proof.Machine
end

section
/-! PROOFS. PB_UPDATE (42_takeover R89 to R94, R96, 43_cv R99, R100). Each slot's step reads its own
part of the state alone: its potentiometer, its latch, its entry, and CH3 where the blend runs. So
what the three steps do, one after another, is said from the state before the command. -/

namespace Sys2Proof.Machine

variable {settings : Bool} {set : BitVec 5} {s t : State} {i j : Slot} {c d : Channel} {n : Nat}

/-! ## A channel's part of the state (40_analog R76) -/

/-- The registers of a channel and the source of its draws. -/
def State.channel (s : State) (c : Channel) : ChannelRegs × Source (BitVec 12) :=
  (s.regs.ch[c.val], s.env.adc[c.val])

theorem channel_eq_iff : t.channel c = s.channel c ↔
    t.regs.ch[c.val] = s.regs.ch[c.val] ∧ t.env.adc[c.val] = s.env.adc[c.val] := Prod.ext_iff

theorem chUpdate_channel_ne (h : c ≠ d) : (chUpdate s d).channel c = s.channel c :=
  channel_eq_iff.2 ⟨chUpdate_ch_ne s d c h, chUpdate_adc_ne s d c h⟩

theorem chAcc_of_channel_eq (hcfg : t.cfg = s.cfg) (h : t.channel c = s.channel c) :
    chAcc t c = chAcc s c :=
  chAcc_congr t s c hcfg (channel_eq_iff.1 h).1 (channel_eq_iff.1 h).2

theorem chValue_of_channel_eq (smooth : Bool) (hcfg : t.cfg = s.cfg)
    (h : t.channel c = s.channel c) : chValue t c smooth = chValue s c smooth :=
  chValue_congr t s c smooth hcfg (channel_eq_iff.1 h).1 (channel_eq_iff.1 h).2

/-- What a read leaves of its channel depends on the channel alone. -/
theorem chUpdate_channel_of_channel_eq (hcfg : t.cfg = s.cfg) (h : t.channel c = s.channel c) :
    (chUpdate t c).channel c = (chUpdate s c).channel c := by
  obtain ⟨hch, hadc⟩ := channel_eq_iff.1 h
  rw [channel_eq_iff, chUpdate_ch_self, chUpdate_adc_self, chUpdate_ch_self, chUpdate_adc_self,
    chAcc_of_channel_eq hcfg h, hch, hadc]
  exact ⟨rfl, rfl⟩

theorem acc_of_channel_eq_chUpdate (h : t.channel c = (chUpdate s c).channel c) :
    t.regs.acc c = chAcc s c := by
  rw [Regs.acc, (channel_eq_iff.1 h).1, ← Regs.acc, chUpdate_acc, if_pos rfl]

/-! ## The channels that a slot's step reads (42_takeover R89) -/

/-- Slot `i`'s step reads channel `c`: its potentiometer, and CH3 where the blend runs. -/
def SlotReads (settings : Bool) (cva : Cva) (i : Slot) (c : Channel) : Prop :=
  c = potOf i ∨ c = cvCh ∧ blends settings cva i = true

theorem blends_iff {cva : Cva} :
    blends settings cva i = true ↔ settings = false ∧ i = cva.target ∧ 0 < cva.depth.toNat := by
  simp [blends, and_assoc]

theorem not_blends_of {cva : Cva} (h : settings = true ∨ i ≠ cva.target ∨ cva.depth = 0) :
    ¬ blends settings cva i = true := by
  rw [blends_iff]
  rintro ⟨rfl, rfl, hdepth⟩
  rcases h with h | h | h
  · cases h
  · exact h rfl
  · simp [h] at hdepth

theorem potOf_inj : potOf i = potOf j ↔ i = j := by
  simp [potOf, Fin.ext_iff]

/-- No channel is read by two slots. -/
theorem SlotReads.unique {cva : Cva} (hi : SlotReads settings cva i c)
    (hj : SlotReads settings cva j c) : i = j := by
  rcases hi with rfl | ⟨rfl, hi⟩ <;> rcases hj with hj | ⟨hj, hj'⟩
  · exact potOf_inj.1 hj
  · exact absurd hj.symm (potOf_ne_cvCh i)
  · exact absurd hj (potOf_ne_cvCh j)
  · obtain ⟨-, hi, -⟩ := blends_iff.1 hi
    obtain ⟨-, hj, -⟩ := blends_iff.1 hj'
    exact hi.trans hj.symm

theorem slotStep_channel_of_reads (h : SlotReads settings s.regs.cva i c) :
    (slotStep settings set s i).channel c = (chUpdate s c).channel c := by
  have hpot := (potOf_ne_cvCh i).symm
  rw [State.channel, slotStep_regs, slotStep_env]
  rcases h with rfl | ⟨rfl, hb⟩
  · split
    · exact chUpdate_channel_ne hpot
    · rfl
  · rw [if_pos hb, if_pos hb]
    exact chUpdate_channel_of_channel_eq (chUpdate_cfg _ _) (chUpdate_channel_ne hpot.symm)

theorem slotStep_channel_of_not_reads (h : ¬ SlotReads settings s.regs.cva i c) :
    (slotStep settings set s i).channel c = s.channel c := by
  obtain ⟨hpot, hcv⟩ := not_or.1 h
  have hread : (chUpdate s (potOf i)).channel c = s.channel c := chUpdate_channel_ne hpot
  rw [State.channel, slotStep_regs, slotStep_env]
  split
  next hb => exact (chUpdate_channel_ne fun e => hcv ⟨e, hb⟩).trans hread
  next => exact hread

/-! ## What a slot's step decides (42_takeover R90 to R92) -/

/-- The slot's knob mapped into its range. -/
def mappedKnob (set : BitVec 5) (s : State) (i : Slot) : BitVec 8 :=
  potMapped (chValue s (potOf i) true).toNat (s.regs.param set i).min (s.regs.param set i).max

/-- LATCH after the steps of the slots below `n`. -/
def latchUpTo (set : BitVec 5) (s : State) (n : Nat) : Vector Bool 3 :=
  Vector.ofFn fun j : Slot => s.regs.latch[j.val] ||
    (decide (j.val < n) && decide (mappedKnob set s j = (s.regs.param set j).value))

theorem latchUpTo_getElem (set : BitVec 5) (s : State) (n : Nat) (j : Slot) :
    (latchUpTo set s n)[j.val] = (s.regs.latch[j.val] ||
      (decide (j.val < n) && decide (mappedKnob set s j = (s.regs.param set j).value))) := by
  simp [latchUpTo]

theorem slot_lt_succ_iff_of_ne (h : j ≠ i) : j.val < i.val + 1 ↔ j.val < i.val :=
  Nat.lt_succ_iff_lt_or_eq.trans (or_iff_left fun e => h (Fin.ext e))

theorem latch_ext {v w : Vector Bool 3} (h : ∀ j : Slot, v[j.val] = w[j.val]) : v = w :=
  Vector.ext fun k hk => h ⟨k, hk⟩

theorem latchUpTo_zero : latchUpTo set s 0 = s.regs.latch :=
  latch_ext fun j => by simp [latchUpTo_getElem]

theorem latchAfter_latchUpTo (set : BitVec 5) (s : State) (i : Slot) :
    latchAfter (latchUpTo set s i.val) i (mappedKnob set s i) (s.regs.param set i).value =
      latchUpTo set s (i.val + 1) := by
  refine latch_ext fun j => ?_
  rw [latchAfter_getElem, latchUpTo_getElem, latchUpTo_getElem]
  by_cases hji : j = i
  · simp [hji]
  · simp [hji, slot_lt_succ_iff_of_ne hji]

/-- The value that a step writes where the blend does not run: the knob's where the latch is set. -/
theorem slotValue_of_not_blends (h : ¬ blends settings s.regs.cva i = true) :
    slotValue settings set s i =
      if s.regs.latch[i.val] || decide (mappedKnob set s i = (s.regs.param set i).value)
      then mappedKnob set s i else (s.regs.param set i).value :=
  if_neg h

/-- The value that a step writes where the blend runs. -/
theorem slotValue_of_blends (h : blends settings s.regs.cva i = true) :
    slotValue settings set s i =
      blendedValue s
        (if s.regs.latch[i.val] || decide (mappedKnob set s i = (s.regs.param set i).value)
          then mappedKnob set s i else (s.regs.param set i).value)
        (mappedKnob set s i) (s.regs.param set i).min (s.regs.param set i).max :=
  if_pos h

/-- The write events of slot `i`'s step in the order of R89, from the state before the command. -/
def slotTrace (settings : Bool) (set : BitVec 5) (s : State) (i : Slot) : List Write :=
  [.accLo (potOf i) ((chUpdate s (potOf i)).regs.ch[(potOf i).val]).accLo,
    .accHi (potOf i) ((chUpdate s (potOf i)).regs.ch[(potOf i).val]).accHi] ++
  (if mappedKnob set s i = (s.regs.param set i).value then [.latch (latchUpTo set s (i.val + 1))]
   else []) ++
  (if blends settings s.regs.cva i then
    [.accLo cvCh ((chUpdate s cvCh).regs.ch[cvCh.val]).accLo,
      .accHi cvCh ((chUpdate s cvCh).regs.ch[cvCh.val]).accHi] else []) ++
  [.pval set i (s.regs.param set i).dmode (slotValue settings set s i)]

/-! ## A step's inputs (42_takeover R89) -/

/-- Slot `i`'s step finds in `t` what it would find in `s`. -/
structure SameInputs (settings : Bool) (set : BitVec 5) (i : Slot) (s t : State) : Prop where
  cfg : t.cfg = s.cfg
  cva : t.regs.cva = s.regs.cva
  latch : t.regs.latch[i.val] = s.regs.latch[i.val]
  param : t.regs.param set i = s.regs.param set i
  channel : ∀ c : Channel, SlotReads settings s.regs.cva i c → t.channel c = s.channel c

namespace SameInputs

theorem pot (h : SameInputs settings set i s t) : t.channel (potOf i) = s.channel (potOf i) :=
  h.channel _ (.inl rfl)

theorem cv (h : SameInputs settings set i s t) (hb : blends settings s.regs.cva i = true) :
    t.channel cvCh = s.channel cvCh :=
  h.channel _ (.inr ⟨rfl, hb⟩)

theorem mappedKnob_eq (h : SameInputs settings set i s t) :
    mappedKnob set t i = mappedKnob set s i := by
  rw [mappedKnob, chValue_of_channel_eq true h.cfg h.pot, h.param, ← mappedKnob]

theorem slotValue_eq (h : SameInputs settings set i s t) :
    slotValue settings set t i = slotValue settings set s i := by
  by_cases hb : blends settings s.regs.cva i = true
  · have hbt : blends settings t.regs.cva i = true := h.cva ▸ hb
    simp only [slotValue_of_blends hb, slotValue_of_blends hbt, blendedValue, h.mappedKnob_eq,
      h.cva, h.latch, h.param, chValue_of_channel_eq true h.cfg (h.cv hb)]
  · have hbt : ¬ blends settings t.regs.cva i = true := h.cva ▸ hb
    simp only [slotValue_of_not_blends hb, slotValue_of_not_blends hbt, h.mappedKnob_eq, h.latch,
      h.param]

theorem slotStep_events_eq (h : SameInputs settings set i s t)
    (hlatch : t.regs.latch = latchUpTo set s i.val) :
    (slotStep settings set t i).events = (slotTrace settings set s i).reverse ++ t.events := by
  have hknob := h.mappedKnob_eq
  have hacc := chAcc_of_channel_eq h.cfg h.pot
  rw [slotStep_events, slotTrace, ← mappedKnob, hknob, h.param, h.slotValue_eq, h.cva, hlatch,
    latchAfter_latchUpTo, hacc, chUpdate_ch_self, chUpdate_ch_self]
  by_cases hb : blends settings s.regs.cva i = true
  · rw [chAcc_of_channel_eq h.cfg (h.cv hb), if_pos hb, if_pos hb]
    split <;> rfl
  · rw [if_neg hb, if_neg hb]
    split <;> rfl

end SameInputs

/-! ## The three steps from the state before the command -/

/-- `t` is `s` after the steps of the slots below `n` on set `set`. -/
structure SlotsDone (settings : Bool) (set : BitVec 5) (s : State) (n : Nat) (t : State) :
    Prop where
  cfg : t.cfg = s.cfg
  port : t.port = s.port
  pin : t.env.pin = s.env.pin
  now : t.env.now = s.env.now
  frame : { t.regs with
    latch := s.regs.latch, ch := s.regs.ch, params := s.regs.params } = s.regs
  latch : t.regs.latch = latchUpTo set s n
  param : ∀ (k : BitVec 5) (j : Slot), t.regs.param k j =
    if k = set ∧ j.val < n then { s.regs.param set j with value := slotValue settings set s j }
    else s.regs.param k j
  channel_read : ∀ (c : Channel) (j : Slot), j.val < n → SlotReads settings s.regs.cva j c →
    t.channel c = (chUpdate s c).channel c
  channel_other : ∀ c : Channel, (∀ j : Slot, j.val < n → ¬ SlotReads settings s.regs.cva j c) →
    t.channel c = s.channel c
  events : t.events =
    (((List.finRange 3).take n).flatMap (slotTrace settings set s)).reverse ++ s.events

namespace SlotsDone

theorem zero : SlotsDone settings set s 0 s where
  cfg := rfl
  port := rfl
  pin := rfl
  now := rfl
  frame := rfl
  latch := latchUpTo_zero.symm
  param := by simp
  channel_read := fun _ _ hj => absurd hj (Nat.not_lt_zero _)
  channel_other := fun _ _ => rfl
  events := rfl

theorem cva (h : SlotsDone settings set s n t) : t.regs.cva = s.regs.cva :=
  (congrArg Regs.cva h.frame :)

/-- The steps of the slots before `i` leave the inputs of slot `i`'s step. -/
theorem sameInputs (h : SlotsDone settings set s i.val t) : SameInputs settings set i s t where
  cfg := h.cfg
  cva := h.cva
  latch := by simp [h.latch, latchUpTo_getElem]
  param := by simp [h.param]
  channel := fun c hc => h.channel_other c fun _ hlt hj => hlt.ne (congrArg Fin.val (hj.unique hc))

/-- Slot `i`'s step after those of the slots before it. -/
theorem slotStep (h : SlotsDone settings set s i.val t) :
    SlotsDone settings set s (i.val + 1) (slotStep settings set t i) where
  cfg := (slotStep_cfg _ _ _ _).trans h.cfg
  port := (slotStep_port _ _ _ _).trans h.port
  pin := by
    rw [slotStep_env]
    split <;> exact h.pin
  now := by
    rw [slotStep_env]
    split <;> exact h.now
  frame := by
    rw [slotStep_regs]
    exact h.frame
  latch := by
    rw [slotStep_regs, h.latch, ← mappedKnob, h.sameInputs.mappedKnob_eq, h.sameInputs.param,
      latchAfter_latchUpTo]
  param := fun k j => by
    have hset : (Machine.slotStep settings set t i).regs.param k j =
        if k = set ∧ j = i then { s.regs.param set i with value := slotValue settings set s i }
        else t.regs.param k j := by
      rw [slotStep_regs, h.sameInputs.param, h.sameInputs.slotValue_eq]
      exact Regs.param_set (r := t.regs) set k i j _
    rw [hset, h.param]
    by_cases hji : j = i
    · simp [hji]
    · simp [hji, slot_lt_succ_iff_of_ne hji]
  channel_read := fun c j hj hc => by
    rcases Nat.lt_succ_iff_lt_or_eq.1 hj with hlt | heq
    · rw [slotStep_channel_of_not_reads, h.channel_read c j hlt hc]
      rw [h.cva]
      exact fun hi => hlt.ne (congrArg Fin.val (hc.unique hi))
    · obtain rfl := Fin.ext heq
      rw [slotStep_channel_of_reads (h.cva ▸ hc)]
      exact chUpdate_channel_of_channel_eq h.cfg (h.sameInputs.channel c hc)
  channel_other := fun c hc => by
    rw [slotStep_channel_of_not_reads (h.cva ▸ hc i (Nat.lt_succ_self _)),
      h.channel_other c fun j hj => hc j (Nat.lt_succ_of_lt hj)]
  events := by
    have htake : (List.finRange 3).take (i.val + 1) = (List.finRange 3).take i.val ++ [i] := by
      rw [List.take_add_one]
      simp
    rw [h.sameInputs.slotStep_events_eq h.latch, h.events, htake]
    simp

end SlotsDone

theorem slotSteps_done (settings : Bool) (s : State) :
    SlotsDone settings (updatedSet settings s) s 3 (slotSteps settings s) :=
  SlotsDone.slotStep (i := 2) (SlotsDone.slotStep (i := 1) (SlotsDone.slotStep (i := 0) .zero))

end Sys2Proof.Machine
end

section
/-! PROOFS. The statements about PB_UPDATE as one command: the three slots' steps, the CV assignment
on the settings set, and the PWM outputs (42_takeover R89 to R94, R96, 43_cv R99 to R102). -/

namespace Sys2Proof.Machine

/-! ## After the slots' steps (42_takeover R89, R93, 43_cv R99) -/

section Finish

variable (settings : Bool) (u : State)

/-- The command's last part: CVA on the settings set, and PWM. -/
def finishUpdate : State := writePwm (if settings then cvaFromSettings u else u)

/-- CVA after it: loaded on the settings set, else kept. -/
def finishUpdateCva : Cva := if settings then (cvaFromSettings u).regs.cva else u.regs.cva

theorem finishUpdate_regs : (finishUpdate settings u).regs = { u.regs with
    cva := finishUpdateCva settings u
    pwm := #v[pwmLevel u 0, pwmLevel u 1, pwmLevel u 2] } := by
  rw [finishUpdate, writePwm_regs]
  cases settings <;> rfl

theorem finishUpdate_cfg : (finishUpdate settings u).cfg = u.cfg := by
  rw [finishUpdate, writePwm_cfg]
  split <;> rfl

theorem finishUpdate_port : (finishUpdate settings u).port = u.port := by
  rw [finishUpdate, writePwm_port]
  split <;> rfl

theorem finishUpdate_env : (finishUpdate settings u).env = u.env := by
  rw [finishUpdate, writePwm_env]
  split <;> rfl

theorem finishUpdate_param (k : BitVec 5) (i : Slot) :
    (finishUpdate settings u).regs.param k i = u.regs.param k i := by
  rw [finishUpdate_regs]
  rfl

theorem finishUpdate_channel (c : Channel) : (finishUpdate settings u).channel c = u.channel c := by
  rw [State.channel, finishUpdate_env, finishUpdate_regs, State.channel]

/-- The levels are those of the entries as they stand at the end. -/
theorem finishUpdate_pwm (i : Slot) :
    (finishUpdate settings u).regs.pwm[i.val] = pwmLevel (finishUpdate settings u) i := by
  have hactive : (finishUpdate settings u).regs.active = u.regs.active := by rw [finishUpdate_regs]
  rw [pwmLevel, finishUpdate_param, hactive, finishUpdate_cfg, finishUpdate_regs]
  fin_cases i <;> rfl

theorem finishUpdate_events : (finishUpdate settings u).events =
    [.pwm 2 (finishUpdate settings u).regs.pwm[2], .pwm 1 (finishUpdate settings u).regs.pwm[1],
      .pwm 0 (finishUpdate settings u).regs.pwm[0]] ++
    (if settings then [.cva (finishUpdate settings u).regs.cva] else []) ++ u.events := by
  have hlevel : ∀ i, pwmLevel (if settings then cvaFromSettings u else u) i = pwmLevel u i := by
    intro i
    split <;> rfl
  rw [finishUpdate_regs, finishUpdate, writePwm_events, hlevel, hlevel, hlevel, finishUpdateCva]
  cases settings <;> rfl

theorem finishUpdate_cva_of_preset : (finishUpdate false u).regs.cva = u.regs.cva := by
  rw [finishUpdate_regs]
  rfl

/-- CVA is loaded from the settings set's values as they stand at the end. -/
theorem finishUpdate_cva_of_settings : (finishUpdate true u).regs.cva =
    legalCva ((finishUpdate true u).regs.param u.cfg.settingsSet 0).value.toNat
      ((finishUpdate true u).regs.param u.cfg.settingsSet 1).value.toNat
      ((finishUpdate true u).regs.param u.cfg.settingsSet 2).value.toNat := by
  simp only [finishUpdate_param]
  rfl

end Finish

/-! ## The command (42_takeover R89) -/

variable (settings : Bool) (s : State)

/-- The state after PB_UPDATE. -/
def updated : State := finishUpdate settings (slotSteps settings s)

theorem exec_pbUpdate : exec (.pbUpdate settings) s = .next (updated settings s) := rfl

theorem updated_cfg : (updated settings s).cfg = s.cfg :=
  (finishUpdate_cfg _ _).trans (slotSteps_done settings s).cfg

theorem updated_port : (updated settings s).port = s.port :=
  (finishUpdate_port _ _).trans (slotSteps_done settings s).port

theorem updated_latch :
    (updated settings s).regs.latch = latchUpTo (updatedSet settings s) s 3 := by
  rw [updated, finishUpdate_regs, ← (slotSteps_done settings s).latch]

theorem updated_latch_getElem (i : Slot) : (updated settings s).regs.latch[i.val] =
    (s.regs.latch[i.val] || decide (mappedKnob (updatedSet settings s) s i =
      (s.regs.param (updatedSet settings s) i).value)) := by
  simp [updated_latch, latchUpTo_getElem]

theorem updated_param (k : BitVec 5) (i : Slot) : (updated settings s).regs.param k i =
    if k = updatedSet settings s then
      { s.regs.param (updatedSet settings s) i with
        value := slotValue settings (updatedSet settings s) s i }
    else s.regs.param k i := by
  rw [updated, finishUpdate_param, (slotSteps_done settings s).param]
  simp

theorem updated_param_self (i : Slot) : (updated settings s).regs.param (updatedSet settings s) i =
    { s.regs.param (updatedSet settings s) i with
      value := slotValue settings (updatedSet settings s) s i } := by
  rw [updated_param, if_pos rfl]

variable {settings s}

/-- A channel that some slot's step reads is read once. -/
theorem updated_channel_of_reads {c : Channel} {i : Slot} (h : SlotReads settings s.regs.cva i c) :
    (updated settings s).channel c = (chUpdate s c).channel c := by
  rw [updated, finishUpdate_channel]
  exact (slotSteps_done settings s).channel_read c i i.isLt h

theorem updated_channel_of_not_reads {c : Channel}
    (h : ∀ i : Slot, ¬ SlotReads settings s.regs.cva i c) :
    (updated settings s).channel c = s.channel c := by
  rw [updated, finishUpdate_channel]
  exact (slotSteps_done settings s).channel_other c fun i _ => h i

theorem updated_channel_potOf (settings : Bool) (s : State) (i : Slot) :
    (updated settings s).channel (potOf i) = (chUpdate s (potOf i)).channel (potOf i) :=
  updated_channel_of_reads (.inl rfl)

theorem updated_channel_cvCh_of_blends {i : Slot} (h : blends settings s.regs.cva i = true) :
    (updated settings s).channel cvCh = (chUpdate s cvCh).channel cvCh :=
  updated_channel_of_reads (.inr ⟨rfl, h⟩)

/-- CH3 is no slot's potentiometer, so it is left where no blend runs. -/
theorem updated_channel_cvCh_of_not_blends (h : ∀ i : Slot, ¬ blends settings s.regs.cva i = true) :
    (updated settings s).channel cvCh = s.channel cvCh :=
  updated_channel_of_not_reads fun i hi => hi.elim (potOf_ne_cvCh i) fun hb => h i hb.2

/-- A read keeps its channel's offset. -/
theorem updated_offset (settings : Bool) (s : State) (c : Channel) :
    ((updated settings s).regs.ch[c.val]).offset = (s.regs.ch[c.val]).offset := by
  by_cases h : ∃ i, SlotReads settings s.regs.cva i c
  · obtain ⟨i, hi⟩ := h
    rw [(channel_eq_iff.1 (updated_channel_of_reads hi)).1, chUpdate_ch_self]
  · rw [(channel_eq_iff.1 (updated_channel_of_not_reads (not_exists.1 h))).1]

/-- The mapped knob is what R90 says it is. -/
theorem eq_mappedKnob {set : BitVec 5} {i : Slot} {pm : BitVec 8} (h : (s.regs.param set i).Legal)
    (hpm : pm.toNat = (s.regs.param set i).min.toNat + (chValue s (potOf i) true).toNat *
      ((s.regs.param set i).max.toNat - (s.regs.param set i).min.toNat) / 4095) :
    pm = mappedKnob set s i := by
  have hpot := (chValue s (potOf i) true).isLt
  exact BitVec.eq_of_toNat_eq (hpm.trans (potMapped_toNat (by omega) h.1.le).symm)

/-! ## The loaded CV assignment (43_cv R98) -/

theorem cvModeCode_legalCva (m t d : Nat) :
    (cvModeCode (legalCva m t d).mode).toNat = min m 2 := by
  match m with
  | 0 => rfl
  | 1 => rfl
  | m + 2 => simp [legalCva, cvModeOf, cvModeCode]

theorem legalCva_target (m t d : Nat) : (legalCva m t d).target.val = min t 2 := rfl

theorem legalCva_depth (m t d : Nat) : (legalCva m t d).depth.toNat = min d 100 := by
  simp only [legalCva, depthMax, BitVec.toNat_ofNat]
  omega

/-! ## What PB_UPDATE leaves unchanged, and its write events (42_takeover R89, R96) -/

/-- The latch event of slot `i` shows the latches of the slots up to `i` as the command leaves
them. -/
theorem latchUpTo_eq_ofFn (settings : Bool) (s : State) (i : Slot) :
    (Vector.ofFn fun j : Slot =>
      if j ≤ i then (updated settings s).regs.latch[j.val] else s.regs.latch[j.val]) =
      latchUpTo (updatedSet settings s) s (i.val + 1) := by
  refine latch_ext fun j => ?_
  rw [latchUpTo_getElem, Vector.getElem_ofFn, updated_latch_getElem]
  have hlt : j.val < i.val + 1 ↔ j ≤ i := Nat.lt_succ_iff
  by_cases hji : j ≤ i <;> simp [hji, hlt]

/-- At the end of the command, the events of R89 for one slot are those of its step. -/
theorem slotEvents_updated (settings : Bool) (s : State) (i : Slot) :
    slotEvents settings s (updated settings s) i =
      slotTrace settings (updatedSet settings s) s i := by
  have hpot := (channel_eq_iff.1 (updated_channel_potOf settings s i)).1
  have hcv : blends settings s.regs.cva i = true →
      (updated settings s).regs.ch[3] = (chUpdate s cvCh).regs.ch[cvCh.val] := fun hb =>
    (channel_eq_iff.1 (updated_channel_cvCh_of_blends hb)).1
  simp only [slotEvents, slotTrace, ← blends_iff]
  rw [← updatedSet, ← mappedKnob, latchUpTo_eq_ofFn, hpot, updated_param_self]
  by_cases hb : blends settings s.regs.cva i = true
  · rw [if_pos hb, if_pos hb, hcv hb]
  · rw [if_neg hb, if_neg hb]

/-- The write events of the command, the first one first. -/
theorem updated_events (settings : Bool) (s : State) : (updated settings s).events =
    (slotEvents settings s (updated settings s) 0 ++ slotEvents settings s (updated settings s) 1 ++
      slotEvents settings s (updated settings s) 2 ++
      (if settings then [Write.cva (updated settings s).regs.cva] else []) ++
      [Write.pwm 0 (updated settings s).regs.pwm[0], .pwm 1 (updated settings s).regs.pwm[1],
        .pwm 2 (updated settings s).regs.pwm[2]]).reverse ++ s.events := by
  have hslots : ((List.finRange 3).take 3).flatMap
      (slotTrace settings (updatedSet settings s) s) =
      slotEvents settings s (updated settings s) 0 ++
        slotEvents settings s (updated settings s) 1 ++
        slotEvents settings s (updated settings s) 2 := by
    simp [slotEvents_updated, List.finRange_succ]
  have hcva : (if settings then [Write.cva (updated settings s).regs.cva] else []).reverse =
      if settings then [Write.cva (updated settings s).regs.cva] else [] := by
    split <;> rfl
  have hfinish := finishUpdate_events settings (slotSteps settings s)
  rw [(slotSteps_done settings s).events, ← updated] at hfinish
  rw [hfinish, ← hslots, List.reverse_append, List.reverse_append, hcva]
  simp only [List.append_assoc]
  rfl

/-- Beyond CVA and PWM the command changes what the slots' steps change. -/
theorem updated_frame (settings : Bool) (s : State) :
    { (updated settings s).regs with
      latch := s.regs.latch, params := s.regs.params, ch := s.regs.ch, pwm := s.regs.pwm,
      cva := s.regs.cva } = s.regs := by
  have hframe := (slotSteps_done settings s).frame
  rw [updated, finishUpdate_regs]
  exact congrArg (fun r : Regs => { r with pwm := s.regs.pwm, cva := s.regs.cva }) hframe

/-! ## The statements -/

/-- Settles O39: the PWM levels are computed from the final entries, legal as every command keeps
them. -/
theorem updateWritesPwm : Obligations.UpdateWritesPwm := by
  unfold Obligations.UpdateWritesPwm
  intro s settings hinv
  have hsafe := (pbUpdate_safeRun settings hinv (exec_pbUpdate settings s)).inv
  have hactive := congrArg Regs.active (slotSteps_done settings s).frame
  refine ⟨_, exec_pbUpdate settings s, ?_, ?_⟩
  · rw [updated, finishUpdate_regs]
    exact hactive
  · rintro i q rfl
    obtain ⟨hlt, hlo, hhi⟩ := State.Inv.param_legal hsafe (State.Inv.active_lt hsafe) i
    have hpwm : (updated settings s).regs.pwm[i.val] = pwmLevel (updated settings s) i :=
      finishUpdate_pwm _ _ i
    rw [hpwm, pwmLevel, mapBack_toNat _ hlt hlo hhi, updated_cfg]

/-- Settles O40: where the blend does not run, the slot follows its knob exactly where its latch is
set at the end. -/
theorem updateTakesOver : Obligations.UpdateTakesOver := by
  unfold Obligations.UpdateTakesOver
  refine fun s settings hinv => ⟨_, exec_pbUpdate settings s, ?_⟩
  rintro i q pm rfl hpm
  have hlegal := State.Inv.param_legal hinv (updatedSet_lt settings hinv) i
  obtain rfl := eq_mappedKnob hlegal hpm
  have hlatch := updated_latch_getElem settings s i
  refine ⟨hlatch, acc_of_channel_eq_chUpdate (updated_channel_potOf settings s i), fun hno => ?_⟩
  rw [updated_param_self, slotValue_of_not_blends (not_blends_of hno), hlatch]

/-- Settles O41: the target slot's step blends, so CH3 is read once and the value is the blend of
what the knob and the CV input are before the command. -/
theorem updateBlendsCv : Obligations.UpdateBlendsCv := by
  unfold Obligations.UpdateBlendsCv
  rintro s i q pm cv d mapped half hinv htarget rfl hdepth rfl hpm rfl rfl rfl
  have hlegal := State.Inv.param_legal hinv (State.Inv.active_lt hinv) i
  obtain rfl := eq_mappedKnob hlegal hpm
  have hb : blends false s.regs.cva i = true := blends_iff.2 ⟨rfl, htarget, hdepth⟩
  have hcv := updated_channel_cvCh_of_blends hb
  refine ⟨_, exec_pbUpdate false s, acc_of_channel_eq_chUpdate hcv,
    (channel_eq_iff.1 hcv).2.trans (chUpdate_adc_self s cvCh), ?_⟩
  have hvalue : ((updated false s).regs.param s.regs.active i).value =
      slotValue false s.regs.active s i := congrArg Param.value (updated_param_self false s i)
  rw [hvalue, slotValue_of_blends hb, blendedValue, cvBlendValue_toNat _ _ _ _ _ hlegal.1.le,
    cvMapped_eq, halfMapped_eq]
  cases s.regs.cva.mode with
  | off => exact apply_ite (fun v : BitVec 8 => (v.toNat : Int)) _ _ _
  | bipolar => rfl
  | unipolar => rfl

/-- Settles O42: on the settings set no blend runs, and CVA is loaded after the slots' steps. -/
theorem settingsUpdateLoadsCva : Obligations.SettingsUpdateLoadsCva := by
  unfold Obligations.SettingsUpdateLoadsCva
  intro s _
  obtain ⟨hch, hadc⟩ := channel_eq_iff.1 <|
    updated_channel_cvCh_of_not_blends (settings := true) (s := s) fun _ => not_blends_of (.inl rfl)
  have hcva := finishUpdate_cva_of_settings (slotSteps true s)
  rw [(slotSteps_done true s).cfg, ← updated] at hcva
  exact ⟨_, exec_pbUpdate true s, hadc, hch,
    (congrArg (fun a : Cva => (cvModeCode a.mode).toNat) hcva).trans (cvModeCode_legalCva _ _ _),
    (congrArg (fun a : Cva => a.target.val) hcva).trans (legalCva_target _ _ _),
    (congrArg (fun a : Cva => a.depth.toNat) hcva).trans (legalCva_depth _ _ _),
    fun k i hk => (updated_param true s k i).trans (if_neg hk)⟩

/-- Settles O43: the slots' steps touch their own channels and the values of their own set. -/
theorem updateFrame : Obligations.UpdateFrame := by
  unfold Obligations.UpdateFrame
  refine fun s settings => ⟨_, exec_pbUpdate settings s,
    ⟨updated_cfg settings s, updated_port settings s⟩, updated_frame settings s, ?_,
    fun k i => ⟨?_, fun hk => (updated_param settings s k i).trans (if_neg hk)⟩,
    updated_offset settings s, fun hno => ?_, fun i => ?_, updated_events settings s, ?_, ?_⟩
  · rintro rfl
    exact (finishUpdate_cva_of_preset _).trans (slotSteps_done false s).cva
  · rw [updated_param]
    split
    next hk => rw [hk]
    next => rfl
  · exact channel_eq_iff.1 <|
      updated_channel_cvCh_of_not_blends fun _ => not_blends_of (hno.imp_right .inr)
  · exact (channel_eq_iff.1 (updated_channel_potOf settings s i)).2.trans (chUpdate_adc_self s _)
  · rw [updated, finishUpdate_env, (slotSteps_done settings s).pin]
  · rw [updated, finishUpdate_env, (slotSteps_done settings s).now]

end Sys2Proof.Machine
end

section
/-! PROOFS. The CV assignment (43_cv): what CVA_WRITE writes (R97, R98), and what follows from the
blend's formulas (R103 (a) to (c)). -/

namespace Sys2Proof.Machine

/-! ## CVA_WRITE (43_cv R97, R98) -/

/-- MODE 0 is Off, 1 is Bipolar, and every greater value is Unipolar. -/
theorem legalCva_mode (m t d : Nat) : (legalCva m t d).mode =
    if m = 0 then CvMode.off else if m = 1 then .bipolar else .unipolar := by
  match m with
  | 0 => rfl
  | 1 => rfl
  | m + 2 => simp [legalCva, cvModeOf]

theorem exec_cvaWrite (depth : BitVec 7) (target mode : BitVec 2) (s : State) :
    exec (.cvaWrite depth target mode) s =
      .next (s.write (.cva (legalCva mode.toNat target.toNat depth.toNat))) := rfl

/-- Settles O44: one write event, of the clamped CV assignment. -/
theorem cvaWriteClampsFields : Obligations.CvaWriteClampsFields := by
  unfold Obligations.CvaWriteClampsFields
  refine ⟨fun m t d => ⟨cvModeCode_legalCva m t d, legalCva_mode m t d, legalCva_target m t d,
    legalCva_depth m t d⟩, fun s depth target mode => ?_⟩
  have hmode := legalCva_mode mode.toNat target.toNat depth.toNat
  have hzero : mode.toNat = 0 ↔ mode = 0 := BitVec.toNat_inj (y := 0)
  have hone : mode.toNat = 1 ↔ mode = 1 := BitVec.toNat_inj (y := 1)
  simp only [hzero, hone] at hmode
  exact ⟨_, exec_cvaWrite depth target mode s, cvModeCode_legalCva _ _ _, hmode,
    legalCva_target _ _ _, legalCva_depth _ _ _, rfl, ⟨⟨rfl, rfl⟩, rfl⟩, rfl⟩

/-! ## What the blend gives (43_cv R103) -/

/-- The mapped CV lies at or above the range's lower end. -/
theorem le_cvMapped (cv d : Nat) {mn mx : BitVec 8} (h : mn.toNat ≤ mx.toNat) :
    (mn.toNat : Int) ≤ cvMapped cv d mn mx := by
  have hmap := mapInt_natCast (x := cvScaled cv d) (inHi := adcMax) (Nat.zero_le _)
    (Nat.zero_le _) h
  rw [cvMapped, ← Nat.cast_zero, hmap]
  exact Int.ofNat_le.2 (Nat.le_add_right _ _)

/-- Bipolar adds the mapped CV, which is not negative, so it only raises the mapped knob. -/
theorem le_cvBlendValue_bipolar (v : BitVec 8) {pm mn mx : BitVec 8} (cv d : Nat)
    (h : mn.toNat ≤ mx.toNat) (hpm : pm.toNat ≤ mx.toNat) :
    pm.toNat ≤ (cvBlendValue .bipolar v pm mn mx cv d).toNat := by
  have hvalue := cvBlendValue_toNat .bipolar v pm cv d h
  have hcv := le_cvMapped cv d h
  simp only at hvalue
  omega

/-- Unipolar adds the mapped CV less the mapped half point, so it leaves the mapped knob where the two
are equal. -/
theorem cvBlendValue_unipolar_of_eq (v : BitVec 8) {pm mn mx : BitVec 8} {cv d : Nat}
    (hlo : mn.toNat ≤ pm.toNat) (hhi : pm.toNat ≤ mx.toNat)
    (heq : cvMapped cv d mn mx = halfMapped d mn mx) :
    cvBlendValue .unipolar v pm mn mx cv d = pm := by
  have hvalue := cvBlendValue_toNat .unipolar v pm cv d (hlo.trans hhi)
  simp only [heq] at hvalue
  exact BitVec.eq_of_toNat_eq (by omega)

/-- Settles O45: the three modes' formulas, clamped into the range. -/
theorem cvBlendStaysInRange : Obligations.CvBlendStaysInRange := by
  unfold Obligations.CvBlendStaysInRange
  intro mode v pm mn mx cv d hlt hvlo hvhi hpmlo hpmhi _ _
  obtain ⟨hlo, hhi⟩ := cvBlendValue_mem mode pm cv d ⟨hvlo, hvhi⟩
  exact ⟨hlo, hhi, le_cvBlendValue_bipolar v cv d hlt.le hpmhi,
    cvBlendValue_unipolar_of_eq v hpmlo hpmhi⟩

end Sys2Proof.Machine
end

section
/-! PROOFS. The oscilloscope (44_scope): the scan delay (R104, R105), one sample of a long scan (R110),
and what a fast scan reports of its buffer: the average and the range (R108) and the trigger index
(R109, R112). The statistics and the trigger are stated for any state `u` they run on, and the frame of
the samples before them is that of `samples_run`. -/

namespace Sys2Proof.Machine

/-! ## The scan delay (44_scope R104, R105) -/

/-- A new delay and the ring restarted: two write events, and the delay read back where it fits. -/
theorem restart_with_delay (s : State) {d : Nat} (hd : d < 2 ^ 16) :
    let t := (s.write (.scopeDelay (BitVec.ofNat 16 d))).write (.scopeWr 0)
    t.regs.scopeDelay.toNat = d ∧
      t.regs = { s.regs with scopeDelay := t.regs.scopeDelay, scopeWr := 0 } ∧ NoDraw s t ∧
      t.events = [.scopeWr 0, .scopeDelay t.regs.scopeDelay] ++ s.events :=
  ⟨(BitVec.toNat_ofNat _ _).trans (Nat.mod_eq_of_lt hd), rfl, ⟨⟨rfl, rfl⟩, rfl⟩, rfl⟩

/-- Settles O46: the larger of two 16-bit values fits the register. -/
theorem scopeHalveSaturates : Obligations.ScopeHalveSaturates := by
  unfold Obligations.ScopeHalveSaturates
  refine ⟨Laws.decode_of_encode_eq rfl, fun s => ⟨_, rfl, restart_with_delay s ?_⟩⟩
  have hdelay := s.regs.scopeDelay.isLt
  have hmin := s.cfg.scanDelayMin.isLt
  omega

/-- Settles O47: the double is computed unbounded, and the maximum fits the register. -/
theorem scopeDoubleSaturates : Obligations.ScopeDoubleSaturates := by
  unfold Obligations.ScopeDoubleSaturates
  refine ⟨Laws.decode_of_encode_eq rfl, fun s => ⟨_, rfl, restart_with_delay s ?_⟩⟩
  have hmax := s.cfg.scanDelayMax.isLt
  omega

/-! ## SCOPE_ACQ at or above the threshold (44_scope R106, R110) -/

theorem exec_scopeAcq_of_long {s : State}
    (h : s.cfg.scanDelayThreshold.val ≤ s.regs.scopeDelay.toNat) :
    exec .scopeAcq s = .next (longAcq s) := by
  simp [exec, execScopeAcq, Nat.not_lt.2 h]

theorem nextWr_val (w : Fin 100) : (nextWr w).val = (w.val + 1) % 100 := by
  unfold nextWr
  split
  · next hlt => exact (Nat.mod_eq_of_lt hlt).symm
  · next hge =>
    obtain rfl : w = 99 := Fin.ext (by omega)
    rfl

/-- A long scan takes one sample, moves the ring index, and fixes the range and the trigger. -/
theorem longAcq_regs (s : State) : (longAcq s).regs =
    { (sampleInto s (ringEntry s.regs.scopeWr)).regs with
      scopeWr := nextWr s.regs.scopeWr
      scopeRmin := 0
      scopeRmax := 4095
      scopeTrig := 10 } := by
  simp [longAcq]

/-- The write events of a long scan, newest first: TRIG, RMAX, RMIN, WR, then the sample's. -/
theorem longAcq_events (s : State) : (longAcq s).events =
    [.scopeTrig 10, .scopeRmax 4095, .scopeRmin 0, .scopeWr (nextWr s.regs.scopeWr)] ++
      (sampleInto s (ringEntry s.regs.scopeWr)).events := rfl

theorem longAcq_env (s : State) : (longAcq s).env =
    { s.env with adc := s.env.adc.set 3 (s.env.adc[3].advance 16) } := by
  simp [longAcq, sampleInto_env]

theorem longAcq_cfg (s : State) : (longAcq s).cfg = s.cfg := by simp [longAcq]
theorem longAcq_port (s : State) : (longAcq s).port = s.port := by simp [longAcq]

theorem longAcq_ch (s : State) : (longAcq s).regs.ch = (chUpdate s cvCh).regs.ch := by
  rw [longAcq_regs, sampleInto_regs]

theorem longAcq_scopeWr (s : State) : (longAcq s).regs.scopeWr = nextWr s.regs.scopeWr := by
  rw [longAcq_regs]

theorem longAcq_acc (s : State) : (longAcq s).regs.acc cvCh = chAcc s cvCh := by
  rw [Regs.acc, longAcq_ch, ← Regs.acc, chUpdate_acc, if_pos rfl]

/-- A long scan writes the one entry that the ring index names. -/
theorem longAcq_buf (s : State) (j : Fin 200) : (longAcq s).regs.buf[j.val] =
    if j.val = s.regs.scopeWr.val then chValue s cvCh s.cfg.scopeSmooth else s.regs.buf[j.val] := by
  simp only [longAcq_regs, sampleInto_regs, Vector.getElem_set, ringEntry,
    eq_comm (a := j.val)]

/-- A long scan changes CH, the buffer, the ring index, the range and the trigger. -/
theorem longAcq_frame (s : State) : (longAcq s).regs =
    { s.regs with
      ch := (longAcq s).regs.ch
      buf := (longAcq s).regs.buf
      scopeWr := (longAcq s).regs.scopeWr
      scopeRmin := 0
      scopeRmax := 4095
      scopeTrig := 10 } := by
  simp only [longAcq_regs, sampleInto_regs]

/-- Settles O48: one sample into the ring's entry, then four register writes. -/
theorem longScanAppendsSample : Obligations.LongScanAppendsSample := by
  unfold Obligations.LongScanAppendsSample
  intro s hlong
  have hself : (chUpdate s cvCh).regs.ch[3] = _ := chUpdate_ch_self s cvCh
  refine ⟨_, exec_scopeAcq_of_long hlong, longAcq_frame s, ?_, longAcq_buf s, longAcq_acc s,
    ?_, ?_, fun c hc => ?_, longAcq_env s, longAcq_cfg s, longAcq_port s⟩
  · rw [longAcq_scopeWr, nextWr_val]
  · simp only [longAcq_ch, hself]
    rfl
  · simp only [longAcq_ch, hself]
    rw [longAcq_events, sampleInto_events, longAcq_scopeWr]
    rfl
  · rw [longAcq_ch, chUpdate_ch_ne s cvCh c hc]

/-! ## The samples of a buffer -/

section Samples

variable {buf : Vector (BitVec 12) 200} {x : Nat}

theorem samples_getD (buf : Vector (BitVec 12) 200) (j : Nat) :
    (samples buf).getD j 0 = (buf[j]?.getD 0).toNat := by
  rw [samples, List.getD_eq_getElem?_getD, List.getElem?_map, Vector.getElem?_toList]
  cases buf[j]? <;> rfl

theorem length_samples (buf : Vector (BitVec 12) 200) : (samples buf).length = 200 := by
  simp [samples]

theorem mem_samples_iff : x ∈ samples buf ↔ ∃ j < 200, (buf[j]?.getD 0).toNat = x := by
  simp only [← samples_getD, List.mem_iff_getElem]
  constructor
  · rintro ⟨j, hj, hx⟩
    exact ⟨j, length_samples buf ▸ hj, (List.getD_eq_getElem _ _ hj).trans hx⟩
  · rintro ⟨j, hj, hx⟩
    have hj' : j < (samples buf).length := (length_samples buf).symm ▸ hj
    exact ⟨j, hj', (List.getD_eq_getElem _ _ hj').symm.trans hx⟩

/-- Samples are at most ADC_MAX (10_state R33). -/
theorem le_of_mem_samples (h : x ∈ samples buf) : x ≤ 4095 := by
  obtain ⟨v, -, rfl⟩ := List.mem_map.1 h
  exact Nat.le_of_lt_succ v.isLt

theorem average_samples_le (buf : Vector (BitVec 12) 200) : average (samples buf) ≤ 4095 := by
  have hsum := List.sum_le_card_nsmul (samples buf) 4095 fun x => le_of_mem_samples
  rw [length_samples, smul_eq_mul] at hsum
  simp only [average, nFast]
  omega

theorem lowest_samples_eq (hmem : x ∈ samples buf) (hle : ∀ y ∈ samples buf, x ≤ y) :
    lowest (samples buf) = x := by
  rw [lowest, List.foldl_min, List.min?_eq_some_iff.2 ⟨hmem, hle⟩]
  exact Nat.min_eq_right (le_of_mem_samples hmem)

theorem highest_samples_eq (hmem : x ∈ samples buf) (hle : ∀ y ∈ samples buf, y ≤ x) :
    highest (samples buf) = x := by
  rw [highest, List.foldl_max, List.max?_eq_some_iff.2 ⟨hmem, hle⟩]
  exact Nat.zero_max x

/-! The same of a buffer read entry by entry, `b j` the sample of entry `j`. -/

variable {b : Nat → Nat}

theorem lowest_of_entries (hb : ∀ j, b j = (buf[j]?.getD 0).toNat) (hmem : ∃ j < 200, b j = x)
    (hle : ∀ j < 200, x ≤ b j) : lowest (samples buf) = x := by
  simp only [hb] at hmem hle
  refine lowest_samples_eq (mem_samples_iff.2 hmem) fun y hy => ?_
  obtain ⟨j, hj, rfl⟩ := mem_samples_iff.1 hy
  exact hle j hj

theorem highest_of_entries (hb : ∀ j, b j = (buf[j]?.getD 0).toNat) (hmem : ∃ j < 200, b j = x)
    (hle : ∀ j < 200, b j ≤ x) : highest (samples buf) = x := by
  simp only [hb] at hmem hle
  refine highest_samples_eq (mem_samples_iff.2 hmem) fun y hy => ?_
  obtain ⟨j, hj, rfl⟩ := mem_samples_iff.1 hy
  exact hle j hj

theorem crossesAt_samples_iff (hb : ∀ j, b j = (buf[j]?.getD 0).toNat) (level i : Nat) :
    crossesAt (samples buf) level i = true ↔ b (i - 1) < level ∧ level ≤ b i := by
  rw [hb, hb, ← samples_getD, ← samples_getD]
  simp [crossesAt]

end Samples

/-! ## The display range (44_scope R108) -/

/-- A range end rounded to the nearest 10 fits a 16-bit register, the lower one below 0 as well. -/
theorem ofInt_round10_toInt {v : Int} (hlo : -20 ≤ v) (hhi : v ≤ 4115) :
    (BitVec.ofInt 16 (round10 v)).toInt = (v + 5) / 10 * 10 := by
  have hround : round10 v = (v + 5) / 10 * 10 := rfl
  rw [BitVec.toInt_ofInt_eq_self (by omega) (by omega) (by omega), hround]

/-! ## The trigger index (44_scope R109, R112) -/

theorem trigLevel_midrange {p : Params} (h : p.scopeTrigLevel = .midrange) (xs : List Nat)
    (avg : Half) : trigLevel p xs avg = (lowest xs + highest xs) / 2 := by
  rw [trigLevel, h]

theorem trigLevel_average {p : Params} (h : p.scopeTrigLevel = .average) (xs : List Nat)
    (avg : Half) : trigLevel p xs avg = avg.toNat := by
  rw [trigLevel, h]

/-- The trigger index is the crossing that no other one of the window comes before. -/
theorem trigIndex_of_first {xs : List Nat} {level k : Nat} (hlo : 9 ≤ k) (hhi : k ≤ 109)
    (hk : crossesAt xs level k = true)
    (hfirst : ∀ i, 9 ≤ i → i < k → ¬ crossesAt xs level i = true) : trigIndex xs level = k := by
  have hfind : (List.range' 9 101).find? (crossesAt xs level) = some k :=
    List.find?_range'_eq_some.2 ⟨hk, List.mem_range'_1.2 ⟨hlo, by omega⟩,
      fun i hi hik => by simpa using hfirst i hi hik⟩
  exact congrArg (Option.getD · trigDefault) hfind

theorem trigIndex_of_none {xs : List Nat} {level : Nat}
    (hnone : ∀ i, 9 ≤ i → i ≤ 109 → ¬ crossesAt xs level i = true) : trigIndex xs level = 10 := by
  have hfind : (List.range' 9 101).find? (crossesAt xs level) = none :=
    List.find?_range'_eq_none.2 fun i hi hlt => by simpa using hnone i hi (by omega)
  exact congrArg (Option.getD · trigDefault) hfind

/-! ## What a fast scan leaves, after its samples -/

section FastScan

variable (u : State)

/-- The statistics and the trigger are those of the buffer, which they leave. -/
theorem fastTrigger_fastStats_regs : (fastTrigger (fastStats u)).regs =
    { u.regs with
      scopeAvg := BitVec.ofNat 16 (average (samples u.regs.buf))
      scopeRmin := BitVec.ofInt 16 (round10 ((lowest (samples u.regs.buf) : Int) - 20))
      scopeRmax := BitVec.ofInt 16 (round10 ((highest (samples u.regs.buf) : Int) + 20))
      scopeTrig := BitVec.ofNat 8 (trigIndex (samples u.regs.buf)
        (trigLevel u.cfg (samples u.regs.buf) (BitVec.ofNat 16 (average (samples u.regs.buf)))))
      scopeWr := 0 } := rfl

/-- A fast scan changes CH, the buffer and the five registers that it reports in, where the samples
change CH and the buffer alone. -/
theorem fastTrigger_fastStats_regs_frame {s u : State}
    (h : u.regs = { s.regs with ch := u.regs.ch, buf := u.regs.buf }) :
    (fastTrigger (fastStats u)).regs =
      { s.regs with
        ch := (fastTrigger (fastStats u)).regs.ch
        buf := (fastTrigger (fastStats u)).regs.buf
        scopeAvg := (fastTrigger (fastStats u)).regs.scopeAvg
        scopeRmin := (fastTrigger (fastStats u)).regs.scopeRmin
        scopeRmax := (fastTrigger (fastStats u)).regs.scopeRmax
        scopeTrig := (fastTrigger (fastStats u)).regs.scopeTrig
        scopeWr := 0 } :=
  congrArg (fun r : Regs => { r with
    scopeAvg := (fastTrigger (fastStats u)).regs.scopeAvg
    scopeRmin := (fastTrigger (fastStats u)).regs.scopeRmin
    scopeRmax := (fastTrigger (fastStats u)).regs.scopeRmax
    scopeTrig := (fastTrigger (fastStats u)).regs.scopeTrig
    scopeWr := 0 }) h

/-! Used one at a time: the two steps' record updates unfolded together are costly to compare. -/

theorem fastStats_cfg : (fastStats u).cfg = u.cfg := rfl
theorem fastStats_port : (fastStats u).port = u.port := rfl
theorem fastTrigger_cfg : (fastTrigger u).cfg = u.cfg := rfl
theorem fastTrigger_port : (fastTrigger u).port = u.port := rfl
theorem fastTrigger_scopeWr : (fastTrigger u).regs.scopeWr = 0 := rfl

theorem fastTrigger_fastStats_trig : (fastTrigger (fastStats u)).regs.scopeTrig =
    BitVec.ofNat 8 (trigIndex (samples u.regs.buf)
      (trigLevel u.cfg (samples u.regs.buf) (fastTrigger (fastStats u)).regs.scopeAvg)) := rfl

theorem fastTrigger_fastStats_avg_toNat :
    (fastTrigger (fastStats u)).regs.scopeAvg.toNat = (samples u.regs.buf).sum / 200 := by
  have hle := average_samples_le u.regs.buf
  rw [fastTrigger_fastStats_regs]
  exact (BitVec.toNat_ofNat _ _).trans (Nat.mod_eq_of_lt (by omega))

theorem fastTrigger_fastStats_rmin_toInt {lo : Nat} (hmem : lo ∈ samples u.regs.buf)
    (hle : ∀ x ∈ samples u.regs.buf, lo ≤ x) :
    (fastTrigger (fastStats u)).regs.scopeRmin.toInt = ((lo : Int) - 20 + 5) / 10 * 10 := by
  have hmax := le_of_mem_samples hmem
  simp only [fastTrigger_fastStats_regs, lowest_samples_eq hmem hle]
  exact ofInt_round10_toInt (by omega) (by omega)

theorem fastTrigger_fastStats_rmax_toInt {hi : Nat} (hmem : hi ∈ samples u.regs.buf)
    (hle : ∀ x ∈ samples u.regs.buf, x ≤ hi) :
    (fastTrigger (fastStats u)).regs.scopeRmax.toInt = ((hi : Int) + 20 + 5) / 10 * 10 := by
  have hmax := le_of_mem_samples hmem
  simp only [fastTrigger_fastStats_regs, highest_samples_eq hmem hle]
  exact ofInt_round10_toInt (by omega) (by omega)

end FastScan

/-- Settles O50: the statistics are computed from the buffer that the samples leave; the samples change
CH3 and the buffer alone. -/
theorem fastScanStatistics : Obligations.FastScanStatistics := by
  unfold Obligations.FastScanStatistics
  intro s hfast
  have hrun := samples_run ((List.finRange 200).take 200) s
  rw [← sampled] at hrun
  have hexec := exec_scopeAcq_of_fast hfast
  generalize sampled s 200 = u at hrun hexec
  obtain ⟨hcfg, hport, henv, hregs, hother, hoffset, -⟩ := hrun
  obtain ⟨hch, hbuf, henv'⟩ := fastTrigger_fastStats_frame u
  refine ⟨_, hexec, ?_, fun lo => ?_, fun hi => ?_, fastTrigger_scopeWr _,
    ⟨by rw [fastTrigger_cfg, fastStats_cfg, hcfg],
      by rw [fastTrigger_port, fastStats_port, hport]⟩,
    fastTrigger_fastStats_regs_frame hregs, fun c hc => ⟨?_, ?_⟩, ?_, ?_, ?_⟩
  · rw [hbuf, ← samples]
    exact fastTrigger_fastStats_avg_toNat u
  · rw [hbuf, ← samples]
    exact fastTrigger_fastStats_rmin_toInt u
  · rw [hbuf, ← samples]
    exact fastTrigger_fastStats_rmax_toInt u
  · rw [hch, hother c hc]
  · have hv : 3 ≠ c.val := fun e => hc (Fin.ext e.symm)
    simp only [henv', henv, Vector.getElem_set_ne _ _ hv]
  · simp only [hch]
    exact hoffset cvCh
  · rw [henv', henv]
  · rw [henv', henv]

/-- Settles O51: with `b` the samples of the buffer, the level is R109's and the trigger index the first
crossing. -/
theorem triggerIsFirstCrossing : Obligations.TriggerIsFirstCrossing := by
  unfold Obligations.TriggerIsFirstCrossing
  intro s
  rcases Nat.lt_or_ge s.regs.scopeDelay.toNat s.cfg.scanDelayThreshold.val with hfast | hlong
  · have hexec := exec_scopeAcq_of_fast hfast
    have hcfg := sampled_cfg s 200
    generalize sampled s 200 = u at hexec hcfg
    refine ⟨_, hexec, fun hlong => absurd hfast (Nat.not_lt.2 hlong),
      fun _ lo hi level b hb hbound hlo hhi hlevel => ?_⟩
    obtain ⟨-, hbuf, -⟩ := fastTrigger_fastStats_frame u
    have htrig := fastTrigger_fastStats_trig u
    simp only [hbuf] at hb
    have hcross := crossesAt_samples_iff hb level
    have hL : trigLevel u.cfg (samples u.regs.buf)
        (fastTrigger (fastStats u)).regs.scopeAvg = level := by
      cases hkind : s.cfg.scopeTrigLevel with
      | midrange =>
        rw [trigLevel_midrange (hcfg ▸ hkind), hlevel, hkind,
          lowest_of_entries hb hlo fun j hj => (hbound j hj).1,
          highest_of_entries hb hhi fun j hj => (hbound j hj).2]
      | average => rw [trigLevel_average (hcfg ▸ hkind), hlevel, hkind]
    rw [hL] at htrig
    refine ⟨fun k h9 h109 hlt hle hfirst => ?_, fun hnone => ?_⟩
    · have hk := trigIndex_of_first h9 h109 ((hcross k).2 ⟨hlt, hle⟩)
        fun i hi hik => mt (hcross i).1 (hfirst i hi hik)
      rw [htrig, hk]
      exact (BitVec.toNat_ofNat _ _).trans (Nat.mod_eq_of_lt (by omega))
    · have hdefault := trigIndex_of_none fun i h9 h109 => mt (hcross i).1 (hnone i h9 h109)
      exact htrig.trans (congrArg (BitVec.ofNat 8) hdefault)
  · exact ⟨_, exec_scopeAcq_of_long hlong, fun _ => by rw [longAcq_regs],
      fun hfast => absurd hfast (Nat.not_lt.2 hlong)⟩

end Sys2Proof.Machine
end

section
/-! PROOFS. The system commands and the step that runs them (45_system R113, R115, R116): NOP
changes nothing, ERR_CLEAR clears the four error registers, and a word of either opcode with a
should-be-zero bit set is refused as RESERVED_BITS. -/

/-! ## Words of a row beside its command's word (30_encoding R54, R66) -/

namespace Sys2Proof.Laws

open Sys2Proof.Machine

/-- A word that is not the word of the command it gives in its row has a should-be-zero bit set: if
it matched the row it would decode, and encoding is the inverse of decoding. -/
theorem decode_eq_reservedBits_of_encode_ne {w : Word} {i : Instr}
    (hrow : rowCommand w (opcodeOf w) = some i) (hne : encode i ≠ w) :
    decode w = .error .reservedBits :=
  (decode_eq_reservedBits w).2
    ⟨i, hrow, fun hmatch => hne (encodeOfDecode w i ((decode_eq_ok w i).2 ⟨hrow, hmatch⟩))⟩

/-- The words between a command's word and the next opcode are refused where they give the same
command, as all words of a row without operands do. -/
theorem decode_eq_reservedBits_of_between {w : Word} {i : Instr}
    (hrow : rowCommand w (opcodeNumber i) = some i) (hlo : (encode i).toNat < w.toNat)
    (hhi : w.toNat < (opcodeNumber i + 1) * 2 ^ 24) : decode w = .error .reservedBits := by
  have hopcode : opcodeOf w = opcodeNumber i := by
    have hfield : (encode i).toNat / 2 ^ 24 = opcodeNumber i := opcodeField i
    rw [opcodeOf_eq]
    omega
  have hne : encode i ≠ w := by
    rintro rfl
    exact Nat.lt_irrefl _ hlo
  exact decode_eq_reservedBits_of_encode_ne (hopcode ▸ hrow) hne

end Sys2Proof.Laws

namespace Sys2Proof.Machine

variable {s : State}

/-! ## A word that decodes (45_system R116) -/

theorem step_of_decode {w : Word} {rest : List Word} {i : Instr}
    (hport : s.port = w :: rest) (hdecode : decode w = .ok i) :
    step s = exec i { s with port := rest, events := [] } := by
  simp [step, fetch_cons s w rest hport, hdecode]

/-- Settles O7: the word on the port is fetched and decoded. -/
theorem stepRunsDecodedCommand : Obligations.StepRunsDecodedCommand := by
  unfold Obligations.StepRunsDecodedCommand
  intro s w rest i hport hdecode
  exact step_of_decode hport hdecode

/-! ## NOP (45_system R113) -/

theorem exec_nop (s : State) : exec .nop s = .next s := rfl

/-- Settles O10: NOP has no operand, so only its own word in its opcode decodes. -/
theorem nopChangesNothing : Obligations.NopChangesNothing := by
  unfold Obligations.NopChangesNothing
  exact ⟨exec_nop, Laws.decode_of_encode_eq rfl, fun w hlo hhi =>
    Laws.decode_eq_reservedBits_of_between (i := .nop) rfl hlo (Nat.lt_succ_of_le hhi)⟩

/-! ## ERR_CLEAR (45_system R115) -/

theorem exec_errClear (s : State) : exec .errClear s = .next s.clearError := rfl

/-- With no error recorded the invariant has the cause and the word zero already. -/
theorem State.clearError_regs_of_no_error (herr : s.regs.err = false) (hinv : s.Inv) :
    s.clearError.regs = s.regs := by
  obtain ⟨hcause, hlo, hhi⟩ := (Regs.inv_iff.1 hinv.2).2.noError herr
  calc s.clearError.regs
      = { s.regs with err := false, errCause := none, errCmdLo := 0, errCmdHi := 0 } :=
        congrArg State.regs s.clearError_eq
    _ = { s.regs with
          err := s.regs.err, errCause := s.regs.errCause
          errCmdLo := s.regs.errCmdLo, errCmdHi := s.regs.errCmdHi } := by
        rw [herr, hcause, hlo, hhi]
    _ = s.regs := rfl

/-- Settles O12: the command is the clearing operation; the other words of its opcode do not decode
and are recorded. -/
theorem errClearAcknowledges : Obligations.ErrClearAcknowledges := by
  unfold Obligations.ErrClearAcknowledges
  refine ⟨fun s => ⟨s.clearError, exec_errClear s, rfl, ⟨⟨rfl, rfl⟩, rfl⟩, rfl,
    State.clearError_regs_of_no_error⟩, Laws.decode_of_encode_eq rfl,
    fun s w rest hport hlo hhi => ?_⟩
  have hdecode : decode w = .error .reservedBits :=
    Laws.decode_eq_reservedBits_of_between (i := .errClear) rfl hlo (Nat.lt_succ_of_le hhi)
  exact ⟨_, step_of_illegal hport hdecode, State.raise_regs _ _ _⟩

end Sys2Proof.Machine
end

section
/-! PROOFS. First-error capture (60_exceptions R122): a word that raises, as a word or as a command, is
recorded, and recording changes nothing while an error is already recorded. -/

namespace Sys2Proof.Machine

variable {s : State}

/-- While ERR = 1, CAUSE and the recorded word stay and ERR is set to what it is (R122). -/
theorem Regs.recorded_of_err {r : Regs} (herr : r.err = true) (cause : ErrorCause) (w : Word) :
    r.recorded cause w = r :=
  calc r.recorded cause w
      = { r with err := true } := by simp [Regs.recorded, herr]
    _ = r := by rw [← herr]

/-- The word raises: it is illegal, or its command breaks a field-value rule (30_encoding R66, R68). -/
def WordRaises (p : Params) (w : Word) : Prop :=
  (∃ cause, decode w = .error cause) ∨ ∃ i, decode w = .ok i ∧ i.wellFormed p = false

/-- A step over a word that raises records an error with that word and does nothing else, whether the
decoder or the command raises (R121). -/
theorem step_of_raising {w : Word} {rest : List Word} (hport : s.port = w :: rest)
    (hraises : WordRaises s.cfg w) :
    ∃ t cause, step s = .next t ∧ t.regs = s.regs.recorded cause w ∧ t.cfg = s.cfg ∧
      t.env = s.env := by
  rcases hraises with ⟨cause, hdecode⟩ | ⟨i, hdecode, hill⟩
  · exact ⟨_, cause, step_of_illegal hport hdecode, State.raise_regs _ _ _, State.raise_cfg _ _ _,
      State.raise_env _ _ _⟩
  · obtain ⟨t, cause, hexec, hregs, -, -, ⟨⟨hcfg, -⟩, henv⟩⟩ :=
      erroringCommandIsPrecise { s with port := rest, events := [] } i hill
    have hword : encode i = w := Laws.encodeOfDecode w i hdecode
    exact ⟨t, cause, (step_of_decode hport hdecode).trans hexec, hword ▸ hregs, hcfg, henv⟩

/-- Settles O54: the word is recorded, and with ERR set that leaves the registers. -/
theorem firstErrorIsKept : Obligations.FirstErrorIsKept := by
  unfold Obligations.FirstErrorIsKept
  intro s w rest hport herr hraises
  obtain ⟨t, cause, hstep, hregs, hcfg, henv⟩ := step_of_raising hport hraises
  exact ⟨t, hstep, hregs.trans (Regs.recorded_of_err herr cause w), hcfg, henv⟩

end Sys2Proof.Machine
end

section
/-! PROOFS. Reset (70_reset R132): what each indexed register and parameter entry holds after reset,
against the reset column of 10_state R35. -/

namespace Sys2Proof.Machine

variable (p : Params)

/-! ## The CV assignment (10_state R19) -/

theorem reset_cva : readReg p (Regs.reset p) .cva = 0 := by
  simp only [readReg, Regs.reset]
  rfl

/-! ## The registers of one index (10_state R18, R25 to R28, R30, R31, R33) -/

theorem reset_latch (i : Slot) : (Regs.reset p).latch[i.val] = false := by
  fin_cases i <;> rfl

theorem reset_btn (b : Button) :
    (Regs.reset p).btn[b.val] =
      { shift := 0, stage := .idle, evt := .none, hold := 500, t0Lo := 0, t0Hi := 0 } :=
  Vector.getElem_replicate _

theorem reset_btnState (b : Button) : readReg p (Regs.reset p) (.btnState b) = 0 := by
  simp only [readReg, reset_btn]
  rfl

theorem reset_t0 (b : Button) : (Regs.reset p).t0 b = 0 := by
  simp only [Regs.t0, reset_btn]
  rfl

theorem reset_ch (c : Channel) :
    (Regs.reset p).ch[c.val] = { accLo := 0, accHi := 0, offset := 0 } :=
  Vector.getElem_replicate _

theorem reset_pwm (i : Slot) : (Regs.reset p).pwm[i.val] = 0 := by
  fin_cases i <;> rfl

theorem reset_buf (j : Fin 200) : (Regs.reset p).buf[j.val] = 0 :=
  Vector.getElem_replicate _

/-! ## The parameter entries (10_state R32) -/

theorem reset_param_of_preset {set : BitVec 5} (hset : set.toNat < p.totalPresets.val) (i : Slot) :
    (Regs.reset p).param set i = Param.resetPreset := by
  rw [reset_param, if_neg (Nat.ne_of_lt hset)]

/-- The index of the set after the last preset fits its field. -/
theorem settingsSet_toNat : p.settingsSet.toNat = p.totalPresets.val :=
  (BitVec.toNat_ofNat _ _).trans (Nat.mod_eq_of_lt p.totalPresets.isLt)

theorem reset_param_of_settings (i : Slot) :
    (Regs.reset p).param p.settingsSet i = Param.resetSettings[i.val] := by
  rw [reset_param, if_pos (settingsSet_toNat p)]

/-- Settles O57: the registers without an index hold their values by definition; the others at every
index, by the `reset_` lemma of its group. -/
theorem resetValues : Obligations.ResetValues := by
  unfold Obligations.ResetValues
  refine ⟨State.assertReset_regs, State.resetOf_regs Config.params, ?_⟩
  rintro p _ rfl
  refine ⟨rfl, rfl, rfl, rfl, rfl, rfl, reset_latch p, reset_cva p, reset_scopeDelay_toNat p,
    rfl, rfl, rfl, rfl, rfl,
    fun b => ⟨reset_btnState p b, congrArg ButtonRegs.hold (reset_btn p b), reset_t0 p b⟩,
    fun c => ⟨reset_acc p c, congrArg ChannelRegs.offset (reset_ch p c)⟩, reset_pwm p,
    fun set i hset => reset_param_of_preset p hset i, reset_param_of_settings p 0,
    reset_param_of_settings p 1, reset_param_of_settings p 2, reset_buf p⟩

end Sys2Proof.Machine
end
